-- ==== Sys2Proof/Word.lean ====
section
/-! DEFINITION. The word types of WBP: a byte of the frame buffer and a 48-bit MAC address (spec 00_scope R11, 10_state R27).
Every other width is written as `BitVec N` where the spec writes `uN`; no value is signed (R11, R16). -/

namespace Sys2Proof

/-- One byte of the frame, bit 7 the most significant (R12). -/
abbrev Byte := BitVec 8

/-- A MacAddress, "6 raw bytes" held as a u48: first wire byte in bits 47:40 (R27, R97). -/
abbrev Mac := BitVec 48

end Sys2Proof
end

