-- ==== Sys2Proof/Syntax.lean ====
section
/-! DEFINITION. The operations of WBP as syntax: one constructor of `Instr` for every row of spec/opcode_table.json
(30_encoding R106: selector outcomes, layouts, phase steps, cursor primitives, decoders, host commands). WBP has no instruction
words (00_scope R3: "instruction" is read as "operation"), so an operand here is what the row's own bits carry: the value of the
selector's field, the fields of the layout's pattern, or the argument the spec writes in `NAME(args)` (R107). -/

namespace Sys2Proof

/-- What `READ` can name (R222): the five control and status registers (R35), the 45 result registers in their six groups (R27 to
R32), and the payload window. -/
inductive Reg where
  | phase       -- PHASE, u4
  | frameLen    -- FRAME_LEN, LENW
  | cur         -- CUR, LENW+3
  | errKind     -- ERR_KIND, u3
  | errCause    -- ERR_CAUSE, u3
  | ethDst      -- ETH_DST, u48
  | ethSrc      -- ETH_SRC, u48
  | ethTypeVal  -- ETH_TYPE_VAL, u16
  | ethTypeTag  -- ETH_TYPE_TAG, u2
  | ipHlen      -- IP_HLEN, u6
  | ipTosRaw    -- IP_TOS_RAW, u8
  | ipTosPrec   -- IP_TOS_PREC, u3
  | ipTosD      -- IP_TOS_D, u1
  | ipTosT      -- IP_TOS_T, u1
  | ipTosR      -- IP_TOS_R, u1
  | ipTotlen    -- IP_TOTLEN, u16
  | ipId        -- IP_ID, u16
  | ipDf        -- IP_DF, u1
  | ipMf        -- IP_MF, u1
  | ipFragoff   -- IP_FRAGOFF, u13
  | ipTtl       -- IP_TTL, u8
  | ipProtoVal  -- IP_PROTO_VAL, u8
  | ipProtoTag  -- IP_PROTO_TAG, u2
  | ipCsum      -- IP_CSUM, u16
  | ipSrc       -- IP_SRC, u32
  | ipDst       -- IP_DST, u32
  | icmpType    -- ICMP_TYPE, u8
  | icmpCode    -- ICMP_CODE, u8
  | icmpCsum    -- ICMP_CSUM, u16
  | tcpSport    -- TCP_SPORT, u16
  | tcpDport    -- TCP_DPORT, u16
  | tcpSeq      -- TCP_SEQ, u32
  | tcpAcknum   -- TCP_ACKNUM, u32
  | tcpDoff     -- TCP_DOFF, u6
  | tcpUrg      -- TCP_URG, u1
  | tcpAck      -- TCP_ACK, u1
  | tcpPsh      -- TCP_PSH, u1
  | tcpRst      -- TCP_RST, u1
  | tcpSyn      -- TCP_SYN, u1
  | tcpFin      -- TCP_FIN, u1
  | tcpWin      -- TCP_WIN, u16
  | tcpCsum     -- TCP_CSUM, u16
  | tcpUrp      -- TCP_URP, u16
  | udpSport    -- UDP_SPORT, u16
  | udpDport    -- UDP_DPORT, u16
  | udpLen      -- UDP_LEN, u16
  | udpCsum     -- UDP_CSUM, u16
  | ctTag       -- CT_TAG, u2
  | payOff      -- PAY_OFF, LENW
  | payLen      -- PAY_LEN, LENW
  | payload     -- PAYLOAD, bytes
  deriving DecidableEq, Repr

/-- The fields of format ETH, 112 stream bits (R91). -/
structure EthWord where
  dst : Mac
  src : Mac
  typ : BitVec 16
  deriving DecidableEq, Repr

/-- The fields of format TOS, one byte (R93); `rsv` is the two reserved bits, read and discarded. -/
structure TosWord where
  prec : BitVec 3
  d : Bool
  t : Bool
  r : Bool
  rsv : BitVec 2
  deriving DecidableEq, Repr

/-- The fields of the fixed part of format IPV4, 160 stream bits less the four fixed bits `0100` of the version (R92, R106);
`rsv` is the reserved flag bit (stream bit 48), read and discarded. -/
structure Ipv4Word where
  ihl : BitVec 4
  tos : TosWord
  totlen : BitVec 16
  ident : BitVec 16
  rsv : Bool
  df : Bool
  mf : Bool
  fragoff : BitVec 13
  ttl : Byte
  proto : Byte
  csum : BitVec 16
  src : BitVec 32
  dst : BitVec 32
  deriving DecidableEq, Repr

/-- The fields of format ICMP, 32 stream bits (R94). -/
structure IcmpWord where
  type : Byte
  code : Byte
  csum : BitVec 16
  deriving DecidableEq, Repr

/-- The fields of the fixed part of format TCP, 160 stream bits (R95); `rsv1` and `rsv2` are the two reserved groups. -/
structure TcpWord where
  sport : BitVec 16
  dport : BitVec 16
  seq : BitVec 32
  acknum : BitVec 32
  doff : BitVec 4
  rsv1 : BitVec 3
  rsv2 : BitVec 3
  urg : Bool
  ack : Bool
  psh : Bool
  rst : Bool
  syn : Bool
  fin : Bool
  win : BitVec 16
  csum : BitVec 16
  urp : BitVec 16
  deriving DecidableEq, Repr

/-- The fields of the fixed part of format UDP, 64 stream bits (R96). -/
structure UdpWord where
  sport : BitVec 16
  dport : BitVec 16
  len : BitVec 16
  csum : BitVec 16
  deriving DecidableEq, Repr

/-- The 57 operations, in the order of spec/opcode_table.json. A selector row whose mask fixes every bit of its field has no
operand; any other selector row carries the field's value, and `WellFormed` says that the row is the first one the value matches
(R106). -/
inductive Instr where
  -- SEL rows: EtherType selector over the 16-bit type/length value (R98)
  | etypeIp
  | etypeLength0 (v : BitVec 16)
  | etypeLength1 (v : BitVec 16)
  | etypeLength2 (v : BitVec 16)
  | etypeLength3 (v : BitVec 16)
  | etypeLength4 (v : BitVec 16)
  | etypeLength5 (v : BitVec 16)
  | etypeLength6 (v : BitVec 16)
  | etypeLength7
  | etypeOther (v : BitVec 16)
  -- version selector (R99)
  | ipver4
  | ipverBad (v : BitVec 4)
  -- IHL minimum-length selector (R101)
  | ihlSmall03 (v : BitVec 4)
  | ihlSmall4
  | ihlOk (v : BitVec 4)
  -- protocol selector (R100)
  | protoIcmp
  | protoTcp
  | protoUdp
  | protoOther (n : Byte)
  -- TCP data-offset minimum-length selector (R101)
  | tcpdoSmall03 (v : BitVec 4)
  | tcpdoSmall4
  | tcpdoOk (v : BitVec 4)
  -- UDP length selector (R101)
  | udplenSmall (v : BitVec 16)
  | udplenOk (v : BitVec 16)
  -- LAYOUT rows (R91 to R96)
  | layoutEth (w : EthWord)
  | layoutIpv4 (w : Ipv4Word)
  | layoutTos (w : TosWord)
  | layoutIcmp (w : IcmpWord)
  | layoutTcp (w : TcpWord)
  | layoutUdp (w : UdpWord)
  -- PHASE rows (R105)
  | stepEth
  | stepIp
  | stepDispatch
  | stepIcmp
  | stepTcp
  | stepUdp
  -- PRIM rows (R132 to R141)
  | rdU8
  | rdU16
  | rdU32
  | rdBits (n : Nat)
  | rdBit
  | take (n : Nat)
  | skip (n : Nat)
  | takeRest
  -- DECODER rows
  | decodeMac
  | classifyEtype (v : BitVec 16)
  | decodeEther
  | decodeTos
  | decodeIpv4
  | classifyProto (n : Byte)
  | decodeIcmp
  | decodeTcp
  | decodeUdp
  | decodePacket (bytes : List Byte)
  -- CMD rows (R220 to R222)
  | start
  | loadFrame (bytes : List Byte)
  | read (r : Reg)
  deriving DecidableEq, Repr

end Sys2Proof
end

