-- ==== Sys2Proof/Decode.lean ====
section
/-! DEFINITION. The decoder and the encoder of operations. What the table encodes is taken from the table: the mask and match of
every selector row, in file order, first match wins (30_encoding R106, R98 to R101), the six layouts bit by bit (R91 to R96), and
the PHASE code that selects a phase step (R105). R105 gives cursor primitives, decoders and host commands no binary encoding, and
two selectors share the same bits, so an operation is written as one tag byte (the table's selector, layout or operation) and
then its operand bytes, first byte first, big-endian. The tag byte is a DESIGN CHOICE (log entry 1). -/

namespace Sys2Proof

/-! ### Byte order -/

/-- `be(bytes)`: the unsigned integer whose most significant byte is the first byte (R14, R62). -/
def be (bs : List Byte) : Nat := bs.foldl (fun acc b => acc * 256 + b.toNat) 0

/-- The `k` low bytes of `v`, most significant byte first: the writing direction of `be`. -/
def toBe : Nat → Nat → List Byte
  | 0, _ => []
  | k + 1, v => BitVec.ofNat 8 (v / 256 ^ k) :: toBe k v

/-! ### Selector rows (R98 to R101, R106) -/

/-- A selector row as the table has it: the mask over the field and the value the masked field must have. -/
structure SelRow (n : Nat) where
  mask : BitVec n
  value : BitVec n
  deriving DecidableEq, Repr

/-- A field value meets a row. -/
def SelRow.hits (r : SelRow n) (v : BitVec n) : Bool := v &&& r.mask == r.value

/-- The index of the first row of a selector that a field value meets: rows are tested in file order, first match wins (R106). -/
def firstHit (rows : List (SelRow n)) (v : BitVec n) : Nat := rows.findIdx (fun r => r.hits v)

/-- `eth.type_length`: ETYPE.IP, ETYPE.LENGTH.0 to ETYPE.LENGTH.7, ETYPE.OTHER (R98). -/
def etypeRows : List (SelRow 16) :=
  [⟨0xFFFF, 0x0800⟩, ⟨0xFC00, 0x0000⟩, ⟨0xFF00, 0x0400⟩, ⟨0xFF80, 0x0500⟩, ⟨0xFFC0, 0x0580⟩,
   ⟨0xFFF0, 0x05C0⟩, ⟨0xFFF8, 0x05D0⟩, ⟨0xFFFC, 0x05D8⟩, ⟨0xFFFF, 0x05DC⟩, ⟨0x0000, 0x0000⟩]

/-- `ipv4.version`: IPVER.4, IPVER.BAD (R99). -/
def ipverRows : List (SelRow 4) := [⟨15, 4⟩, ⟨0, 0⟩]

/-- The rows of `ipv4.ihl` and of `tcp.data_offset`: SMALL.0_3, SMALL.4, OK (R101). -/
def minWordsRows : List (SelRow 4) := [⟨12, 0⟩, ⟨15, 4⟩, ⟨0, 0⟩]

/-- `ipv4.protocol`: PROTO.ICMP, PROTO.TCP, PROTO.UDP, PROTO.OTHER (R100). -/
def protoRows : List (SelRow 8) := [⟨0xFF, 0x01⟩, ⟨0xFF, 0x06⟩, ⟨0xFF, 0x11⟩, ⟨0, 0⟩]

/-- `udp.length`: UDPLEN.SMALL, UDPLEN.OK (R101). -/
def udplenRows : List (SelRow 16) := [⟨0xFFF8, 0⟩, ⟨0, 0⟩]

/-- The row of the EtherType selector that a type/length value selects. -/
def selectEtype (v : BitVec 16) : Instr :=
  match firstHit etypeRows v with
  | 0 => .etypeIp
  | 1 => .etypeLength0 v
  | 2 => .etypeLength1 v
  | 3 => .etypeLength2 v
  | 4 => .etypeLength3 v
  | 5 => .etypeLength4 v
  | 6 => .etypeLength5 v
  | 7 => .etypeLength6 v
  | 8 => .etypeLength7
  | _ => .etypeOther v

/-- The row of the version selector that a version nibble selects. -/
def selectIpver (v : BitVec 4) : Instr :=
  match firstHit ipverRows v with
  | 0 => .ipver4
  | _ => .ipverBad v

/-- The row of the IHL selector that an IHL nibble selects. -/
def selectIhl (v : BitVec 4) : Instr :=
  match firstHit minWordsRows v with
  | 0 => .ihlSmall03 v
  | 1 => .ihlSmall4
  | _ => .ihlOk v

/-- The row of the protocol selector that a protocol number selects. -/
def selectProto (n : Byte) : Instr :=
  match firstHit protoRows n with
  | 0 => .protoIcmp
  | 1 => .protoTcp
  | 2 => .protoUdp
  | _ => .protoOther n

/-- The row of the TCP data-offset selector that a data-offset nibble selects. -/
def selectTcpdo (v : BitVec 4) : Instr :=
  match firstHit minWordsRows v with
  | 0 => .tcpdoSmall03 v
  | 1 => .tcpdoSmall4
  | _ => .tcpdoOk v

/-- The row of the UDP length selector that a UDP length selects. -/
def selectUdplen (v : BitVec 16) : Instr :=
  match firstHit udplenRows v with
  | 0 => .udplenSmall v
  | _ => .udplenOk v

/-- The phase step that a PHASE code selects: codes 1 to 6 select the six steps, every other code selects none (R105, 93 U8). -/
def selectStep (code : BitVec 4) : Option Instr :=
  match code.toNat with
  | 1 => some .stepEth
  | 2 => some .stepIp
  | 3 => some .stepDispatch
  | 4 => some .stepIcmp
  | 5 => some .stepTcp
  | 6 => some .stepUdp
  | _ => none

/-! ### Layouts (R91 to R96): stream bit `q` of an `N`-bit format is bit `N-1-q` of the `N`-bit number -/

/-- Format ETH read from its 112 bits (R91). -/
def EthWord.ofBits (w : BitVec 112) : EthWord :=
  { dst := w.extractLsb' 64 48, src := w.extractLsb' 16 48, typ := w.extractLsb' 0 16 }

/-- Format ETH written as its 112 bits (R91). -/
def EthWord.toBits (x : EthWord) : BitVec 112 := x.dst ++ x.src ++ x.typ

/-- Format TOS read from its byte (R93). -/
def TosWord.ofBits (w : Byte) : TosWord :=
  { prec := w.extractLsb' 5 3, d := w.getLsbD 4, t := w.getLsbD 3, r := w.getLsbD 2, rsv := w.extractLsb' 0 2 }

/-- Format TOS written as its byte (R93). -/
def TosWord.toBits (x : TosWord) : Byte :=
  x.prec ++ BitVec.ofBool x.d ++ BitVec.ofBool x.t ++ BitVec.ofBool x.r ++ x.rsv

/-- Format IPV4 read from its 160 bits, the version nibble left out (R92). -/
def Ipv4Word.ofBits (w : BitVec 160) : Ipv4Word :=
  { ihl := w.extractLsb' 152 4, tos := TosWord.ofBits (w.extractLsb' 144 8), totlen := w.extractLsb' 128 16,
    ident := w.extractLsb' 112 16, rsv := w.getLsbD 111, df := w.getLsbD 110, mf := w.getLsbD 109,
    fragoff := w.extractLsb' 96 13, ttl := w.extractLsb' 88 8, proto := w.extractLsb' 80 8, csum := w.extractLsb' 64 16,
    src := w.extractLsb' 32 32, dst := w.extractLsb' 0 32 }

/-- Format IPV4 written as its 160 bits, with the version nibble 4 (R92). -/
def Ipv4Word.toBits (x : Ipv4Word) : BitVec 160 :=
  (4 : BitVec 4) ++ x.ihl ++ x.tos.toBits ++ x.totlen ++ x.ident ++ BitVec.ofBool x.rsv ++ BitVec.ofBool x.df ++
    BitVec.ofBool x.mf ++ x.fragoff ++ x.ttl ++ x.proto ++ x.csum ++ x.src ++ x.dst

/-- Format ICMP read from its 32 bits (R94). -/
def IcmpWord.ofBits (w : BitVec 32) : IcmpWord :=
  { type := w.extractLsb' 24 8, code := w.extractLsb' 16 8, csum := w.extractLsb' 0 16 }

/-- Format ICMP written as its 32 bits (R94). -/
def IcmpWord.toBits (x : IcmpWord) : BitVec 32 := x.type ++ x.code ++ x.csum

/-- Format TCP read from its 160 bits (R95). -/
def TcpWord.ofBits (w : BitVec 160) : TcpWord :=
  { sport := w.extractLsb' 144 16, dport := w.extractLsb' 128 16, seq := w.extractLsb' 96 32, acknum := w.extractLsb' 64 32,
    doff := w.extractLsb' 60 4, rsv1 := w.extractLsb' 57 3, rsv2 := w.extractLsb' 54 3, urg := w.getLsbD 53,
    ack := w.getLsbD 52, psh := w.getLsbD 51, rst := w.getLsbD 50, syn := w.getLsbD 49, fin := w.getLsbD 48,
    win := w.extractLsb' 32 16, csum := w.extractLsb' 16 16, urp := w.extractLsb' 0 16 }

/-- Format TCP written as its 160 bits (R95). -/
def TcpWord.toBits (x : TcpWord) : BitVec 160 :=
  x.sport ++ x.dport ++ x.seq ++ x.acknum ++ x.doff ++ x.rsv1 ++ x.rsv2 ++ BitVec.ofBool x.urg ++ BitVec.ofBool x.ack ++
    BitVec.ofBool x.psh ++ BitVec.ofBool x.rst ++ BitVec.ofBool x.syn ++ BitVec.ofBool x.fin ++ x.win ++ x.csum ++ x.urp

/-- Format UDP read from its 64 bits (R96). -/
def UdpWord.ofBits (w : BitVec 64) : UdpWord :=
  { sport := w.extractLsb' 48 16, dport := w.extractLsb' 32 16, len := w.extractLsb' 16 16, csum := w.extractLsb' 0 16 }

/-- Format UDP written as its 64 bits (R96). -/
def UdpWord.toBits (x : UdpWord) : BitVec 64 := x.sport ++ x.dport ++ x.len ++ x.csum

/-! ### Register names and tags -/

/-- The registers that `READ` can name, in the order of the spec's tables (R35, R27 to R32). -/
def Reg.all : List Reg :=
  [.phase, .frameLen, .cur, .errKind, .errCause, .ethDst, .ethSrc, .ethTypeVal, .ethTypeTag, .ipHlen, .ipTosRaw,
   .ipTosPrec, .ipTosD, .ipTosT, .ipTosR, .ipTotlen, .ipId, .ipDf, .ipMf, .ipFragoff, .ipTtl, .ipProtoVal, .ipProtoTag,
   .ipCsum, .ipSrc, .ipDst, .icmpType, .icmpCode, .icmpCsum, .tcpSport, .tcpDport, .tcpSeq, .tcpAcknum, .tcpDoff, .tcpUrg,
   .tcpAck, .tcpPsh, .tcpRst, .tcpSyn, .tcpFin, .tcpWin, .tcpCsum, .tcpUrp, .udpSport, .udpDport, .udpLen, .udpCsum,
   .ctTag, .payOff, .payLen, .payload]

/-- The number of a register name in an encoded `READ` (DESIGN CHOICE, log entry 1). -/
def Reg.number (r : Reg) : Nat := Reg.all.idxOf r

/-- The tag of an encoded operation: which selector, layout, PHASE selection or operation of spec/opcode_table.json it is. -/
inductive OpTag where
  | selEtype -- eth.type_length selector: 2 operand bytes
  | selIpver -- ipv4.version selector: 1 operand byte, below 16
  | selIhl -- ipv4.ihl selector: 1 operand byte, below 16
  | selProto -- ipv4.protocol selector: 1 operand byte
  | selTcpdo -- tcp.data_offset selector: 1 operand byte, below 16
  | selUdplen -- udp.length selector: 2 operand bytes
  | fmtEth -- format ETH: 14 operand bytes
  | fmtIpv4 -- format IPV4: 20 operand bytes
  | fmtTos -- format TOS: 1 operand byte
  | fmtIcmp -- format ICMP: 4 operand bytes
  | fmtTcp -- format TCP: 20 operand bytes
  | fmtUdp -- format UDP: 8 operand bytes
  | phaseStep -- the phase step that a PHASE code selects: 1 operand byte
  | rdU8
  | rdU16
  | rdU32
  | rdBits -- 1 operand byte
  | rdBit
  | take -- 4 operand bytes
  | skip -- 4 operand bytes
  | takeRest
  | decodeMac
  | classifyEtype -- 2 operand bytes
  | decodeEther
  | decodeTos
  | decodeIpv4
  | classifyProto -- 1 operand byte
  | decodeIcmp
  | decodeTcp
  | decodeUdp
  | decodePacket -- 4 bytes of length, then that many bytes
  | start
  | loadFrame -- 4 bytes of length, then that many bytes
  | read -- 1 operand byte
  deriving DecidableEq, Repr

/-- The tags in the order of their numbers (DESIGN CHOICE, log entry 1). -/
def OpTag.all : List OpTag :=
  [.selEtype, .selIpver, .selIhl, .selProto, .selTcpdo, .selUdplen, .fmtEth, .fmtIpv4, .fmtTos, .fmtIcmp, .fmtTcp,
   .fmtUdp, .phaseStep, .rdU8, .rdU16, .rdU32, .rdBits, .rdBit, .take, .skip, .takeRest, .decodeMac, .classifyEtype,
   .decodeEther, .decodeTos, .decodeIpv4, .classifyProto, .decodeIcmp, .decodeTcp, .decodeUdp, .decodePacket, .start,
   .loadFrame, .read]

/-- The number of a tag. -/
def OpTag.number (t : OpTag) : Nat := OpTag.all.idxOf t

/-- The tag byte. -/
def OpTag.byte (t : OpTag) : Byte := BitVec.ofNat 8 t.number

/-! ### The decoder -/

/-- Why bytes are no operation. -/
inductive DecodeError where
  /-- no byte at all -/
  | noBytes
  /-- the first byte is no tag -/
  | unknownTag (b : Byte)
  /-- fewer operand bytes than the operation has -/
  | truncated
  /-- a 4-bit selector field with a value of 16 or more -/
  | fieldTooWide (b : Nat)
  /-- a PHASE code that selects no step (R105) -/
  | noPhaseStep (b : Nat)
  /-- an IPV4 layout whose first nibble is not the fixed `0100` (R92, R106) -/
  | versionNotFour
  /-- `RD_BITS(n)` with `n = 0` or `n > 32` (R135, 93 U5) -/
  | bitCount (n : Nat)
  /-- `READ` of a register that does not exist -/
  | unknownRegister (n : Nat)
  deriving DecidableEq, Repr

/-- What decoding answers: an operation and the bytes after it, or a rejection by name. -/
inductive Decoded where
  | ok (i : Instr) (rest : List Byte)
  | bad (e : DecodeError)
  deriving DecidableEq, Repr

/-- The operation decoded, if there is one. -/
def Decoded.instr? : Decoded → Option Instr
  | .ok i _ => some i
  | .bad _ => none

/-- The first `k` bytes and the rest. -/
def splitBytes : Nat → List Byte → Option (List Byte × List Byte)
  | 0, bs => some ([], bs)
  | _ + 1, [] => none
  | k + 1, b :: bs => (splitBytes k bs).map (fun x => (b :: x.1, x.2))

/-- Read a `k`-byte big-endian operand and go on with its value and the bytes after it. -/
def withOperand (k : Nat) (bs : List Byte) (f : Nat → List Byte → Decoded) : Decoded :=
  match splitBytes k bs with
  | none => .bad .truncated
  | some (xs, rest) => f (be xs) rest

/-- Read a one-byte operand that holds a 4-bit field. -/
def withNibble (bs : List Byte) (f : BitVec 4 → Instr) : Decoded :=
  withOperand 1 bs fun v rest => if v < 16 then .ok (f (BitVec.ofNat 4 v)) rest else .bad (.fieldTooWide v)

/-- Read a 4-byte length and then that many bytes. -/
def withBytes (bs : List Byte) (f : List Byte → Instr) : Decoded :=
  withOperand 4 bs fun n rest =>
    match splitBytes n rest with
    | none => .bad .truncated
    | some (xs, rest') => .ok (f xs) rest'

/-- Decode the operand bytes of an operation with the given tag. -/
def decodeOperands (t : OpTag) (bs : List Byte) : Decoded :=
  match t with
  | .selEtype => withOperand 2 bs fun v rest => .ok (selectEtype (BitVec.ofNat 16 v)) rest
  | .selIpver => withNibble bs selectIpver
  | .selIhl => withNibble bs selectIhl
  | .selProto => withOperand 1 bs fun v rest => .ok (selectProto (BitVec.ofNat 8 v)) rest
  | .selTcpdo => withNibble bs selectTcpdo
  | .selUdplen => withOperand 2 bs fun v rest => .ok (selectUdplen (BitVec.ofNat 16 v)) rest
  | .fmtEth => withOperand 14 bs fun v rest => .ok (.layoutEth (EthWord.ofBits (BitVec.ofNat 112 v))) rest
  | .fmtIpv4 => withOperand 20 bs fun v rest =>
      if (BitVec.ofNat 160 v).extractLsb' 156 4 = 4 then .ok (.layoutIpv4 (Ipv4Word.ofBits (BitVec.ofNat 160 v))) rest
      else .bad .versionNotFour
  | .fmtTos => withOperand 1 bs fun v rest => .ok (.layoutTos (TosWord.ofBits (BitVec.ofNat 8 v))) rest
  | .fmtIcmp => withOperand 4 bs fun v rest => .ok (.layoutIcmp (IcmpWord.ofBits (BitVec.ofNat 32 v))) rest
  | .fmtTcp => withOperand 20 bs fun v rest => .ok (.layoutTcp (TcpWord.ofBits (BitVec.ofNat 160 v))) rest
  | .fmtUdp => withOperand 8 bs fun v rest => .ok (.layoutUdp (UdpWord.ofBits (BitVec.ofNat 64 v))) rest
  | .phaseStep => withOperand 1 bs fun v rest =>
      if v < 16 then
        match selectStep (BitVec.ofNat 4 v) with
        | some i => .ok i rest
        | none => .bad (.noPhaseStep v)
      else .bad (.fieldTooWide v)
  | .rdU8 => .ok .rdU8 bs
  | .rdU16 => .ok .rdU16 bs
  | .rdU32 => .ok .rdU32 bs
  | .rdBits => withOperand 1 bs fun v rest => if 1 ≤ v ∧ v ≤ 32 then .ok (.rdBits v) rest else .bad (.bitCount v)
  | .rdBit => .ok .rdBit bs
  | .take => withOperand 4 bs fun v rest => .ok (.take v) rest
  | .skip => withOperand 4 bs fun v rest => .ok (.skip v) rest
  | .takeRest => .ok .takeRest bs
  | .decodeMac => .ok .decodeMac bs
  | .classifyEtype => withOperand 2 bs fun v rest => .ok (.classifyEtype (BitVec.ofNat 16 v)) rest
  | .decodeEther => .ok .decodeEther bs
  | .decodeTos => .ok .decodeTos bs
  | .decodeIpv4 => .ok .decodeIpv4 bs
  | .classifyProto => withOperand 1 bs fun v rest => .ok (.classifyProto (BitVec.ofNat 8 v)) rest
  | .decodeIcmp => .ok .decodeIcmp bs
  | .decodeTcp => .ok .decodeTcp bs
  | .decodeUdp => .ok .decodeUdp bs
  | .decodePacket => withBytes bs .decodePacket
  | .start => .ok .start bs
  | .loadFrame => withBytes bs .loadFrame
  | .read => withOperand 1 bs fun v rest =>
      match Reg.all[v]? with
      | some r => .ok (.read r) rest
      | none => .bad (.unknownRegister v)

/-- The decoder, total on any bytes: the operation at the front and the bytes after it, or a rejection by name. -/
def decode : List Byte → Decoded
  | [] => .bad .noBytes
  | b :: bs =>
    match OpTag.all[b.toNat]? with
    | none => .bad (.unknownTag b)
    | some t => decodeOperands t bs

/-! ### The encoder, written from the same tables of the spec -/

/-- The tag of an operation. -/
def Instr.tag : Instr → OpTag
  | .etypeIp => .selEtype
  | .etypeLength0 _ => .selEtype
  | .etypeLength1 _ => .selEtype
  | .etypeLength2 _ => .selEtype
  | .etypeLength3 _ => .selEtype
  | .etypeLength4 _ => .selEtype
  | .etypeLength5 _ => .selEtype
  | .etypeLength6 _ => .selEtype
  | .etypeLength7 => .selEtype
  | .etypeOther _ => .selEtype
  | .ipver4 => .selIpver
  | .ipverBad _ => .selIpver
  | .ihlSmall03 _ => .selIhl
  | .ihlSmall4 => .selIhl
  | .ihlOk _ => .selIhl
  | .protoIcmp => .selProto
  | .protoTcp => .selProto
  | .protoUdp => .selProto
  | .protoOther _ => .selProto
  | .tcpdoSmall03 _ => .selTcpdo
  | .tcpdoSmall4 => .selTcpdo
  | .tcpdoOk _ => .selTcpdo
  | .udplenSmall _ => .selUdplen
  | .udplenOk _ => .selUdplen
  | .layoutEth _ => .fmtEth
  | .layoutIpv4 _ => .fmtIpv4
  | .layoutTos _ => .fmtTos
  | .layoutIcmp _ => .fmtIcmp
  | .layoutTcp _ => .fmtTcp
  | .layoutUdp _ => .fmtUdp
  | .stepEth => .phaseStep
  | .stepIp => .phaseStep
  | .stepDispatch => .phaseStep
  | .stepIcmp => .phaseStep
  | .stepTcp => .phaseStep
  | .stepUdp => .phaseStep
  | .rdU8 => .rdU8
  | .rdU16 => .rdU16
  | .rdU32 => .rdU32
  | .rdBits _ => .rdBits
  | .rdBit => .rdBit
  | .take _ => .take
  | .skip _ => .skip
  | .takeRest => .takeRest
  | .decodeMac => .decodeMac
  | .classifyEtype _ => .classifyEtype
  | .decodeEther => .decodeEther
  | .decodeTos => .decodeTos
  | .decodeIpv4 => .decodeIpv4
  | .classifyProto _ => .classifyProto
  | .decodeIcmp => .decodeIcmp
  | .decodeTcp => .decodeTcp
  | .decodeUdp => .decodeUdp
  | .decodePacket _ => .decodePacket
  | .start => .start
  | .loadFrame _ => .loadFrame
  | .read _ => .read

/-- The operand bytes of an operation. -/
def Instr.operands : Instr → List Byte
  | .etypeIp => toBe 2 0x0800
  | .etypeLength0 v => toBe 2 v.toNat
  | .etypeLength1 v => toBe 2 v.toNat
  | .etypeLength2 v => toBe 2 v.toNat
  | .etypeLength3 v => toBe 2 v.toNat
  | .etypeLength4 v => toBe 2 v.toNat
  | .etypeLength5 v => toBe 2 v.toNat
  | .etypeLength6 v => toBe 2 v.toNat
  | .etypeLength7 => toBe 2 0x05DC
  | .etypeOther v => toBe 2 v.toNat
  | .ipver4 => toBe 1 4
  | .ipverBad v => toBe 1 v.toNat
  | .ihlSmall03 v => toBe 1 v.toNat
  | .ihlSmall4 => toBe 1 4
  | .ihlOk v => toBe 1 v.toNat
  | .protoIcmp => toBe 1 0x01
  | .protoTcp => toBe 1 0x06
  | .protoUdp => toBe 1 0x11
  | .protoOther n => toBe 1 n.toNat
  | .tcpdoSmall03 v => toBe 1 v.toNat
  | .tcpdoSmall4 => toBe 1 4
  | .tcpdoOk v => toBe 1 v.toNat
  | .udplenSmall v => toBe 2 v.toNat
  | .udplenOk v => toBe 2 v.toNat
  | .layoutEth w => toBe 14 w.toBits.toNat
  | .layoutIpv4 w => toBe 20 w.toBits.toNat
  | .layoutTos w => toBe 1 w.toBits.toNat
  | .layoutIcmp w => toBe 4 w.toBits.toNat
  | .layoutTcp w => toBe 20 w.toBits.toNat
  | .layoutUdp w => toBe 8 w.toBits.toNat
  | .stepEth => toBe 1 1
  | .stepIp => toBe 1 2
  | .stepDispatch => toBe 1 3
  | .stepIcmp => toBe 1 4
  | .stepTcp => toBe 1 5
  | .stepUdp => toBe 1 6
  | .rdU8 => []
  | .rdU16 => []
  | .rdU32 => []
  | .rdBits n => toBe 1 n
  | .rdBit => []
  | .take n => toBe 4 n
  | .skip n => toBe 4 n
  | .takeRest => []
  | .decodeMac => []
  | .classifyEtype v => toBe 2 v.toNat
  | .decodeEther => []
  | .decodeTos => []
  | .decodeIpv4 => []
  | .classifyProto n => toBe 1 n.toNat
  | .decodeIcmp => []
  | .decodeTcp => []
  | .decodeUdp => []
  | .decodePacket bs => toBe 4 bs.length ++ bs
  | .start => []
  | .loadFrame bs => toBe 4 bs.length ++ bs
  | .read r => toBe 1 r.number

/-- The bytes of an operation: its tag byte and its operand bytes. -/
def encode (i : Instr) : List Byte := i.tag.byte :: i.operands

/-! ### Words numbered as spec/opcode_table.json numbers them -/

/-- The bytes that stand for a table word of `nbits` bits. A table word does not say which selector its bits belong to (the word 4
is STEP_ICMP, IPVER.4, IHL.SMALL.4 and TCPDO.SMALL.4), so it is read by its length: up to 8 bits as a PHASE code where one
matches and else as a protocol number; up to 24 bits as a protocol number where it is one of the three that a PROTO row fixes in
16 bits, and else as a type/length value; 32, 64, 112 and 160 bits as the layout of that length, 160 bits being IPV4 where the
first nibble is 4 (DESIGN CHOICE, log entry 2). -/
def tableBytes (nbits w : Nat) : List Byte :=
  if nbits = 0 then []
  else if nbits ≤ 8 then
    if (selectStep (BitVec.ofNat 4 w)).isSome && decide (w < 16) then OpTag.phaseStep.byte :: toBe 1 w
    else OpTag.selProto.byte :: toBe 1 w
  else if nbits ≤ 16 then
    if w = 0x01 ∨ w = 0x06 ∨ w = 0x11 then OpTag.selProto.byte :: toBe 1 w
    else OpTag.selEtype.byte :: toBe 2 w
  else if nbits ≤ 24 then
    if w < 65536 then OpTag.selEtype.byte :: toBe 2 w else []
  else if nbits ≤ 32 then OpTag.fmtIcmp.byte :: toBe 4 w
  else if nbits ≤ 64 then OpTag.fmtUdp.byte :: toBe 8 w
  else if nbits ≤ 112 then OpTag.fmtEth.byte :: toBe 14 w
  else if nbits ≤ 160 then
    if w / 2 ^ 156 = 4 then OpTag.fmtIpv4.byte :: toBe 20 w else OpTag.fmtTcp.byte :: toBe 20 w
  else []

/-- The operation the decoder reads from a table word (log entry 2). -/
def decodeTableWord (nbits w : Nat) : Option Instr := (decode (tableBytes nbits w)).instr?

end Sys2Proof
end

