-- ==== Sys2Proof/WellFormed.lean ====
section
/-! DEFINITION. Which operations are well formed: the row of a selector is the first one that the field's value meets (30_encoding
R106), `RD_BITS(n)` has `1 <= n <= 32` (40_bitcursor R135), and the lengths an encoded operation carries fit their four bytes
(log entry 1). Every other operation is well formed at every value of its operands. -/

namespace Sys2Proof

/-- Lengths of byte runs and of frames fit in the four operand bytes of the model's encoding (log entry 1). -/
def lengthFits (n : Nat) : Bool := decide (n < 2 ^ 32)

/-- The check on an operation. -/
def Instr.wf : Instr → Bool
  | .etypeIp => true
  | .etypeLength0 v => firstHit etypeRows v == 1
  | .etypeLength1 v => firstHit etypeRows v == 2
  | .etypeLength2 v => firstHit etypeRows v == 3
  | .etypeLength3 v => firstHit etypeRows v == 4
  | .etypeLength4 v => firstHit etypeRows v == 5
  | .etypeLength5 v => firstHit etypeRows v == 6
  | .etypeLength6 v => firstHit etypeRows v == 7
  | .etypeLength7 => true
  | .etypeOther v => firstHit etypeRows v == 9
  | .ipver4 => true
  | .ipverBad v => firstHit ipverRows v == 1
  | .ihlSmall03 v => firstHit minWordsRows v == 0
  | .ihlSmall4 => true
  | .ihlOk v => firstHit minWordsRows v == 2
  | .protoIcmp => true
  | .protoTcp => true
  | .protoUdp => true
  | .protoOther n => firstHit protoRows n == 3
  | .tcpdoSmall03 v => firstHit minWordsRows v == 0
  | .tcpdoSmall4 => true
  | .tcpdoOk v => firstHit minWordsRows v == 2
  | .udplenSmall v => firstHit udplenRows v == 0
  | .udplenOk v => firstHit udplenRows v == 1
  | .layoutEth _ => true
  | .layoutIpv4 _ => true
  | .layoutTos _ => true
  | .layoutIcmp _ => true
  | .layoutTcp _ => true
  | .layoutUdp _ => true
  | .stepEth => true
  | .stepIp => true
  | .stepDispatch => true
  | .stepIcmp => true
  | .stepTcp => true
  | .stepUdp => true
  | .rdU8 => true
  | .rdU16 => true
  | .rdU32 => true
  | .rdBits n => decide (1 ≤ n ∧ n ≤ 32)
  | .rdBit => true
  | .take n => lengthFits n
  | .skip n => lengthFits n
  | .takeRest => true
  | .decodeMac => true
  | .classifyEtype _ => true
  | .decodeEther => true
  | .decodeTos => true
  | .decodeIpv4 => true
  | .classifyProto _ => true
  | .decodeIcmp => true
  | .decodeTcp => true
  | .decodeUdp => true
  | .decodePacket bs => lengthFits bs.length
  | .start => true
  | .loadFrame bs => lengthFits bs.length
  | .read _ => true

end Sys2Proof
end

