-- ==== Sys2Proof/Machine/State.lean ====
section
/-! DEFINITION. The state of one WBP instance as plain data (10_state R20): the frame buffer and its length, PHASE and CUR, the 45
result registers in their six groups, the two error registers; and four fields that are the model's own and not the spec's: the
reset input, the pending requests, the call bench and the value the last operation handed to its caller (log entries 3, 4, 5). -/

namespace Sys2Proof.Machine

/-- PHASE (R22): exactly the nine listed codes; codes 9 to 15 have no constructor (93 U8). -/
inductive Phase where
  | idle
  | eth
  | ip
  | dispatch
  | icmp
  | tcp
  | udp
  | done
  | error
  deriving DecidableEq, Repr

/-- The class of `ETH_TYPE_VAL` held in `ETH_TYPE_TAG` (R26): `IP`, `Length(n)`, `Other(n)`. -/
inductive EtherTag where
  | ip
  | length
  | other
  deriving DecidableEq, Repr

/-- The class of `IP_PROTO_VAL` held in `IP_PROTO_TAG` (R26). -/
inductive ProtoTag where
  | icmp
  | tcp
  | udp
  | other
  deriving DecidableEq, Repr

/-- The variant of `PacketContents` held in `CT_TAG` (R26). -/
inductive ContentsTag where
  | icmp
  | tcp
  | udp
  | other
  deriving DecidableEq, Repr

/-- `ERR_KIND` (60_exceptions R231): the failing layer, or none. -/
inductive ErrKind where
  | none
  | invalidEthernetFrame
  | invalidIpHeader
  | invalidIcmpPacket
  | invalidTcpHeader
  | invalidUdpPacket
  deriving DecidableEq, Repr

/-- `ERR_CAUSE` (R232): the internal cause, or none. -/
inductive ErrCause where
  | none
  | insufficientData
  | badVersion
  | headerLengthTooSmall
  | dataOffsetTooSmall
  | lengthTooSmall
  deriving DecidableEq, Repr

/-- The Ethernet group (R27): ETH_DST, ETH_SRC, ETH_TYPE_VAL, ETH_TYPE_TAG. -/
structure EthRegs where
  dst : Mac
  src : Mac
  typeVal : BitVec 16
  typeTag : EtherTag
  deriving DecidableEq, Repr

/-- The type-of-service registers of the IPv4 group (R28): IP_TOS_RAW, IP_TOS_PREC, IP_TOS_D, IP_TOS_T, IP_TOS_R. -/
structure TosRegs where
  raw : Byte
  prec : BitVec 3
  d : Bool
  t : Bool
  r : Bool
  deriving DecidableEq, Repr

/-- The IPv4 group (R28), 17 registers: IP_HLEN, the five type-of-service registers, IP_TOTLEN, IP_ID, IP_DF, IP_MF, IP_FRAGOFF,
IP_TTL, IP_PROTO_VAL, IP_PROTO_TAG, IP_CSUM, IP_SRC, IP_DST. -/
structure Ipv4Regs where
  hlen : BitVec 6
  tos : TosRegs
  totlen : BitVec 16
  ident : BitVec 16
  df : Bool
  mf : Bool
  fragoff : BitVec 13
  ttl : Byte
  protoVal : Byte
  protoTag : ProtoTag
  csum : BitVec 16
  src : BitVec 32
  dst : BitVec 32
  deriving DecidableEq, Repr

/-- The ICMP group (R29): ICMP_TYPE, ICMP_CODE, ICMP_CSUM. -/
structure IcmpRegs where
  type : Byte
  code : Byte
  csum : BitVec 16
  deriving DecidableEq, Repr

/-- The TCP group (R30), 14 registers. -/
structure TcpRegs where
  sport : BitVec 16
  dport : BitVec 16
  seq : BitVec 32
  acknum : BitVec 32
  doff : BitVec 6
  urg : Bool
  ack : Bool
  psh : Bool
  rst : Bool
  syn : Bool
  fin : Bool
  win : BitVec 16
  csum : BitVec 16
  urp : BitVec 16
  deriving DecidableEq, Repr

/-- The UDP group (R31): UDP_SPORT, UDP_DPORT, UDP_LEN, UDP_CSUM. -/
structure UdpRegs where
  sport : BitVec 16
  dport : BitVec 16
  len : BitVec 16
  csum : BitVec 16
  deriving DecidableEq, Repr

/-- A byte run `(off, n)` of the frame (40_bitcursor R137); as the payload descriptor it is PAY_OFF and PAY_LEN (R32), both
unbounded naturals as R9 allows. -/
structure Run where
  off : Nat
  len : Nat
  deriving DecidableEq, Repr

/-- The source's `EtherType` variant, read from the tag and the value beside it (R33). -/
inductive EtherType where
  | ip
  | length (n : BitVec 16)
  | other (n : BitVec 16)
  deriving DecidableEq, Repr

/-- The source's `Protocol` variant, read from the tag and the value beside it (R33). -/
inductive Protocol where
  | icmp
  | tcp
  | udp
  | other (n : Byte)
  deriving DecidableEq, Repr

/-- The source's `PacketContents` variant (R33): `data` and `payload` are the bytes of the payload window. -/
inductive PacketContents where
  | icmp (header : IcmpRegs) (data : List Byte)
  | tcp (header : TcpRegs) (data : List Byte)
  | udp (packet : UdpRegs) (payload : List Byte)
  | other
  deriving DecidableEq, Repr

/-- The source's `Packet` value (R33). -/
structure Packet where
  destination : Mac
  source : Mac
  etherType : EtherType
  ipHeader : Ipv4Regs
  protocol : Protocol
  contents : PacketContents
  deriving DecidableEq, Repr

/-- What an operation hands to its caller: the result of a primitive, decoder, classifier, selector or layout, the answer of `READ`
and of `DECODE_PACKET`. The spec gives results to the calling rule and has no register for them; this is the model's port for
them (log entry 3). -/
inductive Out where
  /-- no result -/
  | nothing
  /-- `fail c`: the primitive or decoder stopped with cause `c` (R14) -/
  | failed (c : ErrCause)
  /-- an unsigned value of `w` bits -/
  | word (w : Nat) (v : BitVec w)
  /-- an unbounded natural: CUR, FRAME_LEN, PAY_OFF, PAY_LEN (R9) -/
  | num (n : Nat)
  /-- a byte run `(off, n)` and the bytes it denotes (R137) -/
  | run (w : Run) (bytes : List Byte)
  /-- the payload bytes (R222) -/
  | bytes (bs : List Byte)
  /-- the class of a type/length value (R153) -/
  | etherTag (t : EtherTag)
  /-- the class of a protocol number (R172) -/
  | protoTag (t : ProtoTag)
  /-- the outcome of a PROTO row: the class and the phase that runs next (R100) -/
  | protoRow (t : ProtoTag) (next : Phase)
  /-- the outcome "raise K(c)" of a selector row (R99, R101): the pair that the consulting phase step raises (log entry 7) -/
  | errorRow (k : ErrKind) (c : ErrCause)
  /-- the outcome "continue" of IPVER.4 (R99) -/
  | proceed
  /-- the outcome "continue" with the header length in bytes (IHL.OK, TCPDO.OK, R101) -/
  | headerLen (n : BitVec 6)
  /-- the outcome "continue" with the payload length in bytes (UDPLEN.OK, R101) -/
  | payloadLen (n : BitVec 16)
  /-- the four values of the Ethernet group -/
  | ether (g : EthRegs)
  /-- the five type-of-service values -/
  | tos (g : TosRegs)
  /-- the 17 values of the IPv4 group -/
  | ipv4 (g : Ipv4Regs)
  /-- the three values of the ICMP group -/
  | icmp (g : IcmpRegs)
  /-- the 14 values of the TCP group -/
  | tcp (g : TcpRegs)
  /-- the four values of the UDP group and the payload run (R195) -/
  | udp (g : UdpRegs) (payload : Run)
  /-- the four values of a UDP layout and the payload length it announces (R96) -/
  | udpFixed (g : UdpRegs) (payloadLen : BitVec 16)
  /-- `Ok(Packet)` of DECODE_PACKET (R216) -/
  | packet (p : Packet)
  /-- `Err(kind, cause)` of DECODE_PACKET (R216) -/
  | error (k : ErrKind) (c : ErrCause)
  deriving DecidableEq, Repr

/-- Why the machine stops with a fault. Decode errors of the frame are no faults: they are the ERROR phase (R236). -/
inductive Fault where
  /-- Raised by `READ(PAYLOAD)` and by the final read of `DECODE_PACKET` when the payload window does not lie inside the frame:
  `MemRead(addr, n)` is "defined only when addr + n <= FRAME_LEN" (R14); that the machine stops there, with this fault, is the model's
choice (log entry 16). Safe: no reachable state has such a window (R32). -/
  | memReadOutsideFrame
  deriving DecidableEq, Repr

/-- Why the machine refuses an operation. Every constructor is safe: the model stops and claims nothing. -/
inductive Refusal where
  /-- Raised by an arm of `exec` for an operation that has no meaning yet. Safe. -/
  | notModelled (mnemonic : String)
  /-- Raised by `step` when the pending bytes are no operation. Safe. -/
  | undecodable (e : DecodeError)
  /-- Raised by the byte-level primitives and the decoders at a cursor with `CUR mod 8 != 0`: "a model refuses a call that breaks
  it and must not give it a value" (20_memory R67). Safe. -/
  | unalignedCursor
  /-- Raised by `RD_BITS(n)` with `n = 0` or `n > 32`: "not defined" (R135), treatment "refuse" (93 U5). Safe. -/
  | bitCountUndefined (n : Nat)
  /-- Raised by `TAKE_REST` with the cursor beyond the end of the frame, where `L - off` would be negative (R141, R16). Safe: no
  reachable state has such a cursor (R139). -/
  | cursorBeyondFrame
  /-- Raised by a phase step in a phase that does not select it: no such transition exists (R105, R214, 93 U8). Safe. -/
  | stepNotEnabled (step : Phase)
  /-- Raised by a selector row on a field value that selects another row (R106). Safe: decoding never gives one. -/
  | rowNotSelected
  /-- Raised by `step` when a pending request is a primitive, decoder, classifier, selector or layout: these are invoked by the decoder
  rules (R105) and are no command of the host (R220 to R222); nothing outside the frame steers a transaction (R3, R239). Safe. -/
  | notARequest
  /-- Raised by `step` when the call bench holds an operation and PHASE is not IDLE: an operation run by itself must not touch a
  transaction or its results (R3, R39; log entry 4). Safe. -/
  | callOutsideIdle
  /-- Raised by `READ` outside its admission: "a model refuses it" (R222, R223). Safe. -/
  | readNotAdmitted (r : Reg)
  /-- Raised by a read of a register that holds no value: "a model must refuse or fault that read" (R24). Safe. -/
  | holdsNoValue (r : Reg)
  deriving DecidableEq, Repr

/-- A memory: addresses strictly rising, no entry equal to what an unlisted address reads as. -/
abbrev Memory := List Host.Cell

/-- The state of one WBP instance (R20). An optional group that is `none` holds no value (R24): holding a value is the spec's own
state, and the groups are written whole (R39). -/
structure State where
  /-- FB (R21) -/
  fb : Memory
  /-- FRAME_LEN (R21, R35) -/
  frameLen : Nat
  /-- PHASE (R22) -/
  phase : Phase
  /-- CUR, the bit cursor (R23) -/
  cur : Nat
  /-- the Ethernet group (R27) -/
  eth : Option EthRegs
  /-- the IPv4 group (R28) -/
  ip : Option Ipv4Regs
  /-- CT_TAG (R32) -/
  ctTag : Option ContentsTag
  /-- the ICMP group (R29) -/
  icmp : Option IcmpRegs
  /-- the TCP group (R30) -/
  tcp : Option TcpRegs
  /-- the UDP group (R31) -/
  udp : Option UdpRegs
  /-- PAY_OFF and PAY_LEN (R32) -/
  pay : Option Run
  /-- ERR_KIND (R35, R231) -/
  errKind : ErrKind
  /-- ERR_CAUSE (R35, R232) -/
  errCause : ErrCause
  /-- the model's own: the reset input `rst` is asserted (R37, R260; log entry 5) -/
  rst : Bool
  /-- the model's own: the requests that wait at the command interface, encoded, oldest first (log entry 4) -/
  req : List Byte
  /-- the model's own: the call bench, the encoded operations to be run by themselves; no part of WBP fills it, it is empty in every
  state of WBP (log entry 4) -/
  call : List Byte
  /-- the model's own: what the last operation handed to its caller (log entry 3) -/
  out : Out
  deriving DecidableEq, Repr

/-- The machine right after reset (R38, R260): IDLE, CUR, FRAME_LEN and the error registers 0, no result register holds a value;
FB lists nothing (its contents are unspecified and unobservable, log entry 6); the model's own fields are empty. -/
def State.reset : State :=
  { fb := [], frameLen := 0, phase := .idle, cur := 0, eth := none, ip := none, ctTag := none, icmp := none, tcp := none,
    udp := none, pay := none, errKind := .none, errCause := .none, rst := false, req := [], call := [], out := .nothing }

end Sys2Proof.Machine
end

