-- ==== Sys2Proof/Machine/Flags.lean ====
section
/-! DEFINITION. Status flags, codes and classifications: everything WBP computes from a register alone. WBP has no condition codes
(10_state R34); its status flags are functions of PHASE, its tags are functions of the raw value beside them (R26). -/

namespace Sys2Proof.Machine

/-! ### PHASE (R22, R34) -/

/-- The code of a phase (R22). -/
def Phase.code : Phase → BitVec 4
  | .idle => 0
  | .eth => 1
  | .ip => 2
  | .dispatch => 3
  | .icmp => 4
  | .tcp => 5
  | .udp => 6
  | .done => 7
  | .error => 8

/-- `BUSY = (1 <= PHASE <= 6)` (R34). -/
def State.busy (s : State) : Bool := decide (1 ≤ s.phase.code.toNat ∧ s.phase.code.toNat ≤ 6)

/-- `DONE = (PHASE == 7)` (R34). -/
def State.isDone (s : State) : Bool := s.phase.code == 7

/-- `ERROR = (PHASE == 8)` (R34). -/
def State.isError (s : State) : Bool := s.phase.code == 8

/-- The status flag IDLE (R34). -/
def State.isIdle (s : State) : Bool := s.phase.code == 0

/-- A phase is quiescent when it is IDLE, DONE or ERROR (00_scope R18): the phases that admit `START` and `LOAD_FRAME`. -/
def Phase.quiescent : Phase → Bool
  | .idle => true
  | .eth => false
  | .ip => false
  | .dispatch => false
  | .icmp => false
  | .tcp => false
  | .udp => false
  | .done => true
  | .error => true

/-! ### Tags (R26) -/

/-- The code of ETH_TYPE_TAG (R26). -/
def EtherTag.code : EtherTag → BitVec 2
  | .ip => 0
  | .length => 1
  | .other => 2

/-- The code of IP_PROTO_TAG (R26). -/
def ProtoTag.code : ProtoTag → BitVec 2
  | .icmp => 0
  | .tcp => 1
  | .udp => 2
  | .other => 3

/-- The code of CT_TAG (R26). -/
def ContentsTag.code : ContentsTag → BitVec 2
  | .icmp => 0
  | .tcp => 1
  | .udp => 2
  | .other => 3

/-- `CLASSIFY_ETYPE(v)` (41_ethernet R153). -/
def etherTagOf (v : BitVec 16) : EtherTag :=
  if v.toNat ≤ 1500 then .length else if v = 0x0800 then .ip else .other

/-- `CLASSIFY_PROTO(n)` (42_ipv4 R172). -/
def protoTagOf (n : Byte) : ProtoTag :=
  if n = 0x01 then .icmp else if n = 0x06 then .tcp else if n = 0x11 then .udp else .other

/-- `x[CT_TAG] <- x[IP_PROTO_TAG]` (44_dispatch R207): four arms and no wildcard (R208). -/
def contentsTagOf : ProtoTag → ContentsTag
  | .icmp => .icmp
  | .tcp => .tcp
  | .udp => .udp
  | .other => .other

/-- The phase that the dispatcher chooses on the tag (R207, R208). -/
def phaseOf : ProtoTag → Phase
  | .icmp => .icmp
  | .tcp => .tcp
  | .udp => .udp
  | .other => .done

/-! ### Lengths (30_encoding R97) -/

/-- `zext_6(w) * 4`: a header length in words as bytes, 0 to 60, which cannot overflow six bits (R16, R97, R101). -/
def headerBytes (w : BitVec 4) : BitVec 6 := w.setWidth 6 * 4

/-- `(w - 5) * 4` option bytes, used only after `w >= 5` is known (R97). -/
def optionBytes (w : BitVec 4) : Nat := (w.toNat - 5) * 4

/-! ### Error codes (60_exceptions R231 to R233) -/

/-- The code of ERR_KIND (R231). -/
def ErrKind.code : ErrKind → BitVec 3
  | .none => 0
  | .invalidEthernetFrame => 1
  | .invalidIpHeader => 2
  | .invalidIcmpPacket => 3
  | .invalidTcpHeader => 4
  | .invalidUdpPacket => 5

/-- The code of ERR_CAUSE (R232). -/
def ErrCause.code : ErrCause → BitVec 3
  | .none => 0
  | .insufficientData => 1
  | .badVersion => 2
  | .headerLengthTooSmall => 3
  | .dataOffsetTooSmall => 4
  | .lengthTooSmall => 5

/-- The nine legal (kind, cause) pairs (R233). -/
def legalPairs : List (ErrKind × ErrCause) :=
  [(.invalidEthernetFrame, .insufficientData),
   (.invalidIpHeader, .insufficientData), (.invalidIpHeader, .badVersion), (.invalidIpHeader, .headerLengthTooSmall),
   (.invalidIcmpPacket, .insufficientData),
   (.invalidTcpHeader, .insufficientData), (.invalidTcpHeader, .dataOffsetTooSmall),
   (.invalidUdpPacket, .insufficientData), (.invalidUdpPacket, .lengthTooSmall)]

end Sys2Proof.Machine
end

