-- ==== Sys2Proof/Machine/Ops.lean ====
section
/-! DEFINITION. The named operations over the frame buffer and the registers: reading and writing a byte of memory, the updates of
State that the meanings use, raising a decode error (60_exceptions R236) and leaving DONE or ERROR (R240), and the three outcomes
of a cursor operation. -/

namespace Sys2Proof.Machine

/-! ### Memory -/

/-- What an address reads as that no entry lists. The spec leaves FB unspecified after reset and lets no operation see it (R38,
93 U6); the model reads it as 0 (DESIGN CHOICE, log entry 6). -/
def unlistedByte : Byte := 0

/-- The byte at an address. -/
def Memory.read (m : Memory) (a : Nat) : Byte :=
  match m with
  | [] => unlistedByte
  | c :: rest => if c.1 = a then c.2 else Memory.read rest a

/-- The entry for a byte at an address: none when it is what an unlisted address reads as. -/
def cellOf (a : Nat) (b : Byte) : Memory := if b = unlistedByte then [] else [(a, b)]

/-- `MemWrite(a, 1, b)`: the canonical form is kept. -/
def Memory.write (m : Memory) (a : Nat) (b : Byte) : Memory :=
  match m with
  | [] => cellOf a b
  | c :: rest =>
    if c.1 < a then c :: Memory.write rest a b
    else if c.1 = a then cellOf a b ++ rest
    else cellOf a b ++ c :: rest

/-- The writes of `LOAD_FRAME`: byte `i` of the sequence goes to address `a + i` (R221). -/
def Memory.writeAll (m : Memory) (a : Nat) (bs : List Byte) : Memory :=
  match bs with
  | [] => m
  | b :: rest => Memory.writeAll (Memory.write m a b) (a + 1) rest

/-- All entries lie above an address. -/
def Memory.above (m : Memory) (a : Nat) : Bool := m.all (fun c => decide (a < c.1))

/-- The canonical form: addresses strictly rising, no entry equal to what an unlisted address reads as. -/
def Memory.wf (m : Memory) : Bool :=
  match m with
  | [] => true
  | c :: rest => decide (c.2 ≠ unlistedByte) && Memory.above rest c.1 && Memory.wf rest

/-- The frame as the cursor primitives see it: the buffer and the number of valid bytes (R21). -/
structure Frame where
  fb : Memory
  len : Nat
  deriving DecidableEq, Repr

/-- The frame of a state. -/
def State.frame (s : State) : Frame := { fb := s.fb, len := s.frameLen }

/-! ### Outcomes of a cursor operation -/

/-- What a cursor primitive or a layer decoder answers: a value and the new cursor; `fail c` with the cursor where it stopped
(R131, R235); or a refusal where the spec gives no behaviour. -/
inductive Res (α : Type) where
  | ok (v : α) (cur : Nat)
  | fail (c : ErrCause) (cur : Nat)
  | stop (r : Refusal)
  deriving DecidableEq, Repr

/-- `v <- OP(args)?` and then the rest: if `OP` fails, the caller fails with the same cause at once (R14). -/
def Res.andThen {α β : Type} (x : Res α) (k : α → Nat → Res β) : Res β :=
  match x with
  | .ok v p => k v p
  | .fail c p => .fail c p
  | .stop r => .stop r

/-! ### Updates of State -/

/-- Set what the operation hands to its caller. -/
def State.setOut (o : Out) (s : State) : State := { s with out := o }

/-- `CUR <- p`. -/
def State.setCur (p : Nat) (s : State) : State := { s with cur := p }

/-- Set the pending requests. -/
def State.setReq (bs : List Byte) (s : State) : State := { s with req := bs }

/-- Set the call bench. -/
def State.setCall (bs : List Byte) (s : State) : State := { s with call := bs }

/-- Every result register holds no value (R24). -/
def State.clearResults (s : State) : State :=
  { s with eth := none, ip := none, ctTag := none, icmp := none, tcp := none, udp := none, pay := none }

/-- `raise K(c)` (R236), the whole of taking an error: the kind and the cause are recorded, every result register holds no value,
PHASE goes to ERROR, and CUR keeps the value the failing decoder left. -/
def State.raise (k : ErrKind) (c : ErrCause) (s : State) : State :=
  { s.clearResults with errKind := k, errCause := c, phase := .error, out := .nothing }

/-- The effect of an admitted `START` (R220), one of the two ways out of ERROR and DONE (R240). -/
def State.begin (s : State) : State :=
  { s.clearResults with errKind := .none, errCause := .none, cur := 0, phase := .eth, out := .nothing }

/-- The effect of an admitted `LOAD_FRAME(bytes)` (R221), the other way out of ERROR and DONE (R240). -/
def State.load (bs : List Byte) (s : State) : State :=
  { s.clearResults with
    fb := s.fb.writeAll 0 bs, frameLen := bs.length, errKind := .none, errCause := .none, cur := 0, phase := .idle,
    out := .nothing }

/-- `STEP_ETH` on success: the Ethernet group, `PHASE <- IP` (R209). -/
def State.putEth (g : EthRegs) (s : State) : State := { s with eth := some g, phase := .ip, out := .nothing }

/-- `STEP_IP` on success: the IPv4 group, `PHASE <- DISPATCH` (R210). -/
def State.putIp (g : Ipv4Regs) (s : State) : State := { s with ip := some g, phase := .dispatch, out := .nothing }

/-- `STEP_DISPATCH`: `CT_TAG` and the phase the tag chooses (R207). -/
def State.putContents (t : ProtoTag) (s : State) : State :=
  { s with ctTag := some (contentsTagOf t), phase := phaseOf t, out := .nothing }

/-- `STEP_ICMP` on success: the ICMP group, the payload descriptor, `PHASE <- DONE` (43_transport R186). -/
def State.putIcmp (x : IcmpRegs × Run) (s : State) : State :=
  { s with icmp := some x.1, pay := some x.2, phase := .done, out := .nothing }

/-- `STEP_TCP` on success: the TCP group, the payload descriptor, `PHASE <- DONE` (R191). -/
def State.putTcp (x : TcpRegs × Run) (s : State) : State :=
  { s with tcp := some x.1, pay := some x.2, phase := .done, out := .nothing }

/-- `STEP_UDP` on success: the UDP group, the payload descriptor, `PHASE <- DONE` (R196). -/
def State.putUdp (x : UdpRegs × Run) (s : State) : State :=
  { s with udp := some x.1, pay := some x.2, phase := .done, out := .nothing }

/-- The reset event (70_reset R260): everything the spec names is as after reset, except that FB, which the spec leaves unspecified,
keeps its bytes (log entry 6); the pending requests belong to the environment and stay; the reset input is taken back and the call
bench is empty (log entry 5). -/
def State.takeReset (s : State) : State := { State.reset with fb := s.fb, req := s.req }

/-! ### How an operation ends -/

/-- The three outcomes of a step of this machine. -/
abbrev Outcome := Host.Outcome State Fault Refusal

/-- An operation that only hands a value to its caller. -/
def answer (o : Out) (s : State) : Outcome := .next (s.setOut o)

/-- A cursor primitive or a decoder run by itself: it writes CUR and nothing else of the spec's state (R130), and hands its value,
or its failure, to its caller. -/
def cursorOp {α : Type} (toOut : α → Out) (r : Res α) (s : State) : Outcome :=
  match r with
  | .ok v p => .next ((s.setCur p).setOut (toOut v))
  | .fail c p => .next ((s.setCur p).setOut (.failed c))
  | .stop e => .refused e

/-- A phase step: enabled in its own phase only (R105, R214); on success it writes its group and the next phase, on failure it
raises its layer's kind with the decoder's cause, the cursor left where the decoder left it (R235, R236). -/
def layerStep {α : Type} (ph : Phase) (k : ErrKind) (r : Res α) (put : α → State → State) (s : State) : Outcome :=
  if s.phase = ph then
    match r with
    | .ok v p => .next (put v (s.setCur p))
    | .fail c p => .next ((s.setCur p).raise k c)
    | .stop e => .refused e
  else .refused (.stepNotEnabled ph)

/-- A selector row hands its outcome to the decoder that consults it and changes nothing else; it acts on values that select it
(R106). An outcome "raise K(c)" is raised by the phase step that consults the selector, and by nothing else (R230, R236). -/
def selectorRow (selected : Bool) (o : Out) (s : State) : Outcome :=
  if selected then answer o s else .refused .rowNotSelected

end Sys2Proof.Machine
end

