-- ==== Sys2Proof/Machine/Operands.lean ====
section
/-! DEFINITION. The operand forms of WBP: everything a decoder can take from the frame at the cursor (40_bitcursor). Each primitive
tests what it needs against what remains before it reads, is all or nothing, and moves the cursor by exactly what it consumed
(R131). The test `8 * L < p + n` is `rem < n` of the spec without a subtraction. -/

namespace Sys2Proof.Machine

/-- `F[a]` (R13, R21). -/
def Frame.byte (f : Frame) (a : Nat) : Byte := f.fb.read a

/-- `sbit(p) = F[p div 8][7 - (p mod 8)]`: bits are taken most significant first (R13, R63). -/
def Frame.sbit (f : Frame) (p : Nat) : Bool := (f.byte (p / 8)).getLsbD (7 - p % 8)

/-- `MemRead(a, n)`: the bytes `F[a] .. F[a+n-1]` (R14). -/
def Frame.bytes (f : Frame) (a : Nat) : Nat → List Byte
  | 0 => []
  | n + 1 => f.byte a :: f.bytes (a + 1) n

/-- The value of the `n` stream bits from `p`, first bit most significant (R63). -/
def Frame.bits (f : Frame) (p : Nat) : Nat → Nat
  | 0 => 0
  | n + 1 => 2 * f.bits p n + (f.sbit (p + n)).toNat

/-- A read of `n` stream bits: `InsufficientData` with the cursor unchanged if fewer remain, else the value and `CUR + n` (R131). -/
def bitRead {α : Type} (f : Frame) (p n : Nat) (v : α) : Res α :=
  if 8 * f.len < p + n then .fail .insufficientData p else .ok v (p + n)

/-- The precondition of the byte-level primitives and of the decoders: `CUR mod 8 == 0` (20_memory R65, R67; log entry 11). -/
def aligned {α : Type} (p : Nat) (x : Res α) : Res α := if p % 8 = 0 then x else .stop .unalignedCursor

/-- `RD_U8` (R132). -/
def rdU8 (f : Frame) (p : Nat) : Res (BitVec 8) := aligned p (bitRead f p 8 (f.byte (p / 8)))

/-- `RD_U16` (R133), big-endian. -/
def rdU16 (f : Frame) (p : Nat) : Res (BitVec 16) := aligned p (bitRead f p 16 (BitVec.ofNat 16 (be (f.bytes (p / 8) 2))))

/-- `RD_U32` (R134), big-endian. -/
def rdU32 (f : Frame) (p : Nat) : Res (BitVec 32) := aligned p (bitRead f p 32 (BitVec.ofNat 32 (be (f.bytes (p / 8) 4))))

/-- `RD_BITS(n)` (R135): defined for `1 <= n <= 32`, at any cursor. -/
def rdBits (f : Frame) (p n : Nat) : Res (BitVec n) :=
  if 1 ≤ n ∧ n ≤ 32 then bitRead f p n (BitVec.ofNat n (f.bits p n)) else .stop (.bitCountUndefined n)

/-- `RD_BIT` (R136): a single bit as a boolean. -/
def rdBit (f : Frame) (p : Nat) : Res Bool := bitRead f p 1 (f.sbit p)

/-- `TAKE(n)` (R137): the run of the next `n` bytes. -/
def take (f : Frame) (p n : Nat) : Res Run := aligned p (bitRead f p (8 * n) { off := p / 8, len := n })

/-- `SKIP(n)` (R138): `TAKE(n)` with the bytes discarded. -/
def skip (f : Frame) (p n : Nat) : Res Unit := aligned p (bitRead f p (8 * n) ())

/-- `TAKE_REST` (R141): every remaining byte; cannot fail. -/
def takeRest (f : Frame) (p : Nat) : Res Run :=
  aligned p (if p ≤ 8 * f.len then .ok { off := p / 8, len := f.len - p / 8 } (8 * f.len) else .stop .cursorBeyondFrame)

end Sys2Proof.Machine
end

