-- ==== Sys2Proof/Machine/Ethernet.lean ====
section
/-! DEFINITION. The Ethernet layer (41_ethernet): `DECODE_MAC`, `CLASSIFY_ETYPE`, `DECODE_ETHER`, the rows of the EtherType
selector (30_encoding R98), and layout ETH (R91). -/

namespace Sys2Proof.Machine

/-- `DECODE_MAC` (R151): the next six bytes as a u48, the first in bits 47:40. -/
def decodeMac (f : Frame) (p : Nat) : Res Mac :=
  (take f p 6).andThen fun w p => .ok (BitVec.ofNat 48 (be (f.bytes w.off w.len))) p

/-- `DECODE_ETHER` (R154). -/
def decodeEther (f : Frame) (p : Nat) : Res EthRegs :=
  (decodeMac f p).andThen fun dst p =>
  (decodeMac f p).andThen fun src p =>
  (rdU16 f p).andThen fun val p =>
  .ok { dst := dst, src := src, typeVal := val, typeTag := etherTagOf val } p

/-- The Ethernet group that layout ETH gives (R91, R154). -/
def ethRegsOf (w : EthWord) : EthRegs := { dst := w.dst, src := w.src, typeVal := w.typ, typeTag := etherTagOf w.typ }

/-- `DECODE_MAC` run by itself (R151). -/
def execDecodeMac (s : State) : Outcome := cursorOp (.word 48) (decodeMac s.frame s.cur) s

/-- `CLASSIFY_ETYPE(v)` (R153): a pure function that reads and writes no state. -/
def execClassifyEtype (v : BitVec 16) (s : State) : Outcome := answer (.etherTag (etherTagOf v)) s

/-- `DECODE_ETHER` run by itself (R154): it writes no register but CUR. -/
def execDecodeEther (s : State) : Outcome := cursorOp .ether (decodeEther s.frame s.cur) s

/-- ETYPE.IP: `IP` (R98). -/
def execEtypeIp (s : State) : Outcome := selectorRow true (.etherTag .ip) s

/-- ETYPE.LENGTH.0: `Length(v)`, v in 0..1023 (R98). -/
def execEtypeLength0 (v : BitVec 16) (s : State) : Outcome := selectorRow (firstHit etypeRows v == 1) (.etherTag .length) s

/-- ETYPE.LENGTH.1: `Length(v)`, v in 1024..1279 (R98). -/
def execEtypeLength1 (v : BitVec 16) (s : State) : Outcome := selectorRow (firstHit etypeRows v == 2) (.etherTag .length) s

/-- ETYPE.LENGTH.2: `Length(v)`, v in 1280..1407 (R98). -/
def execEtypeLength2 (v : BitVec 16) (s : State) : Outcome := selectorRow (firstHit etypeRows v == 3) (.etherTag .length) s

/-- ETYPE.LENGTH.3: `Length(v)`, v in 1408..1471 (R98). -/
def execEtypeLength3 (v : BitVec 16) (s : State) : Outcome := selectorRow (firstHit etypeRows v == 4) (.etherTag .length) s

/-- ETYPE.LENGTH.4: `Length(v)`, v in 1472..1487 (R98). -/
def execEtypeLength4 (v : BitVec 16) (s : State) : Outcome := selectorRow (firstHit etypeRows v == 5) (.etherTag .length) s

/-- ETYPE.LENGTH.5: `Length(v)`, v in 1488..1495 (R98). -/
def execEtypeLength5 (v : BitVec 16) (s : State) : Outcome := selectorRow (firstHit etypeRows v == 6) (.etherTag .length) s

/-- ETYPE.LENGTH.6: `Length(v)`, v in 1496..1499 (R98). -/
def execEtypeLength6 (v : BitVec 16) (s : State) : Outcome := selectorRow (firstHit etypeRows v == 7) (.etherTag .length) s

/-- ETYPE.LENGTH.7: `Length(1500)` (R98). -/
def execEtypeLength7 (s : State) : Outcome := selectorRow true (.etherTag .length) s

/-- ETYPE.OTHER: `Other(v)`, the default row (R98). -/
def execEtypeOther (v : BitVec 16) (s : State) : Outcome := selectorRow (firstHit etypeRows v == 9) (.etherTag .other) s

/-- Layout ETH (R91): the values that its fields go to (log entry 10). -/
def execLayoutEth (w : EthWord) (s : State) : Outcome := answer (.ether (ethRegsOf w)) s

end Sys2Proof.Machine
end

