-- ==== Sys2Proof/Config.lean ====
section
/-! DEFINITION. The two open parameters the model takes as arguments (spec 00_scope R9, 92 D3 and D19).
Both are constants without a body: nothing in Lean can evaluate them, so a claim holds for every value of them. -/

namespace Sys2Proof

/-- `FRAME_MAX - 1`: an open number, so that `FRAME_MAX >= 1` and nothing else is known of `FRAME_MAX` (R9; log entry 14). -/
opaque Config.frameMaxPred : Nat

/-- `FRAME_MAX`: the largest frame length in bytes that `LOAD_FRAME` accepts; it sizes the frame buffer (R9). -/
def Config.frameMax : Nat := Config.frameMaxPred + 1

/-- `ICMP_TYPE_NAME : u8 -> optional text` as text in a list of characters: host-side only, no state of WBP depends on it
(R9, R188). The model assumes no entry of it (93 U9). -/
opaque Config.icmpTypeName : Byte → Option (List Char)

end Sys2Proof
end

