-- ==== Sys2Proof/Machine/HostCmd.lean ====
section
/-! DEFINITION. The host commands (44_dispatch R220 to R223) and the host's reading of the result (10_state R33, 41_ethernet R152,
43_transport R188). -/

namespace Sys2Proof.Machine

/-- `START` (R220): admitted in IDLE, DONE and ERROR; in a busy phase it has no effect. -/
def execStart (s : State) : Outcome := if s.phase.quiescent then .next s.begin else .next s

/-- `LOAD_FRAME(bytes)` (R221): admitted in IDLE, DONE and ERROR for at most FRAME_MAX bytes; otherwise it has no effect at all. -/
def execLoadFrame (bs : List Byte) (s : State) : Outcome :=
  if s.phase.quiescent = true ∧ bs.length ≤ Config.frameMax then .next (s.load bs) else .next s

/-- A one-bit register as `READ` gives it. -/
def bitOut (b : Bool) : Out := .word 1 (BitVec.ofBool b)

/-- What a register reads as, or none where it holds no value (R24): its content at its own width. The error registers are 0
outside ERROR (R222, R35). -/
def State.peek (s : State) (r : Reg) : Option Out :=
  match r with
  | .phase => some (.word 4 s.phase.code)
  | .frameLen => some (.num s.frameLen)
  | .cur => some (.num s.cur)
  | .errKind => some (.word 3 (if s.phase = .error then s.errKind.code else 0))
  | .errCause => some (.word 3 (if s.phase = .error then s.errCause.code else 0))
  | .ethDst => s.eth.map fun g => .word 48 g.dst
  | .ethSrc => s.eth.map fun g => .word 48 g.src
  | .ethTypeVal => s.eth.map fun g => .word 16 g.typeVal
  | .ethTypeTag => s.eth.map fun g => .word 2 g.typeTag.code
  | .ipHlen => s.ip.map fun g => .word 6 g.hlen
  | .ipTosRaw => s.ip.map fun g => .word 8 g.tos.raw
  | .ipTosPrec => s.ip.map fun g => .word 3 g.tos.prec
  | .ipTosD => s.ip.map fun g => bitOut g.tos.d
  | .ipTosT => s.ip.map fun g => bitOut g.tos.t
  | .ipTosR => s.ip.map fun g => bitOut g.tos.r
  | .ipTotlen => s.ip.map fun g => .word 16 g.totlen
  | .ipId => s.ip.map fun g => .word 16 g.ident
  | .ipDf => s.ip.map fun g => bitOut g.df
  | .ipMf => s.ip.map fun g => bitOut g.mf
  | .ipFragoff => s.ip.map fun g => .word 13 g.fragoff
  | .ipTtl => s.ip.map fun g => .word 8 g.ttl
  | .ipProtoVal => s.ip.map fun g => .word 8 g.protoVal
  | .ipProtoTag => s.ip.map fun g => .word 2 g.protoTag.code
  | .ipCsum => s.ip.map fun g => .word 16 g.csum
  | .ipSrc => s.ip.map fun g => .word 32 g.src
  | .ipDst => s.ip.map fun g => .word 32 g.dst
  | .icmpType => s.icmp.map fun g => .word 8 g.type
  | .icmpCode => s.icmp.map fun g => .word 8 g.code
  | .icmpCsum => s.icmp.map fun g => .word 16 g.csum
  | .tcpSport => s.tcp.map fun g => .word 16 g.sport
  | .tcpDport => s.tcp.map fun g => .word 16 g.dport
  | .tcpSeq => s.tcp.map fun g => .word 32 g.seq
  | .tcpAcknum => s.tcp.map fun g => .word 32 g.acknum
  | .tcpDoff => s.tcp.map fun g => .word 6 g.doff
  | .tcpUrg => s.tcp.map fun g => bitOut g.urg
  | .tcpAck => s.tcp.map fun g => bitOut g.ack
  | .tcpPsh => s.tcp.map fun g => bitOut g.psh
  | .tcpRst => s.tcp.map fun g => bitOut g.rst
  | .tcpSyn => s.tcp.map fun g => bitOut g.syn
  | .tcpFin => s.tcp.map fun g => bitOut g.fin
  | .tcpWin => s.tcp.map fun g => .word 16 g.win
  | .tcpCsum => s.tcp.map fun g => .word 16 g.csum
  | .tcpUrp => s.tcp.map fun g => .word 16 g.urp
  | .udpSport => s.udp.map fun g => .word 16 g.sport
  | .udpDport => s.udp.map fun g => .word 16 g.dport
  | .udpLen => s.udp.map fun g => .word 16 g.len
  | .udpCsum => s.udp.map fun g => .word 16 g.csum
  | .ctTag => s.ctTag.map fun t => .word 2 t.code
  | .payOff => s.pay.map fun w => .num w.off
  | .payLen => s.pay.map fun w => .num w.len
  | .payload => s.pay.map fun w => .bytes (s.frame.bytes w.off w.len)

/-- The admission of `READ(reg)` by phase (R222, R223); that the register holds a value is tested by `peek`. -/
def State.readAdmitted (s : State) (r : Reg) : Bool :=
  match r with
  | .phase => true
  | .frameLen => true
  | .cur => s.phase.quiescent
  | .errKind => s.phase.quiescent
  | .errCause => s.phase.quiescent
  | .payload => s.isDone && decide (s.ctTag ≠ some .other)
  | _ => s.isDone

/-- The payload window lies inside the frame, so that `MemRead` is defined on it (R14, R32). -/
def State.payInFrame (s : State) : Bool :=
  match s.pay with
  | none => true
  | some w => decide (w.off + w.len ≤ s.frameLen)

/-- `READ(reg)` (R222): the register's value, without changing any state. -/
def execRead (r : Reg) (s : State) : Outcome :=
  if s.readAdmitted r then
    match s.peek r with
    | none => .refused (.holdsNoValue r)
    | some o => if r = .payload ∧ s.payInFrame = false then .fault .memReadOutsideFrame else answer o s
  else .refused (.readNotAdmitted r)

/-! ### The result file as the source's `Packet` (R33) -/

/-- `Packet.frame.ether_type` (R33). -/
def EthRegs.etherType (g : EthRegs) : EtherType :=
  match g.typeTag with
  | .ip => .ip
  | .length => .length g.typeVal
  | .other => .other g.typeVal

/-- `Packet.ip_header.protocol` (R33). -/
def Ipv4Regs.protocol (g : Ipv4Regs) : Protocol :=
  match g.protoTag with
  | .icmp => .icmp
  | .tcp => .tcp
  | .udp => .udp
  | .other => .other g.protoVal

/-- PAYLOAD, the bytes of the payload window (R32). -/
def State.payload (s : State) : Option (List Byte) := s.pay.map fun w => s.frame.bytes w.off w.len

/-- `Packet.contents` (R33). -/
def State.contents (s : State) : Option PacketContents :=
  match s.ctTag with
  | none => none
  | some .icmp => s.icmp.bind fun h => s.payload.map fun d => .icmp h d
  | some .tcp => s.tcp.bind fun h => s.payload.map fun d => .tcp h d
  | some .udp => s.udp.bind fun h => s.payload.map fun d => .udp h d
  | some .other => some .other

/-- The result file read as a `Packet` (R33); none where a register it needs holds no value. -/
def State.packet (s : State) : Option Packet :=
  s.eth.bind fun e => s.ip.bind fun h => s.contents.map fun c =>
    { destination := e.dst, source := e.src, etherType := e.etherType, ipHeader := h, protocol := h.protocol, contents := c }

/-- The final read of `DECODE_PACKET` (R216): `Err(kind, cause)` in ERROR, `Ok(Packet)` in DONE. -/
def readOutcome (s : State) : Outcome :=
  if s.phase = .error then answer (.error s.errKind s.errCause) s
  else if s.phase = .done then
    match s.packet with
    | none => .refused (.holdsNoValue .ctTag)
    | some p => if s.payInFrame then answer (.packet p) s else .fault .memReadOutsideFrame
  else .refused (.readNotAdmitted .ctTag)

/-! ### Host-side functions of a result -/

/-- A hexadecimal digit, lower case. -/
def hexDigit (n : BitVec 4) : Char := "0123456789abcdef".toList.getD n.toNat '0'

/-- Two digits for a byte (92 D21; the padding is PRESUMED by the spec itself, log entry 9). -/
def hexByte (b : Byte) : List Char := [hexDigit (b.extractLsb' 4 4), hexDigit (b.extractLsb' 0 4)]

/-- The text form of a MacAddress, "colon-separated lowercase hex" (R152). -/
def macText (m : Mac) : List Char :=
  hexByte (m.extractLsb' 40 8) ++ ':' :: hexByte (m.extractLsb' 32 8) ++ ':' :: hexByte (m.extractLsb' 24 8) ++
    ':' :: hexByte (m.extractLsb' 16 8) ++ ':' :: hexByte (m.extractLsb' 8 8) ++ ':' :: hexByte (m.extractLsb' 0 8)

/-- The optional name of an ICMP packet-type: a lookup in the open parameter, on which no state depends (R188). -/
def IcmpRegs.typeName (g : IcmpRegs) : Option (List Char) := Config.icmpTypeName g.type

end Sys2Proof.Machine
end

