-- ==== Sys2Proof/Machine/Ipv4.lean ====
section
/-! DEFINITION. The IPv4 layer (42_ipv4): `DECODE_TOS`, `DECODE_IPV4`, `CLASSIFY_PROTO`, the rows of the version, IHL and protocol
selectors (30_encoding R99 to R101), and layouts TOS and IPV4 (R92, R93). -/

namespace Sys2Proof.Machine

/-- `DECODE_TOS` (R167): the five bit reads, and the same byte kept whole. -/
def decodeTos (f : Frame) (p0 : Nat) : Res TosRegs :=
  aligned p0 <|
  (rdBits f p0 3).andThen fun prec p =>
  (rdBit f p).andThen fun d p =>
  (rdBit f p).andThen fun t p =>
  (rdBit f p).andThen fun r p =>
  (rdBits f p 2).andThen fun _ p =>
  .ok { raw := f.byte (p0 / 8), prec := prec, d := d, t := t, r := r } p

/-- `DECODE_IPV4` (R170): each field is judged as soon as it has been read, front to back (R171). -/
def decodeIpv4 (f : Frame) (p0 : Nat) : Res Ipv4Regs :=
  aligned p0 <|
  (rdBits f p0 4).andThen fun ver p =>
  if ver ≠ 4 then .fail .badVersion p else
  (rdBits f p 4).andThen fun ihl p =>
  if ihl.toNat < 5 then .fail .headerLengthTooSmall p else
  (decodeTos f p).andThen fun tos p =>
  (rdU16 f p).andThen fun totlen p =>
  (rdU16 f p).andThen fun ident p =>
  (rdBit f p).andThen fun _ p =>
  (rdBit f p).andThen fun df p =>
  (rdBit f p).andThen fun mf p =>
  (rdBits f p 13).andThen fun fragoff p =>
  (rdU8 f p).andThen fun ttl p =>
  (rdU8 f p).andThen fun pval p =>
  (rdU16 f p).andThen fun csum p =>
  (rdU32 f p).andThen fun src p =>
  (rdU32 f p).andThen fun dst p =>
  (skip f p (optionBytes ihl)).andThen fun _ p =>
  .ok { hlen := headerBytes ihl, tos := tos, totlen := totlen, ident := ident, df := df, mf := mf, fragoff := fragoff,
        ttl := ttl, protoVal := pval, protoTag := protoTagOf pval, csum := csum, src := src, dst := dst } p

/-- The type-of-service values that layout TOS gives (R93): the five slices and the whole byte. -/
def tosRegsOf (w : TosWord) : TosRegs := { raw := w.toBits, prec := w.prec, d := w.d, t := w.t, r := w.r }

/-- The IPv4 group that layout IPV4 gives (R92); the reserved flag bit goes nowhere (R102). -/
def ipv4RegsOf (w : Ipv4Word) : Ipv4Regs :=
  { hlen := headerBytes w.ihl, tos := tosRegsOf w.tos, totlen := w.totlen, ident := w.ident, df := w.df, mf := w.mf,
    fragoff := w.fragoff, ttl := w.ttl, protoVal := w.proto, protoTag := protoTagOf w.proto, csum := w.csum, src := w.src,
    dst := w.dst }

/-- `DECODE_TOS` run by itself (R167). -/
def execDecodeTos (s : State) : Outcome := cursorOp .tos (decodeTos s.frame s.cur) s

/-- `DECODE_IPV4` run by itself (R170): it writes no register but CUR. -/
def execDecodeIpv4 (s : State) : Outcome := cursorOp .ipv4 (decodeIpv4 s.frame s.cur) s

/-- `CLASSIFY_PROTO(n)` (R172): a pure function. -/
def execClassifyProto (n : Byte) (s : State) : Outcome := answer (.protoTag (protoTagOf n)) s

/-- IPVER.4: continue `DECODE_IPV4` (R99). -/
def execIpver4 (s : State) : Outcome := selectorRow true .proceed s

/-- IPVER.BAD: the outcome "raise InvalidIpHeader(BadVersion)" (R99), which `STEP_IP` raises (R230). -/
def execIpverBad (v : BitVec 4) (s : State) : Outcome :=
  selectorRow (firstHit ipverRows v == 1) (.errorRow .invalidIpHeader .badVersion) s

/-- IHL.SMALL.0_3: the outcome "raise InvalidIpHeader(HeaderLengthTooSmall)" (R101), which `STEP_IP` raises (R230). -/
def execIhlSmall03 (v : BitVec 4) (s : State) : Outcome :=
  selectorRow (firstHit minWordsRows v == 0) (.errorRow .invalidIpHeader .headerLengthTooSmall) s

/-- IHL.SMALL.4: the outcome "raise InvalidIpHeader(HeaderLengthTooSmall)" (R101), which `STEP_IP` raises (R230). -/
def execIhlSmall4 (s : State) : Outcome := selectorRow true (.errorRow .invalidIpHeader .headerLengthTooSmall) s

/-- IHL.OK: continue, the header length is `ihl * 4` (R101, R97). -/
def execIhlOk (v : BitVec 4) (s : State) : Outcome :=
  selectorRow (firstHit minWordsRows v == 2) (.headerLen (headerBytes v)) s

/-- PROTO.ICMP: tag 0, next phase ICMP (R100). -/
def execProtoIcmp (s : State) : Outcome := selectorRow true (.protoRow .icmp (phaseOf .icmp)) s

/-- PROTO.TCP: tag 1, next phase TCP (R100). -/
def execProtoTcp (s : State) : Outcome := selectorRow true (.protoRow .tcp (phaseOf .tcp)) s

/-- PROTO.UDP: tag 2, next phase UDP (R100). -/
def execProtoUdp (s : State) : Outcome := selectorRow true (.protoRow .udp (phaseOf .udp)) s

/-- PROTO.OTHER: tag 3, next phase DONE; the default row (R100). -/
def execProtoOther (n : Byte) (s : State) : Outcome :=
  selectorRow (firstHit protoRows n == 3) (.protoRow .other (phaseOf .other)) s

/-- Layout IPV4 (R92): the values that its fields go to; an IHL below 5 is an error (R101). -/
def execLayoutIpv4 (w : Ipv4Word) (s : State) : Outcome :=
  if w.ihl.toNat < 5 then answer (.failed .headerLengthTooSmall) s else answer (.ipv4 (ipv4RegsOf w)) s

/-- Layout TOS (R93): the values that its fields go to (log entry 10). -/
def execLayoutTos (w : TosWord) (s : State) : Outcome := answer (.tos (tosRegsOf w)) s

end Sys2Proof.Machine
end

