-- ==== Sys2Proof/Machine/Transport.lean ====
section
/-! DEFINITION. The transport layer (43_transport): `DECODE_ICMP`, `DECODE_TCP`, `DECODE_UDP`, the three phase steps that run them
and capture the data, the rows of the TCP data-offset and UDP length selectors (30_encoding R101), and layouts ICMP, TCP and UDP
(R94 to R96). No transport decoder looks at an IPv4 field (R198). -/

namespace Sys2Proof.Machine

/-- `DECODE_ICMP` (R185). -/
def decodeIcmp (f : Frame) (p : Nat) : Res IcmpRegs :=
  (rdU8 f p).andThen fun type p =>
  (rdU8 f p).andThen fun code p =>
  (rdU16 f p).andThen fun csum p =>
  .ok { type := type, code := code, csum := csum } p

/-- `DECODE_TCP` (R190): the data offset is judged as soon as it has been read (R192). -/
def decodeTcp (f : Frame) (p : Nat) : Res TcpRegs :=
  (rdU16 f p).andThen fun sport p =>
  (rdU16 f p).andThen fun dport p =>
  (rdU32 f p).andThen fun seq p =>
  (rdU32 f p).andThen fun acknum p =>
  (rdBits f p 4).andThen fun off p =>
  if off.toNat < 5 then .fail .dataOffsetTooSmall p else
  (rdBits f p 3).andThen fun _ p =>
  (rdBits f p 3).andThen fun _ p =>
  (rdBit f p).andThen fun urg p =>
  (rdBit f p).andThen fun ack p =>
  (rdBit f p).andThen fun psh p =>
  (rdBit f p).andThen fun rst p =>
  (rdBit f p).andThen fun syn p =>
  (rdBit f p).andThen fun fin p =>
  (rdU16 f p).andThen fun win p =>
  (rdU16 f p).andThen fun csum p =>
  (rdU16 f p).andThen fun urp p =>
  (skip f p (optionBytes off)).andThen fun _ p =>
  .ok { sport := sport, dport := dport, seq := seq, acknum := acknum, doff := headerBytes off, urg := urg, ack := ack,
        psh := psh, rst := rst, syn := syn, fin := fin, win := win, csum := csum, urp := urp } p

/-- `DECODE_UDP` (R195): the length is judged as soon as it has been read (R197). -/
def decodeUdp (f : Frame) (p : Nat) : Res (UdpRegs × Run) :=
  (rdU16 f p).andThen fun sport p =>
  (rdU16 f p).andThen fun dport p =>
  (rdU16 f p).andThen fun len p =>
  if len.toNat < 8 then .fail .lengthTooSmall p else
  (rdU16 f p).andThen fun csum p =>
  (take f p (len.toNat - 8)).andThen fun w p =>
  .ok ({ sport := sport, dport := dport, len := len, csum := csum }, w) p

/-- A header decoder and then `TAKE_REST`: every byte after the header is the data (R186, R191). -/
def withRest {α : Type} (f : Frame) (x : Res α) : Res (α × Run) :=
  x.andThen fun g p => (takeRest f p).andThen fun w p => .ok (g, w) p

/-- The TCP group that layout TCP gives (R95); the reserved bits go nowhere (R102). -/
def tcpRegsOf (w : TcpWord) : TcpRegs :=
  { sport := w.sport, dport := w.dport, seq := w.seq, acknum := w.acknum, doff := headerBytes w.doff, urg := w.urg, ack := w.ack,
    psh := w.psh, rst := w.rst, syn := w.syn, fin := w.fin, win := w.win, csum := w.csum, urp := w.urp }

/-- `DECODE_ICMP` run by itself (R185). -/
def execDecodeIcmp (s : State) : Outcome := cursorOp .icmp (decodeIcmp s.frame s.cur) s

/-- `DECODE_TCP` run by itself (R190). -/
def execDecodeTcp (s : State) : Outcome := cursorOp .tcp (decodeTcp s.frame s.cur) s

/-- `DECODE_UDP` run by itself (R195). -/
def execDecodeUdp (s : State) : Outcome := cursorOp (fun x => .udp x.1 x.2) (decodeUdp s.frame s.cur) s

/-- `STEP_ICMP` (R186). -/
def execStepIcmp (s : State) : Outcome :=
  layerStep .icmp .invalidIcmpPacket (withRest s.frame (decodeIcmp s.frame s.cur)) State.putIcmp s

/-- `STEP_TCP` (R191). -/
def execStepTcp (s : State) : Outcome :=
  layerStep .tcp .invalidTcpHeader (withRest s.frame (decodeTcp s.frame s.cur)) State.putTcp s

/-- `STEP_UDP` (R196): bytes after the declared payload are never read. -/
def execStepUdp (s : State) : Outcome := layerStep .udp .invalidUdpPacket (decodeUdp s.frame s.cur) State.putUdp s

/-- TCPDO.SMALL.0_3: the outcome "raise InvalidTcpHeader(DataOffsetTooSmall)" (R101), which `STEP_TCP` raises (R230). -/
def execTcpdoSmall03 (v : BitVec 4) (s : State) : Outcome :=
  selectorRow (firstHit minWordsRows v == 0) (.errorRow .invalidTcpHeader .dataOffsetTooSmall) s

/-- TCPDO.SMALL.4: the outcome "raise InvalidTcpHeader(DataOffsetTooSmall)" (R101), which `STEP_TCP` raises (R230). -/
def execTcpdoSmall4 (s : State) : Outcome := selectorRow true (.errorRow .invalidTcpHeader .dataOffsetTooSmall) s

/-- TCPDO.OK: continue, the header length is `do * 4` (R101, R97). -/
def execTcpdoOk (v : BitVec 4) (s : State) : Outcome :=
  selectorRow (firstHit minWordsRows v == 2) (.headerLen (headerBytes v)) s

/-- UDPLEN.SMALL: the outcome "raise InvalidUdpPacket(LengthTooSmall)" (R101), which `STEP_UDP` raises (R230). -/
def execUdplenSmall (v : BitVec 16) (s : State) : Outcome :=
  selectorRow (firstHit udplenRows v == 0) (.errorRow .invalidUdpPacket .lengthTooSmall) s

/-- UDPLEN.OK: continue, the payload length is `len - 8` (R101, R97). -/
def execUdplenOk (v : BitVec 16) (s : State) : Outcome :=
  selectorRow (firstHit udplenRows v == 1) (.payloadLen (v - 8)) s

/-- Layout ICMP (R94): the values that its fields go to (log entry 10). -/
def execLayoutIcmp (w : IcmpWord) (s : State) : Outcome :=
  answer (.icmp { type := w.type, code := w.code, csum := w.csum }) s

/-- Layout TCP (R95): the values that its fields go to; a data offset below 5 is an error (R101). -/
def execLayoutTcp (w : TcpWord) (s : State) : Outcome :=
  if w.doff.toNat < 5 then answer (.failed .dataOffsetTooSmall) s else answer (.tcp (tcpRegsOf w)) s

/-- Layout UDP (R96): the values that its fields go to and the payload length; a length below 8 is an error (R101). -/
def execLayoutUdp (w : UdpWord) (s : State) : Outcome :=
  if w.len.toNat < 8 then answer (.failed .lengthTooSmall) s
  else answer (.udpFixed { sport := w.sport, dport := w.dport, len := w.len, csum := w.csum } (w.len - 8)) s

end Sys2Proof.Machine
end

