-- ==== Sys2Proof/Machine/Assembler.lean ====
section
/-! DEFINITION. The Protocol Dispatcher and the Packet Assembler (44_dispatch): `STEP_ETH`, `STEP_IP`, `STEP_DISPATCH`, the choice of
the one enabled phase step, and the pseudo-operation `DECODE_PACKET`. -/

namespace Sys2Proof.Machine

/-- `STEP_ETH` (R209): it goes to IP whatever the class of the type/length value is (R215). -/
def execStepEth (s : State) : Outcome := layerStep .eth .invalidEthernetFrame (decodeEther s.frame s.cur) State.putEth s

/-- `STEP_IP` (R210). -/
def execStepIp (s : State) : Outcome := layerStep .ip .invalidIpHeader (decodeIpv4 s.frame s.cur) State.putIp s

/-- `STEP_DISPATCH` (R207): it reads IP_PROTO_TAG only; a state in which that register holds no value is refused (R24). -/
def execStepDispatch (s : State) : Outcome :=
  if s.phase = .dispatch then
    match s.ip with
    | none => .refused (.holdsNoValue .ipProtoTag)
    | some g => .next (s.putContents g.protoTag)
  else .refused (.stepNotEnabled .dispatch)

/-- The parser's move: the step that PHASE selects; in a quiescent phase no step is enabled and nothing moves (R105, R214). -/
def parserStep (s : State) : Outcome :=
  match s.phase with
  | .idle => .next s
  | .eth => execStepEth s
  | .ip => execStepIp s
  | .dispatch => execStepDispatch s
  | .icmp => execStepIcmp s
  | .tcp => execStepTcp s
  | .udp => execStepUdp s
  | .done => .next s
  | .error => .next s

/-- At most `k` moves of the parser. -/
def runParser : Nat → State → Outcome
  | 0, s => .next s
  | k + 1, s =>
    match parserStep s with
    | .next t => runParser k t
    | .fault r => .fault r
    | .refused r => .refused r

/-- Go on from a next state. -/
def thenDo (x : Outcome) (k : State → Outcome) : Outcome :=
  match x with
  | .next t => k t
  | .fault r => .fault r
  | .refused r => .refused r

/-- `DECODE_PACKET(bytes)` (R216, R107): `LOAD_FRAME(bytes); START;` phase steps until PHASE is quiescent, at most four (R214,
R225), and the read of the outcome (log entry 15). -/
def execDecodePacket (bs : List Byte) (s : State) : Outcome :=
  thenDo (execLoadFrame bs s) fun s => thenDo (execStart s) fun s => thenDo (runParser 4 s) readOutcome

end Sys2Proof.Machine
end

