-- ==== Sys2Proof/Machine/Cursor.lean ====
section
/-! DEFINITION. The meanings of the eight cursor primitives run by themselves (40_bitcursor R130 to R141): each reads CUR, FRAME_LEN
and FB and writes CUR only; its value, or `InsufficientData`, goes to the caller. -/

namespace Sys2Proof.Machine

/-- `RD_U8` (R132). -/
def execRdU8 (s : State) : Outcome := cursorOp (.word 8) (rdU8 s.frame s.cur) s

/-- `RD_U16` (R133). -/
def execRdU16 (s : State) : Outcome := cursorOp (.word 16) (rdU16 s.frame s.cur) s

/-- `RD_U32` (R134). -/
def execRdU32 (s : State) : Outcome := cursorOp (.word 32) (rdU32 s.frame s.cur) s

/-- `RD_BITS(n)` (R135). -/
def execRdBits (n : Nat) (s : State) : Outcome := cursorOp (.word n) (rdBits s.frame s.cur n) s

/-- `RD_BIT` (R136): 1 is true, 0 is false. -/
def execRdBit (s : State) : Outcome := cursorOp (fun b => .word 1 (BitVec.ofBool b)) (rdBit s.frame s.cur) s

/-- The result of a byte run: `(off, n)` and the bytes it denotes (R137). -/
def runOut (f : Frame) (w : Run) : Out := .run w (f.bytes w.off w.len)

/-- `TAKE(n)` (R137). -/
def execTake (n : Nat) (s : State) : Outcome := cursorOp (runOut s.frame) (take s.frame s.cur n) s

/-- `SKIP(n)` (R138): no result. -/
def execSkip (n : Nat) (s : State) : Outcome := cursorOp (fun _ => .nothing) (skip s.frame s.cur n) s

/-- `TAKE_REST` (R141). -/
def execTakeRest (s : State) : Outcome := cursorOp (runOut s.frame) (takeRest s.frame s.cur) s

end Sys2Proof.Machine
end

