-- ==== Sys2Proof/Machine/Dispatch.lean ====
section
/-! DEFINITION. One arm for every operation, in the order of spec/opcode_table.json. -/

namespace Sys2Proof.Machine

def exec (i : Instr) (s : State) : Host.Outcome State Fault Refusal :=
  match i with
  | .etypeIp => Sys2Proof.Machine.execEtypeIp s
  | .etypeLength0 v => Sys2Proof.Machine.execEtypeLength0 v s
  | .etypeLength1 v => Sys2Proof.Machine.execEtypeLength1 v s
  | .etypeLength2 v => Sys2Proof.Machine.execEtypeLength2 v s
  | .etypeLength3 v => Sys2Proof.Machine.execEtypeLength3 v s
  | .etypeLength4 v => Sys2Proof.Machine.execEtypeLength4 v s
  | .etypeLength5 v => Sys2Proof.Machine.execEtypeLength5 v s
  | .etypeLength6 v => Sys2Proof.Machine.execEtypeLength6 v s
  | .etypeLength7 => Sys2Proof.Machine.execEtypeLength7 s
  | .etypeOther v => Sys2Proof.Machine.execEtypeOther v s
  | .ipver4 => Sys2Proof.Machine.execIpver4 s
  | .ipverBad v => Sys2Proof.Machine.execIpverBad v s
  | .ihlSmall03 v => Sys2Proof.Machine.execIhlSmall03 v s
  | .ihlSmall4 => Sys2Proof.Machine.execIhlSmall4 s
  | .ihlOk v => Sys2Proof.Machine.execIhlOk v s
  | .protoIcmp => Sys2Proof.Machine.execProtoIcmp s
  | .protoTcp => Sys2Proof.Machine.execProtoTcp s
  | .protoUdp => Sys2Proof.Machine.execProtoUdp s
  | .protoOther n => Sys2Proof.Machine.execProtoOther n s
  | .tcpdoSmall03 v => Sys2Proof.Machine.execTcpdoSmall03 v s
  | .tcpdoSmall4 => Sys2Proof.Machine.execTcpdoSmall4 s
  | .tcpdoOk v => Sys2Proof.Machine.execTcpdoOk v s
  | .udplenSmall v => Sys2Proof.Machine.execUdplenSmall v s
  | .udplenOk v => Sys2Proof.Machine.execUdplenOk v s
  | .layoutEth w => Sys2Proof.Machine.execLayoutEth w s
  | .layoutIpv4 w => Sys2Proof.Machine.execLayoutIpv4 w s
  | .layoutTos w => Sys2Proof.Machine.execLayoutTos w s
  | .layoutIcmp w => Sys2Proof.Machine.execLayoutIcmp w s
  | .layoutTcp w => Sys2Proof.Machine.execLayoutTcp w s
  | .layoutUdp w => Sys2Proof.Machine.execLayoutUdp w s
  | .stepEth => Sys2Proof.Machine.execStepEth s
  | .stepIp => Sys2Proof.Machine.execStepIp s
  | .stepDispatch => Sys2Proof.Machine.execStepDispatch s
  | .stepIcmp => Sys2Proof.Machine.execStepIcmp s
  | .stepTcp => Sys2Proof.Machine.execStepTcp s
  | .stepUdp => Sys2Proof.Machine.execStepUdp s
  | .rdU8 => Sys2Proof.Machine.execRdU8 s
  | .rdU16 => Sys2Proof.Machine.execRdU16 s
  | .rdU32 => Sys2Proof.Machine.execRdU32 s
  | .rdBits n => Sys2Proof.Machine.execRdBits n s
  | .rdBit => Sys2Proof.Machine.execRdBit s
  | .take n => Sys2Proof.Machine.execTake n s
  | .skip n => Sys2Proof.Machine.execSkip n s
  | .takeRest => Sys2Proof.Machine.execTakeRest s
  | .decodeMac => Sys2Proof.Machine.execDecodeMac s
  | .classifyEtype v => Sys2Proof.Machine.execClassifyEtype v s
  | .decodeEther => Sys2Proof.Machine.execDecodeEther s
  | .decodeTos => Sys2Proof.Machine.execDecodeTos s
  | .decodeIpv4 => Sys2Proof.Machine.execDecodeIpv4 s
  | .classifyProto n => Sys2Proof.Machine.execClassifyProto n s
  | .decodeIcmp => Sys2Proof.Machine.execDecodeIcmp s
  | .decodeTcp => Sys2Proof.Machine.execDecodeTcp s
  | .decodeUdp => Sys2Proof.Machine.execDecodeUdp s
  | .decodePacket bytes => Sys2Proof.Machine.execDecodePacket bytes s
  | .start => Sys2Proof.Machine.execStart s
  | .loadFrame bytes => Sys2Proof.Machine.execLoadFrame bytes s
  | .read r => Sys2Proof.Machine.execRead r s

end Sys2Proof.Machine
end

