-- ==== Sys2Proof/Machine/Fetch.lean ====
section
/-! DEFINITION. Which operation runs next. WBP fetches no instructions (20_memory R76): in a busy phase PHASE alone selects the
parser's step (30_encoding R105), in a quiescent phase the parser waits for a host command. Commands are events that the
environment issues one at a time in some order (93 U12): the pending requests of State are that order, and an entry of them is a
host command or one of the six phase steps (the parser moves now). With no request pending the parser moves by itself. A primitive,
decoder, classifier, selector or layout is no request: it is a part of a step, and runs by itself on the call bench alone, in PHASE
IDLE, where no transaction is open (log entry 4). -/

namespace Sys2Proof.Machine

/-- The operations that the hardware itself performs: the host commands and the phase steps (R214, R220 to R222, R216). The others are
invoked by the decoder rules (R105) and are no move of a transaction. -/
def isTransactionMove (i : Instr) : Bool :=
  match i with
  | .stepEth => true
  | .stepIp => true
  | .stepDispatch => true
  | .stepIcmp => true
  | .stepTcp => true
  | .stepUdp => true
  | .decodePacket _ => true
  | .start => true
  | .loadFrame _ => true
  | .read _ => true
  | _ => false

/-- What the next step does. -/
inductive Fetched where
  /-- the reset input is asserted (R260) -/
  | reset
  /-- quiescent and no request: wait for the host (R105, R260) -/
  | wait
  /-- an operation, and the state it runs in (its own bytes taken from where they waited) -/
  | run (i : Instr) (s : State)
  /-- the pending bytes cannot run -/
  | refuse (r : Refusal)
  deriving DecidableEq, Repr

/-- The parser's own move: the step that PHASE selects (R105). -/
def fetchPhase (s : State) : Fetched :=
  match selectStep s.phase.code with
  | some i => .run i s
  | none => .wait

/-- The oldest pending request: a host command, or the parser's move. -/
def fetchRequest (s : State) : Fetched :=
  match decode s.req with
  | .ok i rest => if isTransactionMove i then .run i (s.setReq rest) else .refuse .notARequest
  | .bad e => .refuse (.undecodable e)

/-- The operation on the call bench, in PHASE IDLE only (log entry 4). -/
def fetchCall (s : State) : Fetched :=
  if s.phase = .idle then
    match decode s.call with
    | .ok i rest => .run i (s.setCall rest)
    | .bad e => .refuse (.undecodable e)
  else .refuse .callOutsideIdle

/-- The choice of the next operation: reset first, then the call bench, then the oldest pending request, then the step that PHASE
selects. -/
def fetch (s : State) : Fetched :=
  if s.rst then .reset
  else if s.call ≠ [] then fetchCall s
  else if s.req ≠ [] then fetchRequest s
  else fetchPhase s

/-! ### Placing one operation before the next step -/

/-- An Ethernet group for a state that is placed behind `STEP_ETH` (log entry 2). -/
def placedEth : EthRegs := { dst := 0, src := 0, typeVal := 0x0800, typeTag := etherTagOf 0x0800 }

/-- An IPv4 group for a state that is placed behind `STEP_IP`, with the given protocol number (log entry 2). -/
def placedIp (n : Byte) : Ipv4Regs :=
  { hlen := headerBytes 5, tos := tosRegsOf { prec := 0, d := false, t := false, r := false, rsv := 0 }, totlen := 0, ident := 0,
    df := false, mf := false, fragoff := 0, ttl := 0, protoVal := n, protoTag := protoTagOf n, csum := 0, src := 0, dst := 0 }

/-- The state with PHASE at IP and the groups that hold a value there (R39). -/
def State.placeIp (s : State) : State := { s with phase := .ip, eth := some (s.eth.getD placedEth) }

/-- The state with PHASE at DISPATCH and the groups that hold a value there (R39). -/
def State.placeDispatch (n : Byte) (s : State) : State :=
  { s.placeIp with phase := .dispatch, ip := some (s.ip.getD (placedIp n)) }

/-- The state with PHASE at a transport step and the groups that hold a value there (R39). -/
def State.placeTransport (n : Byte) (s : State) : State := (s.placeDispatch n).putContents (protoTagOf n)

/-- What it takes for a phase step to run in the very next step: it runs in one phase only, so PHASE is set to it, with the register
groups that hold a value in that phase (R39, R105; log entry 2). -/
def State.placeFor (i : Instr) (s : State) : State :=
  match i with
  | .stepEth => { s with phase := .eth }
  | .stepIp => s.placeIp
  | .stepDispatch => s.placeDispatch 0x2F
  | .stepIcmp => s.placeTransport 0x01
  | .stepTcp => s.placeTransport 0x06
  | .stepUdp => s.placeTransport 0x11
  | _ => s

/-- The state with the bytes of one operation where `fetch` takes its next operation from: a move of a transaction in front of the
pending requests, with what it takes to run; any other operation on the call bench, in PHASE IDLE; bytes that are no operation as a
request. The reset input, which would come first, is taken back. -/
def State.placeBytes (bs : List Byte) (s : State) : State :=
  match (decode bs).instr? with
  | some i =>
    if isTransactionMove i then { (s.placeFor i).setReq (bs ++ s.req) with rst := false, call := [] }
    else { s with phase := .idle, rst := false, call := bs ++ s.call }
  | none => { s.setReq (bs ++ s.req) with rst := false, call := [] }

end Sys2Proof.Machine
end

