-- ==== Sys2Proof/Machine/Step.lean ====
section
/-! DEFINITION. One step of WBP: the reset event, or the operation that is next, or waiting for the host. -/

namespace Sys2Proof.Machine

/-- One step. -/
def step (s : State) : Host.Outcome State Fault Refusal :=
  match fetch s with
  | .reset => .next s.takeReset
  | .wait => .next s
  | .run i t => exec i t
  | .refuse r => .refused r

/-- `s` with the operation of a table word placed so that the very next step runs it (log entry 2). -/
def State.withFetchWord (s : State) (nbits w : Nat) : State := s.placeBytes (tableBytes nbits w)

end Sys2Proof.Machine
end

