-- ==== Sys2Proof/Safety.lean ====
section
/-! DEFINITION. What counts as a safe state and a safe move of WBP, in the terms the claims use: the invariant of 10_state R39 with the
laws that the tables of R26 to R32 and 60_exceptions R233 state, and the complete transition relation of PHASE (44_dispatch R214). -/

namespace Sys2Proof.Machine

/-- No transport group holds a value, and there is no payload descriptor. -/
def State.noTransport (s : State) : Prop := s.icmp = none ∧ s.tcp = none ∧ s.udp = none ∧ s.pay = none

/-- Which groups hold a value in which phase (R39 c). -/
def State.groupsMatchPhase (s : State) : Prop :=
  match s.phase with
  | .idle => s.eth = none ∧ s.ip = none ∧ s.ctTag = none ∧ s.noTransport
  | .eth => s.eth = none ∧ s.ip = none ∧ s.ctTag = none ∧ s.noTransport
  | .error => s.eth = none ∧ s.ip = none ∧ s.ctTag = none ∧ s.noTransport
  | .ip => s.eth.isSome ∧ s.ip = none ∧ s.ctTag = none ∧ s.noTransport
  | .dispatch => s.eth.isSome ∧ s.ip.isSome ∧ s.ctTag = none ∧ s.noTransport
  | .icmp => s.eth.isSome ∧ s.ip.isSome ∧ s.ctTag = some .icmp ∧ s.noTransport
  | .tcp => s.eth.isSome ∧ s.ip.isSome ∧ s.ctTag = some .tcp ∧ s.noTransport
  | .udp => s.eth.isSome ∧ s.ip.isSome ∧ s.ctTag = some .udp ∧ s.noTransport
  | .done => s.eth.isSome ∧ s.ip.isSome ∧ s.ctTag.isSome ∧
      (s.icmp.isSome ↔ s.ctTag = some .icmp) ∧ (s.tcp.isSome ↔ s.ctTag = some .tcp) ∧
      (s.udp.isSome ↔ s.ctTag = some .udp) ∧ (s.pay.isSome ↔ s.ctTag ≠ some .other)

/-- The error registers: 0 in every phase but ERROR, and one of the nine legal pairs in ERROR (R35, R39 d, R233). -/
def State.errorsMatchPhase (s : State) : Prop :=
  if s.phase = .error then (s.errKind, s.errCause) ∈ legalPairs else s.errKind = .none ∧ s.errCause = .none

/-- The tags are functions of the raw values beside them, CT_TAG equals IP_PROTO_TAG, and the type-of-service fields are slices of
the raw byte (R26, R168). -/
def State.tagsMatchValues (s : State) : Prop :=
  (∀ g, s.eth = some g → g.typeTag = etherTagOf g.typeVal) ∧
  (∀ g, s.ip = some g → g.protoTag = protoTagOf g.protoVal ∧ 20 ≤ g.hlen.toNat ∧ g.hlen.toNat ≤ 60 ∧ g.hlen.toNat % 4 = 0 ∧
    g.tos.raw.toNat = g.tos.prec.toNat * 32 + g.tos.d.toNat * 16 + g.tos.t.toNat * 8 + g.tos.r.toNat * 4 + g.tos.raw.toNat % 4) ∧
  (∀ t, s.ctTag = some t → ∃ g, s.ip = some g ∧ t = contentsTagOf g.protoTag) ∧
  (∀ g, s.tcp = some g → 20 ≤ g.doff.toNat ∧ g.doff.toNat ≤ 60 ∧ g.doff.toNat % 4 = 0) ∧
  (∀ g w, s.udp = some g → s.pay = some w → 8 ≤ g.len.toNat ∧ w.len = g.len.toNat - 8)

/-- The cursor stands on a byte boundary in every phase but ERROR (R39 b). -/
def State.CursorAligned (s : State) : Prop := s.phase ≠ .error → s.cur % 8 = 0

/-- The invariant of WBP: the memory is in canonical form and inside FB, FRAME_LEN is at most FRAME_MAX, CUR is inside the frame and on a
byte boundary (R39 a, b), CUR is 0 in IDLE (R223), the groups and the error registers match PHASE (R39 c, d), the tags match their
values, the payload window lies inside the frame (R32), and the call bench, which is no part of WBP, is empty (log entry 4). -/
structure State.Inv (s : State) : Prop where
  fbWf : s.fb.wf = true
  fbInRange : ∀ c ∈ s.fb, c.1 < Config.frameMax
  lenInRange : s.frameLen ≤ Config.frameMax
  curInRange : s.cur ≤ 8 * s.frameLen
  aligned : s.CursorAligned
  idleCursor : s.phase = .idle → s.cur = 0
  groups : s.groupsMatchPhase
  errors : s.errorsMatchPhase
  tags : s.tagsMatchValues
  payload : ∀ w, s.pay = some w → w.off + w.len ≤ s.frameLen
  noCall : s.call = []

/-- The complete transition relation of PHASE (R214), with the host's and the parser's moves; a move that is not listed leaves PHASE
alone. -/
def phaseMove (a b : Phase) : Bool :=
  match a, b with
  | .idle, .eth => true
  | .done, .eth => true
  | .error, .eth => true
  | .idle, .idle => true
  | .done, .idle => true
  | .error, .idle => true
  | .eth, .ip => true
  | .eth, .error => true
  | .ip, .dispatch => true
  | .ip, .error => true
  | .dispatch, .icmp => true
  | .dispatch, .tcp => true
  | .dispatch, .udp => true
  | .dispatch, .done => true
  | .icmp, .done => true
  | .icmp, .error => true
  | .tcp, .done => true
  | .tcp, .error => true
  | .udp, .done => true
  | .udp, .error => true
  | _, _ => false

end Sys2Proof.Machine
end

