-- ==== Sys2Proof/Certificates/Slice0/Obligations.lean ====
section
/-! DEFINITION. The statements for the provers, and the functions they are written in: the fields of a header at a byte address of the
frame, taken from the byte positions of 30_encoding R91 to R96; the cursor positions of 60_exceptions R235; and the closed form of
R234. None of these functions reads a bit through the model's cursor. The field `out` that the statements name
is the model's port for the value that a rule hands to its caller, and `.nothing` where a rule hands over none (the model's choice, log
entry 3). -/

namespace Sys2Proof.Claims

open Sys2Proof.Machine

/-- The result registers of R27 to R32, and the payload window they describe: every register but the five of R35. -/
def isResult (r : Reg) : Bool := decide (r ∉ [Reg.phase, Reg.frameLen, Reg.cur, Reg.errKind, Reg.errCause])

/-- `F[a]` as a number. -/
def byteNum (s : State) (a : Nat) : Nat := (s.fb.read a).toNat

/-- The big-endian value of the `n` bytes from `a` (R62). -/
def num (s : State) (a : Nat) : Nat → Nat
  | 0 => 0
  | n + 1 => num s a n * 256 + byteNum s (a + n)

/-- The bytes `F[a] .. F[a+n-1]`. -/
def bytesAt (s : State) (a n : Nat) : List Byte := (List.range n).map fun i => s.fb.read (a + i)

/-- Stream bit `p` is bit `7 - (p mod 8)` of byte `F[p div 8]` (R13). -/
def streamBit (s : State) (p : Nat) : Bool := decide (byteNum s (p / 8) / 2 ^ (7 - p % 8) % 2 = 1)

/-- Bit `i` of byte `F[a]`. -/
def bitOf (s : State) (a i : Nat) : Bool := decide (byteNum s a / 2 ^ i % 2 = 1)

/-- The Ethernet group of the header at byte `a` (R91, R154). -/
def ethAt (s : State) (a : Nat) : EthRegs :=
  { dst := BitVec.ofNat 48 (num s a 6), src := BitVec.ofNat 48 (num s (a + 6) 6),
    typeVal := BitVec.ofNat 16 (num s (a + 12) 2),
    typeTag := if num s (a + 12) 2 ≤ 1500 then .length else if num s (a + 12) 2 = 0x0800 then .ip else .other }

/-- The type-of-service values of a byte (R93). -/
def tosAt (b : Byte) : TosRegs :=
  { raw := b, prec := BitVec.ofNat 3 (b.toNat / 32), d := decide (b.toNat / 16 % 2 = 1), t := decide (b.toNat / 8 % 2 = 1),
    r := decide (b.toNat / 4 % 2 = 1) }

/-- The version nibble of the IPv4 header at byte `a` (R92). -/
def version (s : State) (a : Nat) : Nat := byteNum s a / 16

/-- The IHL nibble of the IPv4 header at byte `a` (R92). -/
def words (s : State) (a : Nat) : Nat := byteNum s a % 16

/-- The class of a protocol number (R100). -/
def protoClass (n : Nat) : ProtoTag :=
  if n = 0x01 then .icmp else if n = 0x06 then .tcp else if n = 0x11 then .udp else .other

/-- The IPv4 group of the header at byte `a` (R92, R97). -/
def ipv4At (s : State) (a : Nat) : Ipv4Regs :=
  { hlen := BitVec.ofNat 6 (4 * words s a), tos := tosAt (s.fb.read (a + 1)), totlen := BitVec.ofNat 16 (num s (a + 2) 2),
    ident := BitVec.ofNat 16 (num s (a + 4) 2), df := bitOf s (a + 6) 6, mf := bitOf s (a + 6) 5,
    fragoff := BitVec.ofNat 13 (byteNum s (a + 6) % 32 * 256 + byteNum s (a + 7)), ttl := s.fb.read (a + 8),
    protoVal := s.fb.read (a + 9), protoTag := protoClass (byteNum s (a + 9)), csum := BitVec.ofNat 16 (num s (a + 10) 2),
    src := BitVec.ofNat 32 (num s (a + 12) 4), dst := BitVec.ofNat 32 (num s (a + 16) 4) }

/-- The ICMP group of the header at byte `a` (R94). -/
def icmpAt (s : State) (a : Nat) : IcmpRegs :=
  { type := s.fb.read a, code := s.fb.read (a + 1), csum := BitVec.ofNat 16 (num s (a + 2) 2) }

/-- The data-offset nibble of the TCP header at byte `a` (R95). -/
def offsetWords (s : State) (a : Nat) : Nat := byteNum s (a + 12) / 16

/-- The TCP group of the header at byte `a` (R95, R97). -/
def tcpAt (s : State) (a : Nat) : TcpRegs :=
  { sport := BitVec.ofNat 16 (num s a 2), dport := BitVec.ofNat 16 (num s (a + 2) 2), seq := BitVec.ofNat 32 (num s (a + 4) 4),
    acknum := BitVec.ofNat 32 (num s (a + 8) 4), doff := BitVec.ofNat 6 (4 * offsetWords s a), urg := bitOf s (a + 13) 5,
    ack := bitOf s (a + 13) 4, psh := bitOf s (a + 13) 3, rst := bitOf s (a + 13) 2, syn := bitOf s (a + 13) 1,
    fin := bitOf s (a + 13) 0, win := BitVec.ofNat 16 (num s (a + 14) 2), csum := BitVec.ofNat 16 (num s (a + 16) 2),
    urp := BitVec.ofNat 16 (num s (a + 18) 2) }

/-- The UDP group of the header at byte `a` (R96). -/
def udpAt (s : State) (a : Nat) : UdpRegs :=
  { sport := BitVec.ofNat 16 (num s a 2), dport := BitVec.ofNat 16 (num s (a + 2) 2), len := BitVec.ofNat 16 (num s (a + 4) 2),
    csum := BitVec.ofNat 16 (num s (a + 6) 2) }

/-! Where CUR is left, in bits from the start of the layer's header, when only `k` of its bytes are in the frame (R235). -/

/-- ETH: 0..5 at 0, 6..11 at 48, 12..13 at 96. -/
def ethStop (k : Nat) : Nat := if k ≤ 5 then 0 else if k ≤ 11 then 48 else 96

/-- IPV4: 0 at 0, 1 at 8, 2..3 at 16, 4..5 at 32, 6 at 48, 7 at 51, 8 at 64, 9 at 72, 10..11 at 80, 12..15 at 96, 16..19 at 128, then
160. -/
def ipv4Stop (k : Nat) : Nat :=
  if k = 0 then 0 else if k = 1 then 8 else if k ≤ 3 then 16 else if k ≤ 5 then 32 else if k = 6 then 48
  else if k = 7 then 51 else if k = 8 then 64 else if k = 9 then 72 else if k ≤ 11 then 80 else if k ≤ 15 then 96
  else if k ≤ 19 then 128 else 160

/-- ICMP: 0 at 0, 1 at 8, 2..3 at 16. -/
def icmpStop (k : Nat) : Nat := if k = 0 then 0 else if k = 1 then 8 else 16

/-- TCP: 0..1 at 0, 2..3 at 16, 4..7 at 32, 8..11 at 64, 12 at 96, 13 at 103, 14..15 at 112, 16..17 at 128, 18..19 at 144, then 160. -/
def tcpStop (k : Nat) : Nat :=
  if k ≤ 1 then 0 else if k ≤ 3 then 16 else if k ≤ 7 then 32 else if k ≤ 11 then 64 else if k = 12 then 96
  else if k = 13 then 103 else if k ≤ 15 then 112 else if k ≤ 17 then 128 else if k ≤ 19 then 144 else 160

/-- UDP: 0..1 at 0, 2..3 at 16, 4..5 at 32, 6..7 at 48, then 64. -/
def udpStop (k : Nat) : Nat := if k ≤ 1 then 0 else if k ≤ 3 then 16 else if k ≤ 5 then 32 else if k ≤ 7 then 48 else 64

/-- The state after `raise K(c)` with CUR at `p` (R236): kind and cause, no result register with a value, PHASE ERROR; all the rest as
before. -/
def failedState (s : State) (k : ErrKind) (c : ErrCause) (p : Nat) : State :=
  { s with
    cur := p, eth := none, ip := none, ctTag := none, icmp := none, tcp := none, udp := none, pay := none, errKind := k,
    errCause := c, phase := .error, out := .nothing }

/-! The codes of R22, R26, R231 and R232, and the header bytes of the source's section 8 (95 S6, S7, S8). -/

/-- PHASE codes (R22). -/
def phaseCode : Phase → BitVec 4
  | .idle => 0 | .eth => 1 | .ip => 2 | .dispatch => 3 | .icmp => 4 | .tcp => 5 | .udp => 6 | .done => 7 | .error => 8

/-- ETH_TYPE_TAG codes (R26). -/
def etherCode : EtherTag → BitVec 2
  | .ip => 0 | .length => 1 | .other => 2

/-- IP_PROTO_TAG codes (R26). -/
def protoCode : ProtoTag → BitVec 2
  | .icmp => 0 | .tcp => 1 | .udp => 2 | .other => 3

/-- CT_TAG codes (R26). -/
def contentsCode : ContentsTag → BitVec 2
  | .icmp => 0 | .tcp => 1 | .udp => 2 | .other => 3

/-- ERR_KIND codes (R231). -/
def kindCode : ErrKind → BitVec 3
  | .none => 0 | .invalidEthernetFrame => 1 | .invalidIpHeader => 2 | .invalidIcmpPacket => 3 | .invalidTcpHeader => 4
  | .invalidUdpPacket => 5

/-- ERR_CAUSE codes (R232). -/
def causeCode : ErrCause → BitVec 3
  | .none => 0 | .insufficientData => 1 | .badVersion => 2 | .headerLengthTooSmall => 3 | .dataOffsetTooSmall => 4
  | .lengthTooSmall => 5

/-- The Ethernet header of the source's worked example. -/
def specEthBytes : List Byte := [0x08, 0x00, 0x20, 0x86, 0x35, 0x4B, 0x00, 0xE0, 0xF7, 0x26, 0x3F, 0xE9, 0x08, 0x00]

/-- The IPv4 header of the source's worked example. -/
def specIpv4Bytes : List Byte :=
  [0x45, 0x00, 0x00, 0x54, 0xAA, 0xFB, 0x40, 0x00, 0xFC, 0x01, 0xFA, 0x30, 0x8B, 0x85, 0xE9, 0x02, 0x8B, 0x85, 0xD9, 0x6E]

/-- The first four bytes of the ICMP header of the source's worked example. -/
def specIcmpBytes : List Byte := [0x00, 0x00, 0x45, 0xDA]

/-- The first 20 bytes of the TCP header of the source's worked example. -/
def specTcpBytes : List Byte :=
  [0x90, 0x05, 0x00, 0x17, 0x72, 0x14, 0xF1, 0x14, 0x00, 0x00, 0x00, 0x00, 0x60, 0x02, 0x22, 0x38, 0xA9, 0x2C, 0x00, 0x00]

/-- The UDP header of the source's worked example. -/
def specUdpBytes : List Byte := [0x99, 0xD0, 0x04, 0x3F, 0x00, 0x12, 0x72, 0x28]

/-- The kind that the step of a phase raises (R231). -/
def kindOfPhase : Phase → Option ErrKind
  | .idle => none
  | .eth => some .invalidEthernetFrame
  | .ip => some .invalidIpHeader
  | .dispatch => none
  | .icmp => some .invalidIcmpPacket
  | .tcp => some .invalidTcpHeader
  | .udp => some .invalidUdpPacket
  | .done => none
  | .error => none

/-- The operation that can leave a busy phase: the phase's own step (R214). -/
def movesFrom (a : Phase) (i : Instr) : Bool :=
  match a, i with
  | .eth, .stepEth => true
  | .ip, .stepIp => true
  | .dispatch, .stepDispatch => true
  | .icmp, .stepIcmp => true
  | .tcp, .stepTcp => true
  | .udp, .stepUdp => true
  | _, _ => false

/-- The order ETH < IP < DISPATCH < transport < end (R225). -/
def phaseRank : Phase → Nat
  | .idle => 0
  | .eth => 1
  | .ip => 2
  | .dispatch => 3
  | .icmp => 4
  | .tcp => 4
  | .udp => 4
  | .done => 5
  | .error => 5

/-- A contents variant with its payload bytes, without the header (R234). -/
inductive Variant where
  | icmp (data : List Byte)
  | tcp (data : List Byte)
  | udp (payload : List Byte)
  | other
  deriving DecidableEq, Repr

/-- The variant of the contents of a Packet. -/
def variantOf : PacketContents → Variant
  | .icmp _ d => .icmp d
  | .tcp _ d => .tcp d
  | .udp _ d => .udp d
  | .other => .other

/-- The outcome of a transaction (R234). -/
inductive Verdict where
  | err (k : ErrKind) (c : ErrCause)
  | ok (v : Variant)
  deriving DecidableEq, Repr

/-- Byte `i` of the frame as a number. -/
def nth (bs : List Byte) (i : Nat) : Nat := (bs.getD i 0).toNat

/-- R234 lines 6 to 9, with the transport header at byte `T` and the protocol number `n`. -/
def closedTransport (bs : List Byte) (T n : Nat) : Verdict :=
  if n = 0x01 then
    if bs.length < T + 4 then .err .invalidIcmpPacket .insufficientData else .ok (.icmp (bs.drop (T + 4)))
  else if n = 0x06 then
    if bs.length < T + 13 then .err .invalidTcpHeader .insufficientData
    else if nth bs (T + 12) / 16 < 5 then .err .invalidTcpHeader .dataOffsetTooSmall
    else if bs.length < T + 4 * (nth bs (T + 12) / 16) then .err .invalidTcpHeader .insufficientData
    else .ok (.tcp (bs.drop (T + 4 * (nth bs (T + 12) / 16))))
  else if n = 0x11 then
    if bs.length < T + 6 then .err .invalidUdpPacket .insufficientData
    else if nth bs (T + 4) * 256 + nth bs (T + 5) < 8 then .err .invalidUdpPacket .lengthTooSmall
    else if bs.length < T + (nth bs (T + 4) * 256 + nth bs (T + 5)) then .err .invalidUdpPacket .insufficientData
    else .ok (.udp ((bs.drop (T + 8)).take (nth bs (T + 4) * 256 + nth bs (T + 5) - 8)))
  else .ok .other

/-- The closed form of R234, tests in its order. -/
def closedForm (bs : List Byte) : Verdict :=
  if bs.length < 14 then .err .invalidEthernetFrame .insufficientData
  else if bs.length < 15 then .err .invalidIpHeader .insufficientData
  else if nth bs 14 / 16 ≠ 4 then .err .invalidIpHeader .badVersion
  else if nth bs 14 % 16 < 5 then .err .invalidIpHeader .headerLengthTooSmall
  else if bs.length < 14 + 4 * (nth bs 14 % 16) then .err .invalidIpHeader .insufficientData
  else closedTransport bs (14 + 4 * (nth bs 14 % 16)) (nth bs 23)

end Sys2Proof.Claims

section

open Sys2Proof Sys2Proof.Machine Sys2Proof.Claims

/-! ### Reset and the step -/

/-- R38: PHASE, CUR, FRAME_LEN, ERR_KIND and ERR_CAUSE are 0 after reset and every result register holds no value. -/
def Obligations.ResetStateHoldsTheStatedValues : Prop :=
  State.reset.phase.code = 0 ∧ State.reset.cur = 0 ∧ State.reset.frameLen = 0 ∧ State.reset.errKind.code = 0 ∧
    State.reset.errCause.code = 0 ∧ ∀ r, isResult r = true → State.reset.peek r = none

/-- The invariant of R39 holds at reset (its clause on the call bench is the model's, log entry 4). -/
def Obligations.ResetStateMeetsTheInvariant : Prop :=
  State.reset.Inv

/-- A step runs the decoded operation, its bytes taken from where they waited; a part of a step is no request, and the call bench
serves IDLE only (request bytes, call bench and both refusals are the model's choice, log entries 1, 4). -/
def Obligations.StepRunsTheDecodedOperation : Prop :=
  ∀ (s : State) (i : Instr) (rest : List Byte), s.rst = false →
    (s.call = [] → decode s.req = .ok i rest → isTransactionMove i = true → step s = exec i { s with req := rest }) ∧
    (s.call = [] → decode s.req = .ok i rest → isTransactionMove i = false → step s = .refused .notARequest) ∧
    (s.phase = .idle → decode s.call = .ok i rest → step s = exec i { s with call := rest }) ∧
    (s.phase ≠ .idle → decode s.call = .ok i rest → step s = .refused .callOutsideIdle)

/-- R105: which operation runs next is selected by PHASE alone (no request pending); codes 0, 7, 8 select none. -/
def Obligations.StepRunsTheStepThatPhaseSelects : Prop :=
  ∀ s : State, s.rst = false → s.call = [] → s.req = [] →
    (s.phase.code = 1 → step s = exec .stepEth s) ∧ (s.phase.code = 2 → step s = exec .stepIp s) ∧
    (s.phase.code = 3 → step s = exec .stepDispatch s) ∧ (s.phase.code = 4 → step s = exec .stepIcmp s) ∧
    (s.phase.code = 5 → step s = exec .stepTcp s) ∧ (s.phase.code = 6 → step s = exec .stepUdp s) ∧
    (s.phase.code = 0 ∨ s.phase.code = 7 ∨ s.phase.code = 8 → step s = .next s)

/-- R260: reset in any phase, a busy one included, gives a fresh instance; FB and the pending requests are the model's choice (log
entries 5, 6). -/
def Obligations.ResetEndsATransactionAtOnce : Prop :=
  ∀ s : State, s.rst = true → step s = .next { State.reset with fb := s.fb, req := s.req }

/-- Bytes that decode to no operation are refused by name (the request bytes and the call bench are the model's choice, log entries
1, 4). -/
def Obligations.UndecodableRequestIsRefused : Prop :=
  ∀ (s : State) (e : DecodeError), s.rst = false →
    (s.call = [] → s.req ≠ [] → decode s.req = .bad e → step s = .refused (.undecodable e)) ∧
    (s.phase = .idle → s.call ≠ [] → decode s.call = .bad e → step s = .refused (.undecodable e))

/-! ### Encoding -/

/-- Sanity: words of the spec's own examples (95 S6 to S8, V-IP2 and the boundaries of S1, S2, S4) decode to the operations and
fields that R91 to R96 and R98 to R105 give; the first byte of each, the tag, is the model's choice (log entry 1). -/
def Obligations.WordsOfTheTableDecode : Prop :=
  decode (0x06#8 :: specEthBytes) = .ok (.layoutEth { dst := 0x08002086354B, src := 0x00E0F7263FE9, typ := 0x0800 }) [] ∧
  decode (0x07#8 :: specIpv4Bytes) = .ok (.layoutIpv4
    { ihl := 5, tos := { prec := 0, d := false, t := false, r := false, rsv := 0 }, totlen := 84, ident := 0xAAFB,
      rsv := false, df := true, mf := false, fragoff := 0, ttl := 252, proto := 1, csum := 0xFA30,
      src := 0x8B85E902, dst := 0x8B85D96E }) [] ∧
  decode [0x08, 0xB8] = .ok (.layoutTos { prec := 5, d := true, t := true, r := false, rsv := 0 }) [] ∧
  decode (0x09#8 :: specIcmpBytes) = .ok (.layoutIcmp { type := 0, code := 0, csum := 0x45DA }) [] ∧
  decode (0x0A#8 :: specTcpBytes) = .ok (.layoutTcp
    { sport := 36869, dport := 23, seq := 1913975060, acknum := 0, doff := 6, rsv1 := 0, rsv2 := 0, urg := false,
      ack := false, psh := false, rst := false, syn := true, fin := false, win := 8760, csum := 0xA92C, urp := 0 }) [] ∧
  decode (0x0B#8 :: specUdpBytes) = .ok (.layoutUdp { sport := 39376, dport := 1087, len := 18, csum := 0x7228 }) [] ∧
  decode [0x00, 0x05, 0xDC] = .ok .etypeLength7 [] ∧
  decode [0x00, 0x05, 0xDD] = .ok (.etypeOther 1501) [] ∧
  decode [0x01, 0x04] = .ok .ipver4 [] ∧
  decode [0x02, 0x04] = .ok .ihlSmall4 [] ∧
  decode [0x03, 0x11] = .ok .protoUdp [] ∧
  decode [0x04, 0x06] = .ok (.tcpdoOk 6) [] ∧
  decode [0x05, 0x00, 0x12] = .ok (.udplenOk 18) [] ∧
  decode [0x0C, 0x03] = .ok .stepDispatch []

/-- Decode inverts encode on every well-formed operation, whatever bytes follow. -/
def Obligations.DecodeInvertsEncode : Prop :=
  ∀ (i : Instr) (rest : List Byte), i.wf = true → decode (encode i ++ rest) = .ok i rest

/-- Every decoded operation is well formed and the bytes read are its one encoding. -/
def Obligations.EncodeInvertsDecode : Prop :=
  ∀ (bs : List Byte) (i : Instr) (rest : List Byte), decode bs = .ok i rest → i.wf = true ∧ bs = encode i ++ rest

/-! ### Selector rows -/

/-- R98: the rows of the EtherType selector, their ranges and their class; a row answers its caller (the model's choice, log entries
3, 7). -/
def Obligations.EtherTypeRowsGiveTheirClass : Prop :=
  (∀ s : State, exec .etypeIp s = .next { s with out := .etherTag .ip }) ∧
  (∀ (s : State) (v : BitVec 16),
    ((Instr.etypeLength0 v).wf = true ↔ 0 ≤ v.toNat ∧ v.toNat ≤ 1023) ∧
    ((Instr.etypeLength0 v).wf = true → exec (.etypeLength0 v) s = .next { s with out := .etherTag .length })) ∧
  (∀ (s : State) (v : BitVec 16),
    ((Instr.etypeLength1 v).wf = true ↔ 1024 ≤ v.toNat ∧ v.toNat ≤ 1279) ∧
    ((Instr.etypeLength1 v).wf = true → exec (.etypeLength1 v) s = .next { s with out := .etherTag .length })) ∧
  (∀ (s : State) (v : BitVec 16),
    ((Instr.etypeLength2 v).wf = true ↔ 1280 ≤ v.toNat ∧ v.toNat ≤ 1407) ∧
    ((Instr.etypeLength2 v).wf = true → exec (.etypeLength2 v) s = .next { s with out := .etherTag .length })) ∧
  (∀ (s : State) (v : BitVec 16),
    ((Instr.etypeLength3 v).wf = true ↔ 1408 ≤ v.toNat ∧ v.toNat ≤ 1471) ∧
    ((Instr.etypeLength3 v).wf = true → exec (.etypeLength3 v) s = .next { s with out := .etherTag .length })) ∧
  (∀ (s : State) (v : BitVec 16),
    ((Instr.etypeLength4 v).wf = true ↔ 1472 ≤ v.toNat ∧ v.toNat ≤ 1487) ∧
    ((Instr.etypeLength4 v).wf = true → exec (.etypeLength4 v) s = .next { s with out := .etherTag .length })) ∧
  (∀ (s : State) (v : BitVec 16),
    ((Instr.etypeLength5 v).wf = true ↔ 1488 ≤ v.toNat ∧ v.toNat ≤ 1495) ∧
    ((Instr.etypeLength5 v).wf = true → exec (.etypeLength5 v) s = .next { s with out := .etherTag .length })) ∧
  (∀ (s : State) (v : BitVec 16),
    ((Instr.etypeLength6 v).wf = true ↔ 1496 ≤ v.toNat ∧ v.toNat ≤ 1499) ∧
    ((Instr.etypeLength6 v).wf = true → exec (.etypeLength6 v) s = .next { s with out := .etherTag .length })) ∧
  (∀ s : State, exec .etypeLength7 s = .next { s with out := .etherTag .length }) ∧
  (∀ (s : State) (v : BitVec 16),
    ((Instr.etypeOther v).wf = true ↔ 1500 < v.toNat ∧ v ≠ 0x0800) ∧
    ((Instr.etypeOther v).wf = true → exec (.etypeOther v) s = .next { s with out := .etherTag .other }))

/-- R100: the rows of the protocol selector; a row answers its caller and changes nothing else (the model's choice, log entries 3,
7). -/
def Obligations.ProtocolRowsGiveTheirClassAndPhase : Prop :=
  ∀ s : State,
    exec .protoIcmp s = .next { s with out := .protoRow .icmp .icmp } ∧
    exec .protoTcp s = .next { s with out := .protoRow .tcp .tcp } ∧
    exec .protoUdp s = .next { s with out := .protoRow .udp .udp } ∧
    (∀ n : Byte, (Instr.protoOther n).wf = true → n ≠ 0x01 ∧ n ≠ 0x06 ∧ n ≠ 0x11 ∧
      exec (.protoOther n) s = .next { s with out := .protoRow .other .done }) ∧
    (∀ n : Byte, selectProto n =
      if n = 0x01 then .protoIcmp else if n = 0x06 then .protoTcp else if n = 0x11 then .protoUdp else .protoOther n)

/-- R99, R101, R97: the rows that continue, their ranges and the length they give to their caller (the model's choice, log entries
3, 7). -/
def Obligations.SelectorRowsThatContinue : Prop :=
  ∀ s : State,
    exec .ipver4 s = .next { s with out := .proceed } ∧
    (∀ v : BitVec 4, (Instr.ihlOk v).wf = true ↔ 5 ≤ v.toNat) ∧
    (∀ v : BitVec 4, (Instr.ihlOk v).wf = true →
      exec (.ihlOk v) s = .next { s with out := .headerLen (BitVec.ofNat 6 (4 * v.toNat)) }) ∧
    (∀ v : BitVec 4, (Instr.tcpdoOk v).wf = true ↔ 5 ≤ v.toNat) ∧
    (∀ v : BitVec 4, (Instr.tcpdoOk v).wf = true →
      exec (.tcpdoOk v) s = .next { s with out := .headerLen (BitVec.ofNat 6 (4 * v.toNat)) }) ∧
    (∀ v : BitVec 16, (Instr.udplenOk v).wf = true ↔ 8 ≤ v.toNat) ∧
    (∀ v : BitVec 16, (Instr.udplenOk v).wf = true →
      exec (.udplenOk v) s = .next { s with out := .payloadLen (BitVec.ofNat 16 (v.toNat - 8)) })

/-- R99, R101: the rows whose outcome is an error hand it to their caller (the model's choice, log entries 3, 7); R230, R236: the
phase step that consults the selector raises it. -/
def Obligations.SelectorRowsThatRaise : Prop :=
  ∀ s : State,
    (∀ v : BitVec 4, ((Instr.ipverBad v).wf = true ↔ v ≠ 4) ∧
      (v ≠ 4 → exec (.ipverBad v) s = .next { s with out := .errorRow .invalidIpHeader .badVersion })) ∧
    (∀ v : BitVec 4, ((Instr.ihlSmall03 v).wf = true ↔ v.toNat ≤ 3) ∧
      (v.toNat ≤ 3 → exec (.ihlSmall03 v) s = .next { s with out := .errorRow .invalidIpHeader .headerLengthTooSmall })) ∧
    exec .ihlSmall4 s = .next { s with out := .errorRow .invalidIpHeader .headerLengthTooSmall } ∧
    (∀ v : BitVec 4, ((Instr.tcpdoSmall03 v).wf = true ↔ v.toNat ≤ 3) ∧
      (v.toNat ≤ 3 → exec (.tcpdoSmall03 v) s = .next { s with out := .errorRow .invalidTcpHeader .dataOffsetTooSmall })) ∧
    exec .tcpdoSmall4 s = .next { s with out := .errorRow .invalidTcpHeader .dataOffsetTooSmall } ∧
    (∀ v : BitVec 16, ((Instr.udplenSmall v).wf = true ↔ v.toNat ≤ 7) ∧
      (v.toNat ≤ 7 → exec (.udplenSmall v) s = .next { s with out := .errorRow .invalidUdpPacket .lengthTooSmall })) ∧
    (∀ (a : Nat) (k : ErrKind) (c : ErrCause), s.cur = 8 * a →
      (s.phase = .ip → a < s.frameLen →
        exec (selectIpver (BitVec.ofNat 4 (version s a))) s = .next { s with out := .errorRow k c } →
        exec .stepIp s = .next (failedState s k c (s.cur + 4))) ∧
      (s.phase = .ip → a < s.frameLen → version s a = 4 →
        exec (selectIhl (BitVec.ofNat 4 (words s a))) s = .next { s with out := .errorRow k c } →
        exec .stepIp s = .next (failedState s k c (s.cur + 8))) ∧
      (s.phase = .tcp → a + 13 ≤ s.frameLen →
        exec (selectTcpdo (BitVec.ofNat 4 (offsetWords s a))) s = .next { s with out := .errorRow k c } →
        exec .stepTcp s = .next (failedState s k c (s.cur + 100))) ∧
      (s.phase = .udp → a + 6 ≤ s.frameLen →
        exec (selectUdplen (BitVec.ofNat 16 (num s (a + 4) 2))) s = .next { s with out := .errorRow k c } →
        exec .stepUdp s = .next (failedState s k c (s.cur + 48))))

/-- R98, R100, R153, R172, R106: the mask and match rows, first match wins, agree with the tests of both classifiers for every value
(rows and classifiers answer their caller, log entries 3, 7). -/
def Obligations.SelectorsAgreeWithTheClassifiers : Prop :=
  ∀ s : State,
    (∀ v : BitVec 16, exec (selectEtype v) s = exec (.classifyEtype v) s) ∧
    (∀ n : Byte, ∃ (t : ProtoTag) (p : Phase),
      exec (.classifyProto n) s = .next { s with out := .protoTag t } ∧
      exec (selectProto n) s = .next { s with out := .protoRow t p } ∧
      (t = .icmp ∧ p = .icmp ∨ t = .tcp ∧ p = .tcp ∨ t = .udp ∧ p = .udp ∨ t = .other ∧ p = .done))

/-- R230: errors arise only inside the phase steps; R35: ERR_KIND and ERR_CAUSE are written by raise and cleared by START and
LOAD_FRAME. DECODE_PACKET is LOAD_FRAME, START and these steps in one (R216). -/
def Obligations.ErrorsAriseOnlyInThePhaseSteps : Prop :=
  ∀ (i : Instr) (s t : State), (∀ bs, i ≠ .decodePacket bs) → exec i s = .next t →
    t.errKind ≠ s.errKind ∨ t.errCause ≠ s.errCause ∨ (t.phase = .error ∧ s.phase ≠ .error) →
    ((i = .start ∨ ∃ bs, i = .loadFrame bs) ∧ s.busy = false ∧ t.errKind = .none ∧ t.errCause = .none ∧ t.phase ≠ .error) ∨
    (t.phase = .error ∧ (t.errKind, t.errCause) ∈ legalPairs ∧ kindOfPhase s.phase = some t.errKind ∧
      (s.phase = .eth ∧ i = .stepEth ∨ s.phase = .ip ∧ i = .stepIp ∨ s.phase = .icmp ∧ i = .stepIcmp ∨
        s.phase = .tcp ∧ i = .stepTcp ∨ s.phase = .udp ∧ i = .stepUdp))

/-! ### Cursor primitives -/

/-- R132, R133, R134: the three aligned reads, their failure and their precondition; frame: only CUR and the caller's result change. -/
def Obligations.AlignedIntegerReads : Prop :=
  ∀ (s : State) (p L : Nat) (F : Nat → Nat), p = s.cur → L = s.frameLen → F = (fun a => (s.frame.byte a).toNat) →
    (p % 8 = 0 → 8 ≤ 8 * L - p →
      exec .rdU8 s = .next { s with cur := p + 8, out := .word 8 (BitVec.ofNat 8 (F (p / 8))) }) ∧
    (p % 8 = 0 → 8 * L - p < 8 → exec .rdU8 s = .next { s with out := .failed .insufficientData }) ∧
    (p % 8 = 0 → 16 ≤ 8 * L - p →
      exec .rdU16 s = .next { s with cur := p + 16, out := .word 16 (BitVec.ofNat 16 (F (p / 8) * 256 + F (p / 8 + 1))) }) ∧
    (p % 8 = 0 → 8 * L - p < 16 → exec .rdU16 s = .next { s with out := .failed .insufficientData }) ∧
    (p % 8 = 0 → 32 ≤ 8 * L - p →
      exec .rdU32 s = .next { s with
        cur := p + 32,
        out := .word 32 (BitVec.ofNat 32
          (F (p / 8) * 2 ^ 24 + F (p / 8 + 1) * 2 ^ 16 + F (p / 8 + 2) * 2 ^ 8 + F (p / 8 + 3))) }) ∧
    (p % 8 = 0 → 8 * L - p < 32 → exec .rdU32 s = .next { s with out := .failed .insufficientData }) ∧
    (p % 8 ≠ 0 → exec .rdU8 s = .refused .unalignedCursor ∧ exec .rdU16 s = .refused .unalignedCursor ∧
      exec .rdU32 s = .refused .unalignedCursor)

/-- R135, R136: the bit reads at any cursor and their failure; frame: only CUR and the caller's result change. -/
def Obligations.BitReads : Prop :=
  ∀ s : State,
    (∀ n, 1 ≤ n → n ≤ 32 → s.cur + n ≤ 8 * s.frameLen →
      exec (.rdBits n) s = .next { s with
        cur := s.cur + n,
        out := .word n (BitVec.ofNat n (∑ i ∈ Finset.range n, (streamBit s (s.cur + i)).toNat * 2 ^ (n - 1 - i))) }) ∧
    (∀ n, 1 ≤ n → n ≤ 32 → 8 * s.frameLen < s.cur + n →
      exec (.rdBits n) s = .next { s with out := .failed .insufficientData }) ∧
    (s.cur + 1 ≤ 8 * s.frameLen →
      exec .rdBit s = .next { s with cur := s.cur + 1, out := .word 1 (BitVec.ofBool (streamBit s s.cur)) }) ∧
    (8 * s.frameLen < s.cur + 1 → exec .rdBit s = .next { s with out := .failed .insufficientData })

/-- R137, R138: the byte runs, their failure and their precondition; frame: only CUR and the caller's result change. -/
def Obligations.ByteRuns : Prop :=
  ∀ (s : State) (n : Nat),
    (s.cur % 8 = 0 → s.cur + 8 * n ≤ 8 * s.frameLen →
      exec (.take n) s = .next { s with
        cur := s.cur + 8 * n,
        out := .run { off := s.cur / 8, len := n } ((List.range n).map fun i => s.fb.read (s.cur / 8 + i)) } ∧
      exec (.skip n) s = .next { s with cur := s.cur + 8 * n, out := .nothing }) ∧
    (s.cur % 8 = 0 → 8 * s.frameLen < s.cur + 8 * n →
      exec (.take n) s = .next { s with out := .failed .insufficientData } ∧
      exec (.skip n) s = .next { s with out := .failed .insufficientData }) ∧
    (s.cur % 8 ≠ 0 → exec (.take n) s = .refused .unalignedCursor ∧ exec (.skip n) s = .refused .unalignedCursor)

/-- R141: TAKE_REST equals TAKE(L - p/8) and cannot fail; frame: only CUR and the caller's result change. -/
def Obligations.TakeRestTakesEveryRemainingByte : Prop :=
  ∀ s : State,
    (s.cur % 8 = 0 → s.cur ≤ 8 * s.frameLen →
      exec .takeRest s = exec (.take (s.frameLen - s.cur / 8)) s ∧
      exec .takeRest s = .next { s with
        cur := 8 * s.frameLen,
        out := .run { off := s.cur / 8, len := s.frameLen - s.cur / 8 }
          ((List.range (s.frameLen - s.cur / 8)).map fun i => s.fb.read (s.cur / 8 + i)) }) ∧
    (s.cur % 8 ≠ 0 → exec .takeRest s = .refused .unalignedCursor)

/-- R135 and 93 U5: outside 1 to 32 RD_BITS is not defined, treatment refuse. -/
def Obligations.UndefinedBitCountIsRefused : Prop :=
  ∀ (s : State) (n : Nat), n = 0 ∨ 32 < n → exec (.rdBits n) s = .refused (.bitCountUndefined n)

/-- R142: the composition laws, and how the two forms differ when the input runs out part-way. -/
def Obligations.ReadsCompose : Prop :=
  ∀ (f : Frame) (p : Nat),
    (p % 8 = 0 → p + 16 ≤ 8 * f.len → ∃ (a b : BitVec 8) (v : BitVec 16),
      rdU8 f p = .ok a (p + 8) ∧ rdU8 f (p + 8) = .ok b (p + 16) ∧ rdU16 f p = .ok v (p + 16) ∧
      v.toNat = a.toNat * 256 + b.toNat) ∧
    (p % 8 = 0 → p + 32 ≤ 8 * f.len → ∃ (h l : BitVec 16) (v : BitVec 32),
      rdU16 f p = .ok h (p + 16) ∧ rdU16 f (p + 16) = .ok l (p + 32) ∧ rdU32 f p = .ok v (p + 32) ∧
      v.toNat = h.toNat * 65536 + l.toNat) ∧
    (p % 8 = 0 → p + 8 ≤ 8 * f.len → rdU8 f p = rdBits f p 8) ∧
    (p % 8 = 0 → p + 16 ≤ 8 * f.len → rdU16 f p = rdBits f p 16) ∧
    (p % 8 = 0 → p + 32 ≤ 8 * f.len → rdU32 f p = rdBits f p 32) ∧
    (∀ a b, 1 ≤ a → 1 ≤ b → a + b ≤ 32 → p + (a + b) ≤ 8 * f.len → ∃ (x : BitVec a) (y : BitVec b) (v : BitVec (a + b)),
      rdBits f p a = .ok x (p + a) ∧ rdBits f (p + a) b = .ok y (p + a + b) ∧ rdBits f p (a + b) = .ok v (p + a + b) ∧
      v.toNat / 2 ^ b = x.toNat ∧ v.toNat % 2 ^ b = y.toNat) ∧
    (∀ a b, 1 ≤ a → 1 ≤ b → a + b ≤ 32 → p + a ≤ 8 * f.len → 8 * f.len < p + (a + b) → ∃ x : BitVec a,
      rdBits f p a = .ok x (p + a) ∧ rdBits f (p + a) b = .fail .insufficientData (p + a) ∧
      rdBits f p (a + b) = .fail .insufficientData p) ∧
    (p % 8 = 0 → p + 8 ≤ 8 * f.len → 8 * f.len < p + 16 → ∃ a : BitVec 8,
      rdU8 f p = .ok a (p + 8) ∧ rdU8 f (p + 8) = .fail .insufficientData (p + 8) ∧
      rdU16 f p = .fail .insufficientData p) ∧
    (p % 8 = 0 → p + 16 ≤ 8 * f.len → 8 * f.len < p + 32 → ∃ h : BitVec 16,
      rdU16 f p = .ok h (p + 16) ∧ rdU16 f (p + 16) = .fail .insufficientData (p + 16) ∧
      rdU32 f p = .fail .insufficientData p)

/-- R70: no read ever touches a byte at index FRAME_LEN or above (for READ the window is inside the frame, R32). -/
def Obligations.BytesBeyondTheFrameAreNeverRead : Prop :=
  ∀ (s : State) (m : Memory) (i : Instr), (∀ a, a < s.frameLen → m.read a = s.fb.read a) →
    (∀ w, s.pay = some w → w.off + w.len ≤ s.frameLen) →
    (∀ bs, i ≠ .decodePacket bs) → (∀ bs, i ≠ .loadFrame bs) →
    (∀ t, exec i s = .next t → exec i { s with fb := m } = .next { t with fb := m }) ∧
    (∀ r, exec i s = .refused r → exec i { s with fb := m } = .refused r) ∧
    (∀ e, exec i s ≠ .fault e)

/-! ### Decoders and layouts -/

/-- R151, R154: the Ethernet decoders run by themselves; frame: only CUR and the caller's result change. -/
def Obligations.MacAndEthernetDecoders : Prop :=
  ∀ s : State,
    (s.cur % 8 = 0 → s.cur / 8 + 6 ≤ s.frameLen →
      exec .decodeMac s = .next { s with cur := s.cur + 48, out := .word 48 (BitVec.ofNat 48 (num s (s.cur / 8) 6)) }) ∧
    (s.cur % 8 = 0 → s.frameLen < s.cur / 8 + 6 → exec .decodeMac s = .next { s with out := .failed .insufficientData }) ∧
    (s.cur % 8 = 0 → s.cur / 8 + 14 ≤ s.frameLen →
      exec .decodeEther s = .next { s with cur := s.cur + 112, out := .ether (ethAt s (s.cur / 8)) }) ∧
    (s.cur % 8 = 0 → s.frameLen < s.cur / 8 + 14 →
      exec .decodeEther s = .next { s with
        cur := s.cur + ethStop (s.frameLen - s.cur / 8), out := .failed .insufficientData }) ∧
    (s.cur % 8 ≠ 0 → exec .decodeMac s = .refused .unalignedCursor ∧ exec .decodeEther s = .refused .unalignedCursor)

/-- R153, R172: the classifiers are total and pure. -/
def Obligations.ClassifiersAreTotal : Prop :=
  ∀ s : State,
    (∀ v : BitVec 16, v.toNat ≤ 1500 → exec (.classifyEtype v) s = .next { s with out := .etherTag .length }) ∧
    (∀ v : BitVec 16, v.toNat = 0x0800 → exec (.classifyEtype v) s = .next { s with out := .etherTag .ip }) ∧
    (∀ v : BitVec 16, 1500 < v.toNat → v.toNat ≠ 0x0800 →
      exec (.classifyEtype v) s = .next { s with out := .etherTag .other }) ∧
    exec (.classifyProto 0x01) s = .next { s with out := .protoTag .icmp } ∧
    exec (.classifyProto 0x06) s = .next { s with out := .protoTag .tcp } ∧
    exec (.classifyProto 0x11) s = .next { s with out := .protoTag .udp } ∧
    (∀ n : Byte, n ≠ 0x01 → n ≠ 0x06 → n ≠ 0x11 → exec (.classifyProto n) s = .next { s with out := .protoTag .other })

/-- R167, R168: the type-of-service decoder run by itself; frame: only CUR and the caller's result change. The refusal at an
unaligned cursor is the model's choice (DEDUCED, log entry 11). -/
def Obligations.TypeOfServiceDecoder : Prop :=
  ∀ s : State,
    (s.cur % 8 = 0 → s.cur / 8 < s.frameLen →
      exec .decodeTos s = .next { s with cur := s.cur + 8, out := .tos (tosAt (s.fb.read (s.cur / 8))) }) ∧
    (s.cur % 8 = 0 → s.frameLen ≤ s.cur / 8 → exec .decodeTos s = .next { s with out := .failed .insufficientData }) ∧
    (s.cur % 8 ≠ 0 → exec .decodeTos s = .refused .unalignedCursor) ∧
    (∀ b : Byte, b.toNat = (tosAt b).prec.toNat * 32 + (tosAt b).d.toNat * 16 + (tosAt b).t.toNat * 8 +
      (tosAt b).r.toNat * 4 + b.toNat % 4)

/-- R170 with the positions of R92: the IPv4 header decoder on a valid header; frame: only CUR and the caller's result change. -/
def Obligations.Ipv4DecoderGivesTheHeader : Prop :=
  ∀ s : State, s.cur % 8 = 0 → version s (s.cur / 8) = 4 → 5 ≤ words s (s.cur / 8) →
    s.cur / 8 + 4 * words s (s.cur / 8) ≤ s.frameLen →
    exec .decodeIpv4 s = .next { s with
      cur := s.cur + 32 * words s (s.cur / 8), out := .ipv4 (ipv4At s (s.cur / 8)) }

/-- R170, R171, R235: each field is judged as soon as it has been read, and CUR stays where the decoder stopped. The refusal at an
unaligned cursor is the model's choice (DEDUCED, log entry 11). -/
def Obligations.Ipv4DecoderFailures : Prop :=
  ∀ s : State,
    (s.cur % 8 = 0 → s.cur / 8 < s.frameLen → version s (s.cur / 8) ≠ 4 →
      exec .decodeIpv4 s = .next { s with cur := s.cur + 4, out := .failed .badVersion }) ∧
    (s.cur % 8 = 0 → s.cur / 8 < s.frameLen → version s (s.cur / 8) = 4 → words s (s.cur / 8) < 5 →
      exec .decodeIpv4 s = .next { s with cur := s.cur + 8, out := .failed .headerLengthTooSmall }) ∧
    (s.cur % 8 = 0 → s.frameLen ≤ s.cur / 8 → exec .decodeIpv4 s = .next { s with out := .failed .insufficientData }) ∧
    (s.cur % 8 = 0 → s.cur / 8 < s.frameLen → version s (s.cur / 8) = 4 → 5 ≤ words s (s.cur / 8) →
      s.frameLen < s.cur / 8 + 4 * words s (s.cur / 8) →
      exec .decodeIpv4 s = .next { s with
        cur := s.cur + ipv4Stop (s.frameLen - s.cur / 8), out := .failed .insufficientData }) ∧
    (s.cur % 8 ≠ 0 → exec .decodeIpv4 s = .refused .unalignedCursor)

/-- R185: the ICMP header decoder run by itself; frame: only CUR and the caller's result change. -/
def Obligations.IcmpDecoder : Prop :=
  ∀ s : State,
    (s.cur % 8 = 0 → s.cur / 8 + 4 ≤ s.frameLen →
      exec .decodeIcmp s = .next { s with cur := s.cur + 32, out := .icmp (icmpAt s (s.cur / 8)) }) ∧
    (s.cur % 8 = 0 → s.frameLen < s.cur / 8 + 4 →
      exec .decodeIcmp s = .next { s with
        cur := s.cur + icmpStop (s.frameLen - s.cur / 8), out := .failed .insufficientData }) ∧
    (s.cur % 8 ≠ 0 → exec .decodeIcmp s = .refused .unalignedCursor)

/-- R190, R192 with the positions of R95: the TCP header decoder run by itself; frame: only CUR and the caller's result change. -/
def Obligations.TcpDecoder : Prop :=
  ∀ s : State,
    (s.cur % 8 = 0 → 5 ≤ offsetWords s (s.cur / 8) → s.cur / 8 + 4 * offsetWords s (s.cur / 8) ≤ s.frameLen →
      exec .decodeTcp s = .next { s with
        cur := s.cur + 32 * offsetWords s (s.cur / 8), out := .tcp (tcpAt s (s.cur / 8)) }) ∧
    (s.cur % 8 = 0 → s.cur / 8 + 13 ≤ s.frameLen → offsetWords s (s.cur / 8) < 5 →
      exec .decodeTcp s = .next { s with cur := s.cur + 100, out := .failed .dataOffsetTooSmall }) ∧
    (s.cur % 8 = 0 → s.frameLen < s.cur / 8 + 13 →
      exec .decodeTcp s = .next { s with
        cur := s.cur + tcpStop (s.frameLen - s.cur / 8), out := .failed .insufficientData }) ∧
    (s.cur % 8 = 0 → s.cur / 8 + 13 ≤ s.frameLen → 5 ≤ offsetWords s (s.cur / 8) →
      s.frameLen < s.cur / 8 + 4 * offsetWords s (s.cur / 8) →
      exec .decodeTcp s = .next { s with
        cur := s.cur + tcpStop (s.frameLen - s.cur / 8), out := .failed .insufficientData }) ∧
    (s.cur % 8 ≠ 0 → exec .decodeTcp s = .refused .unalignedCursor)

/-- R195, R197: the UDP decoder run by itself; frame: only CUR and the caller's result change. -/
def Obligations.UdpDecoder : Prop :=
  ∀ s : State,
    (s.cur % 8 = 0 → 8 ≤ num s (s.cur / 8 + 4) 2 → s.cur / 8 + num s (s.cur / 8 + 4) 2 ≤ s.frameLen →
      exec .decodeUdp s = .next { s with
        cur := s.cur + 8 * num s (s.cur / 8 + 4) 2,
        out := .udp (udpAt s (s.cur / 8)) { off := s.cur / 8 + 8, len := num s (s.cur / 8 + 4) 2 - 8 } }) ∧
    (s.cur % 8 = 0 → s.cur / 8 + 6 ≤ s.frameLen → num s (s.cur / 8 + 4) 2 < 8 →
      exec .decodeUdp s = .next { s with cur := s.cur + 48, out := .failed .lengthTooSmall }) ∧
    (s.cur % 8 = 0 → s.frameLen < s.cur / 8 + 6 →
      exec .decodeUdp s = .next { s with
        cur := s.cur + udpStop (s.frameLen - s.cur / 8), out := .failed .insufficientData }) ∧
    (s.cur % 8 = 0 → s.cur / 8 + 6 ≤ s.frameLen → 8 ≤ num s (s.cur / 8 + 4) 2 →
      s.frameLen < s.cur / 8 + num s (s.cur / 8 + 4) 2 →
      exec .decodeUdp s = .next { s with
        cur := s.cur + udpStop (s.frameLen - s.cur / 8), out := .failed .insufficientData }) ∧
    (s.cur % 8 ≠ 0 → exec .decodeUdp s = .refused .unalignedCursor)

/-- R91 to R97, R101, R102: what every field of a layout goes to; a layout answers its caller (the model's choice, log entry 10). -/
def Obligations.LayoutsGiveTheirFields : Prop :=
  ∀ s : State,
    (∀ w : EthWord, exec (.layoutEth w) s = .next { s with
      out := .ether { dst := w.dst, src := w.src, typeVal := w.typ, typeTag := etherTagOf w.typ } }) ∧
    (∀ w : TosWord, exec (.layoutTos w) s = .next { s with
      out := .tos { raw := BitVec.ofNat 8 (w.prec.toNat * 32 + w.d.toNat * 16 + w.t.toNat * 8 + w.r.toNat * 4 + w.rsv.toNat),
                    prec := w.prec, d := w.d, t := w.t, r := w.r } }) ∧
    (∀ w : Ipv4Word, w.ihl.toNat < 5 → exec (.layoutIpv4 w) s = .next { s with out := .failed .headerLengthTooSmall }) ∧
    (∀ w : Ipv4Word, 5 ≤ w.ihl.toNat → exec (.layoutIpv4 w) s = .next { s with
      out := .ipv4 { hlen := BitVec.ofNat 6 (4 * w.ihl.toNat),
                     tos := { raw := w.tos.toBits, prec := w.tos.prec, d := w.tos.d, t := w.tos.t, r := w.tos.r },
                     totlen := w.totlen, ident := w.ident, df := w.df, mf := w.mf, fragoff := w.fragoff, ttl := w.ttl,
                     protoVal := w.proto, protoTag := protoTagOf w.proto, csum := w.csum, src := w.src, dst := w.dst } }) ∧
    (∀ w : IcmpWord, exec (.layoutIcmp w) s = .next { s with
      out := .icmp { type := w.type, code := w.code, csum := w.csum } }) ∧
    (∀ w : TcpWord, w.doff.toNat < 5 → exec (.layoutTcp w) s = .next { s with out := .failed .dataOffsetTooSmall }) ∧
    (∀ w : TcpWord, 5 ≤ w.doff.toNat → exec (.layoutTcp w) s = .next { s with
      out := .tcp { sport := w.sport, dport := w.dport, seq := w.seq, acknum := w.acknum,
                    doff := BitVec.ofNat 6 (4 * w.doff.toNat), urg := w.urg, ack := w.ack, psh := w.psh, rst := w.rst,
                    syn := w.syn, fin := w.fin, win := w.win, csum := w.csum, urp := w.urp } }) ∧
    (∀ w : UdpWord, w.len.toNat < 8 → exec (.layoutUdp w) s = .next { s with out := .failed .lengthTooSmall }) ∧
    (∀ w : UdpWord, 8 ≤ w.len.toNat → exec (.layoutUdp w) s = .next { s with
      out := .udpFixed { sport := w.sport, dport := w.dport, len := w.len, csum := w.csum }
        (BitVec.ofNat 16 (w.len.toNat - 8)) })

/-- R90 to R96: reading a header field by field at the cursor agrees with the bit positions of its layout, for each of the six
layouts (a layout as an operation is the model's choice, log entry 10). -/
def Obligations.DecodersAgreeWithTheLayouts : Prop :=
  ∀ (s : State) (a : Nat), s.cur = 8 * a →
    (a + 14 ≤ s.frameLen → ∃ o,
      exec (.layoutEth (EthWord.ofBits (BitVec.ofNat 112 (num s a 14)))) s = .next { s with out := o } ∧
      exec .decodeEther s = .next { s with cur := s.cur + 112, out := o }) ∧
    (a + 1 ≤ s.frameLen → ∃ o,
      exec (.layoutTos (TosWord.ofBits (BitVec.ofNat 8 (num s a 1)))) s = .next { s with out := o } ∧
      exec .decodeTos s = .next { s with cur := s.cur + 8, out := o }) ∧
    (a + 4 * words s a ≤ s.frameLen → version s a = 4 → 5 ≤ words s a → ∃ o,
      exec (.layoutIpv4 (Ipv4Word.ofBits (BitVec.ofNat 160 (num s a 20)))) s = .next { s with out := o } ∧
      exec .decodeIpv4 s = .next { s with cur := s.cur + 32 * words s a, out := o }) ∧
    (a + 4 ≤ s.frameLen → ∃ o,
      exec (.layoutIcmp (IcmpWord.ofBits (BitVec.ofNat 32 (num s a 4)))) s = .next { s with out := o } ∧
      exec .decodeIcmp s = .next { s with cur := s.cur + 32, out := o }) ∧
    (a + 4 * offsetWords s a ≤ s.frameLen → 5 ≤ offsetWords s a → ∃ o,
      exec (.layoutTcp (TcpWord.ofBits (BitVec.ofNat 160 (num s a 20)))) s = .next { s with out := o } ∧
      exec .decodeTcp s = .next { s with cur := s.cur + 32 * offsetWords s a, out := o }) ∧
    (a + num s (a + 4) 2 ≤ s.frameLen → 8 ≤ num s (a + 4) 2 → ∃ (g : UdpRegs) (n : BitVec 16),
      exec (.layoutUdp (UdpWord.ofBits (BitVec.ofNat 64 (num s a 8)))) s = .next { s with out := .udpFixed g n } ∧
      exec .decodeUdp s = .next { s with
        cur := s.cur + 8 * num s (a + 4) 2, out := .udp g { off := a + 8, len := n.toNat } })

/-! ### Phase steps -/

/-- R209 (and R215: no gating): STEP_ETH; frame: nothing but the Ethernet group, CUR, PHASE (and, on failure, what raise writes)
changes. -/
def Obligations.StepEthWritesTheEthernetGroup : Prop :=
  ∀ s : State, s.phase = .eth → s.cur % 8 = 0 →
    (s.cur / 8 + 14 ≤ s.frameLen →
      exec .stepEth s = .next { s with
        eth := some (ethAt s (s.cur / 8)), cur := s.cur + 112, phase := .ip, out := .nothing }) ∧
    (s.frameLen < s.cur / 8 + 14 →
      exec .stepEth s = .next (failedState s .invalidEthernetFrame .insufficientData
        (s.cur + ethStop (s.frameLen - s.cur / 8))))

/-- R210: STEP_IP; frame: nothing but the IPv4 group, CUR, PHASE (and, on failure, what raise writes) changes. -/
def Obligations.StepIpWritesTheIpv4Group : Prop :=
  ∀ s : State, s.phase = .ip → s.cur % 8 = 0 →
    (s.frameLen ≤ s.cur / 8 → exec .stepIp s = .next (failedState s .invalidIpHeader .insufficientData s.cur)) ∧
    (s.cur / 8 < s.frameLen → version s (s.cur / 8) ≠ 4 →
      exec .stepIp s = .next (failedState s .invalidIpHeader .badVersion (s.cur + 4))) ∧
    (s.cur / 8 < s.frameLen → version s (s.cur / 8) = 4 → words s (s.cur / 8) < 5 →
      exec .stepIp s = .next (failedState s .invalidIpHeader .headerLengthTooSmall (s.cur + 8))) ∧
    (s.cur / 8 < s.frameLen → version s (s.cur / 8) = 4 → 5 ≤ words s (s.cur / 8) →
      s.frameLen < s.cur / 8 + 4 * words s (s.cur / 8) →
      exec .stepIp s = .next (failedState s .invalidIpHeader .insufficientData
        (s.cur + ipv4Stop (s.frameLen - s.cur / 8)))) ∧
    (version s (s.cur / 8) = 4 → 5 ≤ words s (s.cur / 8) → s.cur / 8 + 4 * words s (s.cur / 8) ≤ s.frameLen →
      exec .stepIp s = .next { s with
        ip := some (ipv4At s (s.cur / 8)), cur := s.cur + 32 * words s (s.cur / 8), phase := .dispatch, out := .nothing })

/-- R207: STEP_DISPATCH, four arms; frame: nothing but CT_TAG and PHASE changes. -/
def Obligations.StepDispatchFollowsTheTag : Prop :=
  ∀ (s : State) (g : Ipv4Regs), s.phase = .dispatch → s.ip = some g →
    (g.protoTag = .icmp → exec .stepDispatch s = .next { s with ctTag := some .icmp, phase := .icmp, out := .nothing }) ∧
    (g.protoTag = .tcp → exec .stepDispatch s = .next { s with ctTag := some .tcp, phase := .tcp, out := .nothing }) ∧
    (g.protoTag = .udp → exec .stepDispatch s = .next { s with ctTag := some .udp, phase := .udp, out := .nothing }) ∧
    (g.protoTag = .other → exec .stepDispatch s = .next { s with ctTag := some .other, phase := .done, out := .nothing })

/-- R186: STEP_ICMP; frame: nothing but the ICMP group, the payload descriptor, CUR, PHASE (and, on failure, what raise writes)
changes. -/
def Obligations.StepIcmpCapturesTheData : Prop :=
  ∀ s : State, s.phase = .icmp → s.cur % 8 = 0 →
    (s.cur / 8 + 4 ≤ s.frameLen →
      exec .stepIcmp s = .next { s with
        icmp := some (icmpAt s (s.cur / 8)), pay := some { off := s.cur / 8 + 4, len := s.frameLen - (s.cur / 8 + 4) },
        cur := 8 * s.frameLen, phase := .done, out := .nothing }) ∧
    (s.frameLen < s.cur / 8 + 4 →
      exec .stepIcmp s = .next (failedState s .invalidIcmpPacket .insufficientData
        (s.cur + icmpStop (s.frameLen - s.cur / 8))))

/-- R191: STEP_TCP; frame: nothing but the TCP group, the payload descriptor, CUR, PHASE (and, on failure, what raise writes)
changes. -/
def Obligations.StepTcpCapturesTheData : Prop :=
  ∀ s : State, s.phase = .tcp → s.cur % 8 = 0 →
    (5 ≤ offsetWords s (s.cur / 8) → s.cur / 8 + 4 * offsetWords s (s.cur / 8) ≤ s.frameLen →
      exec .stepTcp s = .next { s with
        tcp := some (tcpAt s (s.cur / 8)),
        pay := some { off := s.cur / 8 + 4 * offsetWords s (s.cur / 8),
                      len := s.frameLen - (s.cur / 8 + 4 * offsetWords s (s.cur / 8)) },
        cur := 8 * s.frameLen, phase := .done, out := .nothing }) ∧
    (s.cur / 8 + 13 ≤ s.frameLen → offsetWords s (s.cur / 8) < 5 →
      exec .stepTcp s = .next (failedState s .invalidTcpHeader .dataOffsetTooSmall (s.cur + 100))) ∧
    (s.frameLen < s.cur / 8 + 13 →
      exec .stepTcp s = .next (failedState s .invalidTcpHeader .insufficientData
        (s.cur + tcpStop (s.frameLen - s.cur / 8)))) ∧
    (s.cur / 8 + 13 ≤ s.frameLen → 5 ≤ offsetWords s (s.cur / 8) →
      s.frameLen < s.cur / 8 + 4 * offsetWords s (s.cur / 8) →
      exec .stepTcp s = .next (failedState s .invalidTcpHeader .insufficientData
        (s.cur + tcpStop (s.frameLen - s.cur / 8))))

/-- R196: STEP_UDP; frame: nothing but the UDP group, the payload descriptor, CUR, PHASE (and, on failure, what raise writes)
changes. -/
def Obligations.StepUdpBoundsThePayload : Prop :=
  ∀ s : State, s.phase = .udp → s.cur % 8 = 0 →
    (8 ≤ num s (s.cur / 8 + 4) 2 → s.cur / 8 + num s (s.cur / 8 + 4) 2 ≤ s.frameLen →
      exec .stepUdp s = .next { s with
        udp := some (udpAt s (s.cur / 8)), pay := some { off := s.cur / 8 + 8, len := num s (s.cur / 8 + 4) 2 - 8 },
        cur := s.cur + 8 * num s (s.cur / 8 + 4) 2, phase := .done, out := .nothing }) ∧
    (s.cur / 8 + 6 ≤ s.frameLen → num s (s.cur / 8 + 4) 2 < 8 →
      exec .stepUdp s = .next (failedState s .invalidUdpPacket .lengthTooSmall (s.cur + 48))) ∧
    (s.frameLen < s.cur / 8 + 6 →
      exec .stepUdp s = .next (failedState s .invalidUdpPacket .insufficientData
        (s.cur + udpStop (s.frameLen - s.cur / 8)))) ∧
    (s.cur / 8 + 6 ≤ s.frameLen → 8 ≤ num s (s.cur / 8 + 4) 2 → s.frameLen < s.cur / 8 + num s (s.cur / 8 + 4) 2 →
      exec .stepUdp s = .next (failedState s .invalidUdpPacket .insufficientData
        (s.cur + udpStop (s.frameLen - s.cur / 8))))

/-- R105, R214: exactly the step that PHASE selects is enabled. R67: a byte-level primitive at an unaligned cursor is refused, so
the steps ETH, ICMP, TCP, UDP are; that STEP_IP, which begins with bit reads, is refused there too is the model's choice (DEDUCED,
log entry 11). -/
def Obligations.PhaseStepsAreEnabledInTheirPhaseOnly : Prop :=
  ∀ s : State,
    (s.phase ≠ .eth → exec .stepEth s = .refused (.stepNotEnabled .eth)) ∧
    (s.phase ≠ .ip → exec .stepIp s = .refused (.stepNotEnabled .ip)) ∧
    (s.phase ≠ .dispatch → exec .stepDispatch s = .refused (.stepNotEnabled .dispatch)) ∧
    (s.phase ≠ .icmp → exec .stepIcmp s = .refused (.stepNotEnabled .icmp)) ∧
    (s.phase ≠ .tcp → exec .stepTcp s = .refused (.stepNotEnabled .tcp)) ∧
    (s.phase ≠ .udp → exec .stepUdp s = .refused (.stepNotEnabled .udp)) ∧
    (s.cur % 8 ≠ 0 →
      (s.phase = .eth → exec .stepEth s = .refused .unalignedCursor) ∧
      (s.phase = .ip → exec .stepIp s = .refused .unalignedCursor) ∧
      (s.phase = .icmp → exec .stepIcmp s = .refused .unalignedCursor) ∧
      (s.phase = .tcp → exec .stepTcp s = .refused .unalignedCursor) ∧
      (s.phase = .udp → exec .stepUdp s = .refused .unalignedCursor))

/-! ### Host commands -/

/-- R220: START, admitted and dropped; frame: FB and FRAME_LEN are unchanged. -/
def Obligations.StartBeginsATransaction : Prop :=
  ∀ s : State,
    (s.phase = .idle ∨ s.phase = .done ∨ s.phase = .error →
      exec .start s = .next { s with
        eth := none, ip := none, ctTag := none, icmp := none, tcp := none, udp := none, pay := none,
        errKind := .none, errCause := .none, cur := 0, phase := .eth, out := .nothing }) ∧
    (s.busy = true → exec .start s = .next s)

/-- R221: LOAD_FRAME, admitted and dropped; frame: every address outside the loaded bytes reads as before. -/
def Obligations.LoadFrameLoadsTheFrame : Prop :=
  ∀ (s : State) (bs : List Byte), s.fb.wf = true →
    (s.phase = .idle ∨ s.phase = .done ∨ s.phase = .error → bs.length ≤ Config.frameMax → ∃ m : Memory,
      exec (.loadFrame bs) s = .next { s with
        fb := m, frameLen := bs.length, eth := none, ip := none, ctTag := none, icmp := none, tcp := none, udp := none,
        pay := none, errKind := .none, errCause := .none, cur := 0, phase := .idle, out := .nothing } ∧
      (∀ i (h : i < bs.length), m.read i = bs[i]) ∧ (∀ a, bs.length ≤ a → m.read a = s.fb.read a)) ∧
    (s.busy = true ∨ Config.frameMax < bs.length → exec (.loadFrame bs) s = .next s)

/-- R222 with the registers of R27 to R32 and the codes of R26: the value read; frame: only the caller's result changes. -/
def Obligations.ReadGivesTheResultRegisters : Prop :=
  ∀ s : State, s.phase = .done →
    (∀ g, s.eth = some g →
      exec (.read .ethDst) s = .next { s with out := .word 48 g.dst } ∧
      exec (.read .ethSrc) s = .next { s with out := .word 48 g.src } ∧
      exec (.read .ethTypeVal) s = .next { s with out := .word 16 g.typeVal } ∧
      exec (.read .ethTypeTag) s = .next { s with out := .word 2 (etherCode g.typeTag) }) ∧
    (∀ g, s.ip = some g →
      exec (.read .ipHlen) s = .next { s with out := .word 6 g.hlen } ∧
      exec (.read .ipTosRaw) s = .next { s with out := .word 8 g.tos.raw } ∧
      exec (.read .ipTosPrec) s = .next { s with out := .word 3 g.tos.prec } ∧
      exec (.read .ipTosD) s = .next { s with out := .word 1 (BitVec.ofBool g.tos.d) } ∧
      exec (.read .ipTosT) s = .next { s with out := .word 1 (BitVec.ofBool g.tos.t) } ∧
      exec (.read .ipTosR) s = .next { s with out := .word 1 (BitVec.ofBool g.tos.r) } ∧
      exec (.read .ipTotlen) s = .next { s with out := .word 16 g.totlen } ∧
      exec (.read .ipId) s = .next { s with out := .word 16 g.ident } ∧
      exec (.read .ipDf) s = .next { s with out := .word 1 (BitVec.ofBool g.df) } ∧
      exec (.read .ipMf) s = .next { s with out := .word 1 (BitVec.ofBool g.mf) } ∧
      exec (.read .ipFragoff) s = .next { s with out := .word 13 g.fragoff } ∧
      exec (.read .ipTtl) s = .next { s with out := .word 8 g.ttl } ∧
      exec (.read .ipProtoVal) s = .next { s with out := .word 8 g.protoVal } ∧
      exec (.read .ipProtoTag) s = .next { s with out := .word 2 (protoCode g.protoTag) } ∧
      exec (.read .ipCsum) s = .next { s with out := .word 16 g.csum } ∧
      exec (.read .ipSrc) s = .next { s with out := .word 32 g.src } ∧
      exec (.read .ipDst) s = .next { s with out := .word 32 g.dst }) ∧
    (∀ g, s.icmp = some g →
      exec (.read .icmpType) s = .next { s with out := .word 8 g.type } ∧
      exec (.read .icmpCode) s = .next { s with out := .word 8 g.code } ∧
      exec (.read .icmpCsum) s = .next { s with out := .word 16 g.csum }) ∧
    (∀ g, s.tcp = some g →
      exec (.read .tcpSport) s = .next { s with out := .word 16 g.sport } ∧
      exec (.read .tcpDport) s = .next { s with out := .word 16 g.dport } ∧
      exec (.read .tcpSeq) s = .next { s with out := .word 32 g.seq } ∧
      exec (.read .tcpAcknum) s = .next { s with out := .word 32 g.acknum } ∧
      exec (.read .tcpDoff) s = .next { s with out := .word 6 g.doff } ∧
      exec (.read .tcpUrg) s = .next { s with out := .word 1 (BitVec.ofBool g.urg) } ∧
      exec (.read .tcpAck) s = .next { s with out := .word 1 (BitVec.ofBool g.ack) } ∧
      exec (.read .tcpPsh) s = .next { s with out := .word 1 (BitVec.ofBool g.psh) } ∧
      exec (.read .tcpRst) s = .next { s with out := .word 1 (BitVec.ofBool g.rst) } ∧
      exec (.read .tcpSyn) s = .next { s with out := .word 1 (BitVec.ofBool g.syn) } ∧
      exec (.read .tcpFin) s = .next { s with out := .word 1 (BitVec.ofBool g.fin) } ∧
      exec (.read .tcpWin) s = .next { s with out := .word 16 g.win } ∧
      exec (.read .tcpCsum) s = .next { s with out := .word 16 g.csum } ∧
      exec (.read .tcpUrp) s = .next { s with out := .word 16 g.urp }) ∧
    (∀ g, s.udp = some g →
      exec (.read .udpSport) s = .next { s with out := .word 16 g.sport } ∧
      exec (.read .udpDport) s = .next { s with out := .word 16 g.dport } ∧
      exec (.read .udpLen) s = .next { s with out := .word 16 g.len } ∧
      exec (.read .udpCsum) s = .next { s with out := .word 16 g.csum }) ∧
    (∀ g, s.ctTag = some g →
      exec (.read .ctTag) s = .next { s with out := .word 2 (contentsCode g) }) ∧
    (∀ g, s.pay = some g →
      exec (.read .payOff) s = .next { s with out := .num g.off } ∧
      exec (.read .payLen) s = .next { s with out := .num g.len })

/-- R222, R223: the admitted reads of the control registers and of the payload; frame: only the caller's result changes. -/
def Obligations.ReadGivesTheControlRegisters : Prop :=
  ∀ s : State,
    exec (.read .phase) s = .next { s with out := .word 4 (phaseCode s.phase) } ∧
    exec (.read .frameLen) s = .next { s with out := .num s.frameLen } ∧
    (s.phase = .idle ∨ s.phase = .done ∨ s.phase = .error → exec (.read .cur) s = .next { s with out := .num s.cur }) ∧
    (s.phase = .error →
      exec (.read .errKind) s = .next { s with out := .word 3 (kindCode s.errKind) } ∧
      exec (.read .errCause) s = .next { s with out := .word 3 (causeCode s.errCause) }) ∧
    (s.phase = .idle ∨ s.phase = .done →
      exec (.read .errKind) s = .next { s with out := .word 3 0 } ∧
      exec (.read .errCause) s = .next { s with out := .word 3 0 }) ∧
    (∀ w, s.phase = .done → s.pay = some w → s.ctTag ≠ some .other → w.off + w.len ≤ s.frameLen →
      exec (.read .payload) s = .next { s with out := .bytes ((List.range w.len).map fun i => s.fb.read (w.off + i)) })

/-- R222, R223, R24: a read outside its admission, or of a register that holds no value, is refused. -/
def Obligations.ReadOutsideItsAdmissionIsRefused : Prop :=
  ∀ s : State,
    (∀ r : Reg, isResult r = true → s.phase ≠ .done → exec (.read r) s = .refused (.readNotAdmitted r)) ∧
    (s.busy = true → exec (.read .cur) s = .refused (.readNotAdmitted .cur) ∧
      exec (.read .errKind) s = .refused (.readNotAdmitted .errKind) ∧
      exec (.read .errCause) s = .refused (.readNotAdmitted .errCause)) ∧
    (s.phase = .done → s.ctTag = some .other → exec (.read .payload) s = .refused (.readNotAdmitted .payload)) ∧
    (∀ r : Reg, isResult r = true → r ≠ .payload → s.phase = .done → s.peek r = none →
      exec (.read r) s = .refused (.holdsNoValue r))

/-- The model's choice (log entry 16): R14 defines MemRead inside the frame only, and outside it the model stops with a fault.
State.Inv excludes every state this speaks of. -/
def Obligations.PayloadWindowOutsideTheFrameFaults : Prop :=
  ∀ (s : State) (w : Run), s.phase = .done → s.pay = some w → s.ctTag ≠ some .other → s.frameLen < w.off + w.len →
    exec (.read .payload) s = .fault .memReadOutsideFrame

/-! ### Whole-machine rules -/

/-- R34: the status flags are functions of PHASE and exclude each other. -/
def Obligations.StatusFlagsAreExclusive : Prop :=
  ∀ s : State, [s.isIdle, s.busy, s.isDone, s.isError].count true = 1 ∧ s.phase.quiescent = !s.busy

/-- R39 (a) to (d) with R26, R32, R223, R233: the invariant is kept by every step from every state that meets it. Its clause that
the call bench is empty is the model's (log entry 4). -/
def Obligations.StepKeepsTheInvariant : Prop :=
  ∀ s t : State, s.Inv → step s = .next t → t.Inv

/-- R39 (b): every header's bit fields fold into whole bytes, so the cursor is aligned at every step boundary except in ERROR. -/
def Obligations.TransactionMovesKeepTheCursorAligned : Prop :=
  ∀ (i : Instr) (s t : State), isTransactionMove i = true → s.CursorAligned → exec i s = .next t →
    t.CursorAligned

/-- R214: every transition not in the table does not exist, and who makes each transition. DECODE_PACKET, which is several of them
in one (R216), is left out here and is the subject of DecodePacketIsLoadStartAndSteps (O55). -/
def Obligations.PhaseMovesFollowTheTable : Prop :=
  ∀ (i : Instr) (s t : State), (∀ bs, i ≠ .decodePacket bs) → exec i s = .next t → t.phase ≠ s.phase →
    phaseMove s.phase t.phase = true ∧
    (s.busy = false → i = .start ∨ ∃ bs, i = .loadFrame bs) ∧
    (s.busy = true → movesFrom s.phase i = true)

/-- R233, R236, R237, R231: error entry. -/
def Obligations.ErrorsAreLegalAndClearTheResult : Prop :=
  ∀ (i : Instr) (s t : State), exec i s = .next t → t.phase = .error → s.phase ≠ .error →
    (t.errKind, t.errCause) ∈ legalPairs ∧
    (t.eth = none ∧ t.ip = none ∧ t.ctTag = none ∧ t.icmp = none ∧ t.tcp = none ∧ t.udp = none ∧ t.pay = none) ∧
    ((∀ bs, i ≠ .decodePacket bs) → t.fb = s.fb ∧ t.frameLen = s.frameLen ∧
      movesFrom s.phase i = true ∧ kindOfPhase s.phase = some t.errKind)

/-- R21: FB and FRAME_LEN are written only by LOAD_FRAME and only in a quiescent phase. -/
def Obligations.OnlyLoadFrameWritesTheFrameBuffer : Prop :=
  ∀ (i : Instr) (s t : State), exec i s = .next t → t.fb ≠ s.fb ∨ t.frameLen ≠ s.frameLen →
    s.busy = false ∧ ∃ bs, (i = .loadFrame bs ∨ i = .decodePacket bs) ∧ bs.length ≤ Config.frameMax ∧
      t.fb = s.fb.writeAll 0 bs ∧ t.frameLen = bs.length

/-- R225: every busy phase has an enabled step and every step ends in a phase further along the order. -/
def Obligations.BusyStepsMakeProgress : Prop :=
  ∀ s : State, s.Inv → s.rst = false → s.req = [] → s.busy = true →
    ∃ t, step s = .next t ∧ t.Inv ∧ t.rst = false ∧ t.req = [] ∧ phaseRank s.phase < phaseRank t.phase

/-- R214, R269: a busy WBP reaches a quiescent phase after at most four steps. -/
def Obligations.TransactionsEndWithinFourSteps : Prop :=
  ∀ s : State, s.Inv → s.rst = false → s.req = [] → s.busy = true →
    ∃ n t, 1 ≤ n ∧ n ≤ 4 ∧ Host.Core.run Sys2Proof.core n s = .next t ∧ (t.phase = .done ∨ t.phase = .error)

/-- R234: the outcome of a transaction in closed form, equivalent to running the phase steps. -/
def Obligations.OutcomeFollowsTheClosedForm : Prop :=
  ∀ (s : State) (bs : List Byte), s.fb.wf = true → s.busy = false → bs.length ≤ Config.frameMax →
    ∃ t, exec (.decodePacket bs) s = .next t ∧
      match closedForm bs with
      | .err k c => t.phase = .error ∧ t.errKind = k ∧ t.errCause = c ∧ t.out = .error k c
      | .ok v => t.phase = .done ∧ ∃ p, t.out = .packet p ∧ variantOf p.contents = v

/-- R216: DECODE_PACKET equals running the phase steps. -/
def Obligations.DecodePacketIsLoadStartAndSteps : Prop :=
  ∀ (s : State) (bs : List Byte), s.busy = false → s.rst = false → s.call = [] → s.req = [] → bs.length ≤ Config.frameMax →
    ∃ s₁ s₂ t o, exec (.loadFrame bs) s = .next s₁ ∧ exec .start s₁ = .next s₂ ∧
      Host.Core.run Sys2Proof.core 4 s₂ = .next t ∧ exec (.decodePacket bs) s = .next { t with out := o } ∧
      (t.phase = .error ∧ o = .error t.errKind t.errCause ∨ t.phase = .done ∧ ∃ p, t.packet = some p ∧ o = .packet p)

/-- R217, R36: the outcome of a transaction, the final CUR included, is a function of (F, FRAME_LEN). -/
def Obligations.OutcomeDependsOnTheFrameAlone : Prop :=
  ∀ s s' : State, s.busy = false → s'.busy = false → s.rst = false → s'.rst = false → s.call = [] → s'.call = [] →
    s.req = [] → s'.req = [] →
    s.frameLen = s'.frameLen → (∀ a, a < s.frameLen → s.fb.read a = s'.fb.read a) →
    ∃ s₁ s₁' t t', exec .start s = .next s₁ ∧ exec .start s' = .next s₁' ∧
      Host.Core.run Sys2Proof.core 4 s₁ = .next t ∧ Host.Core.run Sys2Proof.core 4 s₁' = .next t' ∧
      { t' with fb := t.fb } = t

/-- R33: reading the result file as the source's Packet. -/
def Obligations.DoneStateReadsAsAPacket : Prop :=
  ∀ s : State, s.Inv → s.phase = .done → ∃ e h p, s.eth = some e ∧ s.ip = some h ∧ s.packet = some p ∧
    p.destination = e.dst ∧ p.source = e.src ∧ p.ipHeader = h ∧
    p.etherType = (if e.typeVal = 0x0800 then .ip else if e.typeVal.toNat ≤ 1500 then .length e.typeVal else .other e.typeVal) ∧
    p.protocol = (if h.protoVal = 0x01 then .icmp else if h.protoVal = 0x06 then .tcp else if h.protoVal = 0x11 then .udp
      else .other h.protoVal) ∧
    (∀ g w, s.icmp = some g → s.pay = some w → p.contents = .icmp g (bytesAt s w.off w.len)) ∧
    (∀ g w, s.tcp = some g → s.pay = some w → p.contents = .tcp g (bytesAt s w.off w.len)) ∧
    (∀ g w, s.udp = some g → s.pay = some w → p.contents = .udp g (bytesAt s w.off w.len)) ∧
    (s.ctTag = some .other → p.contents = .other)

/-- R3, R239: only the frame's own bytes steer a transaction and nothing outside them can divert it; R223, R264: a command in a busy
phase is dropped. (Requests and the call bench are the model's own, log entry 4.) -/
def Obligations.RequestsCannotDivertATransaction : Prop :=
  ∀ s t : State, s.rst = false → s.call = [] → s.busy = true → step s = .next t →
    ∃ k u, k ≤ 4 ∧ Host.Core.run Sys2Proof.core k { s with req := [] } = .next u ∧ t = { u with req := t.req, out := t.out }

end
end

