-- ==== Sys2Proof/Laws/State.lean ====
section
/-! SUPPORT. One lemma for every field of State under every named update, true by `rfl`: no later proof unfolds a record update. -/

namespace Sys2Proof.Machine

/-! ### setOut -/

@[simp] theorem State.setOut_fb (o : Out) (s : State) : (s.setOut o).fb = s.fb := rfl
@[simp] theorem State.setOut_frameLen (o : Out) (s : State) : (s.setOut o).frameLen = s.frameLen := rfl
@[simp] theorem State.setOut_phase (o : Out) (s : State) : (s.setOut o).phase = s.phase := rfl
@[simp] theorem State.setOut_cur (o : Out) (s : State) : (s.setOut o).cur = s.cur := rfl
@[simp] theorem State.setOut_eth (o : Out) (s : State) : (s.setOut o).eth = s.eth := rfl
@[simp] theorem State.setOut_ip (o : Out) (s : State) : (s.setOut o).ip = s.ip := rfl
@[simp] theorem State.setOut_ctTag (o : Out) (s : State) : (s.setOut o).ctTag = s.ctTag := rfl
@[simp] theorem State.setOut_icmp (o : Out) (s : State) : (s.setOut o).icmp = s.icmp := rfl
@[simp] theorem State.setOut_tcp (o : Out) (s : State) : (s.setOut o).tcp = s.tcp := rfl
@[simp] theorem State.setOut_udp (o : Out) (s : State) : (s.setOut o).udp = s.udp := rfl
@[simp] theorem State.setOut_pay (o : Out) (s : State) : (s.setOut o).pay = s.pay := rfl
@[simp] theorem State.setOut_errKind (o : Out) (s : State) : (s.setOut o).errKind = s.errKind := rfl
@[simp] theorem State.setOut_errCause (o : Out) (s : State) : (s.setOut o).errCause = s.errCause := rfl
@[simp] theorem State.setOut_rst (o : Out) (s : State) : (s.setOut o).rst = s.rst := rfl
@[simp] theorem State.setOut_req (o : Out) (s : State) : (s.setOut o).req = s.req := rfl
@[simp] theorem State.setOut_call (o : Out) (s : State) : (s.setOut o).call = s.call := rfl
@[simp] theorem State.setOut_out (o : Out) (s : State) : (s.setOut o).out = o := rfl
@[simp] theorem State.setOut_frame (o : Out) (s : State) : (s.setOut o).frame = s.frame := rfl

/-! ### setCur -/

@[simp] theorem State.setCur_fb (p : Nat) (s : State) : (s.setCur p).fb = s.fb := rfl
@[simp] theorem State.setCur_frameLen (p : Nat) (s : State) : (s.setCur p).frameLen = s.frameLen := rfl
@[simp] theorem State.setCur_phase (p : Nat) (s : State) : (s.setCur p).phase = s.phase := rfl
@[simp] theorem State.setCur_cur (p : Nat) (s : State) : (s.setCur p).cur = p := rfl
@[simp] theorem State.setCur_eth (p : Nat) (s : State) : (s.setCur p).eth = s.eth := rfl
@[simp] theorem State.setCur_ip (p : Nat) (s : State) : (s.setCur p).ip = s.ip := rfl
@[simp] theorem State.setCur_ctTag (p : Nat) (s : State) : (s.setCur p).ctTag = s.ctTag := rfl
@[simp] theorem State.setCur_icmp (p : Nat) (s : State) : (s.setCur p).icmp = s.icmp := rfl
@[simp] theorem State.setCur_tcp (p : Nat) (s : State) : (s.setCur p).tcp = s.tcp := rfl
@[simp] theorem State.setCur_udp (p : Nat) (s : State) : (s.setCur p).udp = s.udp := rfl
@[simp] theorem State.setCur_pay (p : Nat) (s : State) : (s.setCur p).pay = s.pay := rfl
@[simp] theorem State.setCur_errKind (p : Nat) (s : State) : (s.setCur p).errKind = s.errKind := rfl
@[simp] theorem State.setCur_errCause (p : Nat) (s : State) : (s.setCur p).errCause = s.errCause := rfl
@[simp] theorem State.setCur_rst (p : Nat) (s : State) : (s.setCur p).rst = s.rst := rfl
@[simp] theorem State.setCur_req (p : Nat) (s : State) : (s.setCur p).req = s.req := rfl
@[simp] theorem State.setCur_call (p : Nat) (s : State) : (s.setCur p).call = s.call := rfl
@[simp] theorem State.setCur_out (p : Nat) (s : State) : (s.setCur p).out = s.out := rfl
@[simp] theorem State.setCur_frame (p : Nat) (s : State) : (s.setCur p).frame = s.frame := rfl

/-! ### setReq -/

@[simp] theorem State.setReq_fb (bs : List Byte) (s : State) : (s.setReq bs).fb = s.fb := rfl
@[simp] theorem State.setReq_frameLen (bs : List Byte) (s : State) : (s.setReq bs).frameLen = s.frameLen := rfl
@[simp] theorem State.setReq_phase (bs : List Byte) (s : State) : (s.setReq bs).phase = s.phase := rfl
@[simp] theorem State.setReq_cur (bs : List Byte) (s : State) : (s.setReq bs).cur = s.cur := rfl
@[simp] theorem State.setReq_eth (bs : List Byte) (s : State) : (s.setReq bs).eth = s.eth := rfl
@[simp] theorem State.setReq_ip (bs : List Byte) (s : State) : (s.setReq bs).ip = s.ip := rfl
@[simp] theorem State.setReq_ctTag (bs : List Byte) (s : State) : (s.setReq bs).ctTag = s.ctTag := rfl
@[simp] theorem State.setReq_icmp (bs : List Byte) (s : State) : (s.setReq bs).icmp = s.icmp := rfl
@[simp] theorem State.setReq_tcp (bs : List Byte) (s : State) : (s.setReq bs).tcp = s.tcp := rfl
@[simp] theorem State.setReq_udp (bs : List Byte) (s : State) : (s.setReq bs).udp = s.udp := rfl
@[simp] theorem State.setReq_pay (bs : List Byte) (s : State) : (s.setReq bs).pay = s.pay := rfl
@[simp] theorem State.setReq_errKind (bs : List Byte) (s : State) : (s.setReq bs).errKind = s.errKind := rfl
@[simp] theorem State.setReq_errCause (bs : List Byte) (s : State) : (s.setReq bs).errCause = s.errCause := rfl
@[simp] theorem State.setReq_rst (bs : List Byte) (s : State) : (s.setReq bs).rst = s.rst := rfl
@[simp] theorem State.setReq_req (bs : List Byte) (s : State) : (s.setReq bs).req = bs := rfl
@[simp] theorem State.setReq_call (bs : List Byte) (s : State) : (s.setReq bs).call = s.call := rfl
@[simp] theorem State.setReq_out (bs : List Byte) (s : State) : (s.setReq bs).out = s.out := rfl
@[simp] theorem State.setReq_frame (bs : List Byte) (s : State) : (s.setReq bs).frame = s.frame := rfl

/-! ### setCall -/

@[simp] theorem State.setCall_fb (bs : List Byte) (s : State) : (s.setCall bs).fb = s.fb := rfl
@[simp] theorem State.setCall_frameLen (bs : List Byte) (s : State) : (s.setCall bs).frameLen = s.frameLen := rfl
@[simp] theorem State.setCall_phase (bs : List Byte) (s : State) : (s.setCall bs).phase = s.phase := rfl
@[simp] theorem State.setCall_cur (bs : List Byte) (s : State) : (s.setCall bs).cur = s.cur := rfl
@[simp] theorem State.setCall_eth (bs : List Byte) (s : State) : (s.setCall bs).eth = s.eth := rfl
@[simp] theorem State.setCall_ip (bs : List Byte) (s : State) : (s.setCall bs).ip = s.ip := rfl
@[simp] theorem State.setCall_ctTag (bs : List Byte) (s : State) : (s.setCall bs).ctTag = s.ctTag := rfl
@[simp] theorem State.setCall_icmp (bs : List Byte) (s : State) : (s.setCall bs).icmp = s.icmp := rfl
@[simp] theorem State.setCall_tcp (bs : List Byte) (s : State) : (s.setCall bs).tcp = s.tcp := rfl
@[simp] theorem State.setCall_udp (bs : List Byte) (s : State) : (s.setCall bs).udp = s.udp := rfl
@[simp] theorem State.setCall_pay (bs : List Byte) (s : State) : (s.setCall bs).pay = s.pay := rfl
@[simp] theorem State.setCall_errKind (bs : List Byte) (s : State) : (s.setCall bs).errKind = s.errKind := rfl
@[simp] theorem State.setCall_errCause (bs : List Byte) (s : State) : (s.setCall bs).errCause = s.errCause := rfl
@[simp] theorem State.setCall_rst (bs : List Byte) (s : State) : (s.setCall bs).rst = s.rst := rfl
@[simp] theorem State.setCall_req (bs : List Byte) (s : State) : (s.setCall bs).req = s.req := rfl
@[simp] theorem State.setCall_call (bs : List Byte) (s : State) : (s.setCall bs).call = bs := rfl
@[simp] theorem State.setCall_out (bs : List Byte) (s : State) : (s.setCall bs).out = s.out := rfl
@[simp] theorem State.setCall_frame (bs : List Byte) (s : State) : (s.setCall bs).frame = s.frame := rfl

/-! ### clearResults -/

@[simp] theorem State.clearResults_fb (s : State) : (s.clearResults).fb = s.fb := rfl
@[simp] theorem State.clearResults_frameLen (s : State) : (s.clearResults).frameLen = s.frameLen := rfl
@[simp] theorem State.clearResults_phase (s : State) : (s.clearResults).phase = s.phase := rfl
@[simp] theorem State.clearResults_cur (s : State) : (s.clearResults).cur = s.cur := rfl
@[simp] theorem State.clearResults_eth (s : State) : (s.clearResults).eth = none := rfl
@[simp] theorem State.clearResults_ip (s : State) : (s.clearResults).ip = none := rfl
@[simp] theorem State.clearResults_ctTag (s : State) : (s.clearResults).ctTag = none := rfl
@[simp] theorem State.clearResults_icmp (s : State) : (s.clearResults).icmp = none := rfl
@[simp] theorem State.clearResults_tcp (s : State) : (s.clearResults).tcp = none := rfl
@[simp] theorem State.clearResults_udp (s : State) : (s.clearResults).udp = none := rfl
@[simp] theorem State.clearResults_pay (s : State) : (s.clearResults).pay = none := rfl
@[simp] theorem State.clearResults_errKind (s : State) : (s.clearResults).errKind = s.errKind := rfl
@[simp] theorem State.clearResults_errCause (s : State) : (s.clearResults).errCause = s.errCause := rfl
@[simp] theorem State.clearResults_rst (s : State) : (s.clearResults).rst = s.rst := rfl
@[simp] theorem State.clearResults_req (s : State) : (s.clearResults).req = s.req := rfl
@[simp] theorem State.clearResults_call (s : State) : (s.clearResults).call = s.call := rfl
@[simp] theorem State.clearResults_out (s : State) : (s.clearResults).out = s.out := rfl
@[simp] theorem State.clearResults_frame (s : State) : (s.clearResults).frame = s.frame := rfl

/-! ### raise -/

@[simp] theorem State.raise_fb (k : ErrKind) (c : ErrCause) (s : State) : (s.raise k c).fb = s.fb := rfl
@[simp] theorem State.raise_frameLen (k : ErrKind) (c : ErrCause) (s : State) : (s.raise k c).frameLen = s.frameLen := rfl
@[simp] theorem State.raise_phase (k : ErrKind) (c : ErrCause) (s : State) : (s.raise k c).phase = .error := rfl
@[simp] theorem State.raise_cur (k : ErrKind) (c : ErrCause) (s : State) : (s.raise k c).cur = s.cur := rfl
@[simp] theorem State.raise_eth (k : ErrKind) (c : ErrCause) (s : State) : (s.raise k c).eth = none := rfl
@[simp] theorem State.raise_ip (k : ErrKind) (c : ErrCause) (s : State) : (s.raise k c).ip = none := rfl
@[simp] theorem State.raise_ctTag (k : ErrKind) (c : ErrCause) (s : State) : (s.raise k c).ctTag = none := rfl
@[simp] theorem State.raise_icmp (k : ErrKind) (c : ErrCause) (s : State) : (s.raise k c).icmp = none := rfl
@[simp] theorem State.raise_tcp (k : ErrKind) (c : ErrCause) (s : State) : (s.raise k c).tcp = none := rfl
@[simp] theorem State.raise_udp (k : ErrKind) (c : ErrCause) (s : State) : (s.raise k c).udp = none := rfl
@[simp] theorem State.raise_pay (k : ErrKind) (c : ErrCause) (s : State) : (s.raise k c).pay = none := rfl
@[simp] theorem State.raise_errKind (k : ErrKind) (c : ErrCause) (s : State) : (s.raise k c).errKind = k := rfl
@[simp] theorem State.raise_errCause (k : ErrKind) (c : ErrCause) (s : State) : (s.raise k c).errCause = c := rfl
@[simp] theorem State.raise_rst (k : ErrKind) (c : ErrCause) (s : State) : (s.raise k c).rst = s.rst := rfl
@[simp] theorem State.raise_req (k : ErrKind) (c : ErrCause) (s : State) : (s.raise k c).req = s.req := rfl
@[simp] theorem State.raise_call (k : ErrKind) (c : ErrCause) (s : State) : (s.raise k c).call = s.call := rfl
@[simp] theorem State.raise_out (k : ErrKind) (c : ErrCause) (s : State) : (s.raise k c).out = .nothing := rfl
@[simp] theorem State.raise_frame (k : ErrKind) (c : ErrCause) (s : State) : (s.raise k c).frame = s.frame := rfl

/-! ### begin -/

@[simp] theorem State.begin_fb (s : State) : (s.begin).fb = s.fb := rfl
@[simp] theorem State.begin_frameLen (s : State) : (s.begin).frameLen = s.frameLen := rfl
@[simp] theorem State.begin_phase (s : State) : (s.begin).phase = .eth := rfl
@[simp] theorem State.begin_cur (s : State) : (s.begin).cur = 0 := rfl
@[simp] theorem State.begin_eth (s : State) : (s.begin).eth = none := rfl
@[simp] theorem State.begin_ip (s : State) : (s.begin).ip = none := rfl
@[simp] theorem State.begin_ctTag (s : State) : (s.begin).ctTag = none := rfl
@[simp] theorem State.begin_icmp (s : State) : (s.begin).icmp = none := rfl
@[simp] theorem State.begin_tcp (s : State) : (s.begin).tcp = none := rfl
@[simp] theorem State.begin_udp (s : State) : (s.begin).udp = none := rfl
@[simp] theorem State.begin_pay (s : State) : (s.begin).pay = none := rfl
@[simp] theorem State.begin_errKind (s : State) : (s.begin).errKind = .none := rfl
@[simp] theorem State.begin_errCause (s : State) : (s.begin).errCause = .none := rfl
@[simp] theorem State.begin_rst (s : State) : (s.begin).rst = s.rst := rfl
@[simp] theorem State.begin_req (s : State) : (s.begin).req = s.req := rfl
@[simp] theorem State.begin_call (s : State) : (s.begin).call = s.call := rfl
@[simp] theorem State.begin_out (s : State) : (s.begin).out = .nothing := rfl
@[simp] theorem State.begin_frame (s : State) : (s.begin).frame = s.frame := rfl

/-! ### load -/

@[simp] theorem State.load_fb (bs : List Byte) (s : State) : (s.load bs).fb = s.fb.writeAll 0 bs := rfl
@[simp] theorem State.load_frameLen (bs : List Byte) (s : State) : (s.load bs).frameLen = bs.length := rfl
@[simp] theorem State.load_phase (bs : List Byte) (s : State) : (s.load bs).phase = .idle := rfl
@[simp] theorem State.load_cur (bs : List Byte) (s : State) : (s.load bs).cur = 0 := rfl
@[simp] theorem State.load_eth (bs : List Byte) (s : State) : (s.load bs).eth = none := rfl
@[simp] theorem State.load_ip (bs : List Byte) (s : State) : (s.load bs).ip = none := rfl
@[simp] theorem State.load_ctTag (bs : List Byte) (s : State) : (s.load bs).ctTag = none := rfl
@[simp] theorem State.load_icmp (bs : List Byte) (s : State) : (s.load bs).icmp = none := rfl
@[simp] theorem State.load_tcp (bs : List Byte) (s : State) : (s.load bs).tcp = none := rfl
@[simp] theorem State.load_udp (bs : List Byte) (s : State) : (s.load bs).udp = none := rfl
@[simp] theorem State.load_pay (bs : List Byte) (s : State) : (s.load bs).pay = none := rfl
@[simp] theorem State.load_errKind (bs : List Byte) (s : State) : (s.load bs).errKind = .none := rfl
@[simp] theorem State.load_errCause (bs : List Byte) (s : State) : (s.load bs).errCause = .none := rfl
@[simp] theorem State.load_rst (bs : List Byte) (s : State) : (s.load bs).rst = s.rst := rfl
@[simp] theorem State.load_req (bs : List Byte) (s : State) : (s.load bs).req = s.req := rfl
@[simp] theorem State.load_call (bs : List Byte) (s : State) : (s.load bs).call = s.call := rfl
@[simp] theorem State.load_out (bs : List Byte) (s : State) : (s.load bs).out = .nothing := rfl
@[simp] theorem State.load_frame (bs : List Byte) (s : State) : (s.load bs).frame = { fb := s.fb.writeAll 0 bs, len := bs.length } := rfl

/-! ### putEth -/

@[simp] theorem State.putEth_fb (g : EthRegs) (s : State) : (s.putEth g).fb = s.fb := rfl
@[simp] theorem State.putEth_frameLen (g : EthRegs) (s : State) : (s.putEth g).frameLen = s.frameLen := rfl
@[simp] theorem State.putEth_phase (g : EthRegs) (s : State) : (s.putEth g).phase = .ip := rfl
@[simp] theorem State.putEth_cur (g : EthRegs) (s : State) : (s.putEth g).cur = s.cur := rfl
@[simp] theorem State.putEth_eth (g : EthRegs) (s : State) : (s.putEth g).eth = some g := rfl
@[simp] theorem State.putEth_ip (g : EthRegs) (s : State) : (s.putEth g).ip = s.ip := rfl
@[simp] theorem State.putEth_ctTag (g : EthRegs) (s : State) : (s.putEth g).ctTag = s.ctTag := rfl
@[simp] theorem State.putEth_icmp (g : EthRegs) (s : State) : (s.putEth g).icmp = s.icmp := rfl
@[simp] theorem State.putEth_tcp (g : EthRegs) (s : State) : (s.putEth g).tcp = s.tcp := rfl
@[simp] theorem State.putEth_udp (g : EthRegs) (s : State) : (s.putEth g).udp = s.udp := rfl
@[simp] theorem State.putEth_pay (g : EthRegs) (s : State) : (s.putEth g).pay = s.pay := rfl
@[simp] theorem State.putEth_errKind (g : EthRegs) (s : State) : (s.putEth g).errKind = s.errKind := rfl
@[simp] theorem State.putEth_errCause (g : EthRegs) (s : State) : (s.putEth g).errCause = s.errCause := rfl
@[simp] theorem State.putEth_rst (g : EthRegs) (s : State) : (s.putEth g).rst = s.rst := rfl
@[simp] theorem State.putEth_req (g : EthRegs) (s : State) : (s.putEth g).req = s.req := rfl
@[simp] theorem State.putEth_call (g : EthRegs) (s : State) : (s.putEth g).call = s.call := rfl
@[simp] theorem State.putEth_out (g : EthRegs) (s : State) : (s.putEth g).out = .nothing := rfl
@[simp] theorem State.putEth_frame (g : EthRegs) (s : State) : (s.putEth g).frame = s.frame := rfl

/-! ### putIp -/

@[simp] theorem State.putIp_fb (g : Ipv4Regs) (s : State) : (s.putIp g).fb = s.fb := rfl
@[simp] theorem State.putIp_frameLen (g : Ipv4Regs) (s : State) : (s.putIp g).frameLen = s.frameLen := rfl
@[simp] theorem State.putIp_phase (g : Ipv4Regs) (s : State) : (s.putIp g).phase = .dispatch := rfl
@[simp] theorem State.putIp_cur (g : Ipv4Regs) (s : State) : (s.putIp g).cur = s.cur := rfl
@[simp] theorem State.putIp_eth (g : Ipv4Regs) (s : State) : (s.putIp g).eth = s.eth := rfl
@[simp] theorem State.putIp_ip (g : Ipv4Regs) (s : State) : (s.putIp g).ip = some g := rfl
@[simp] theorem State.putIp_ctTag (g : Ipv4Regs) (s : State) : (s.putIp g).ctTag = s.ctTag := rfl
@[simp] theorem State.putIp_icmp (g : Ipv4Regs) (s : State) : (s.putIp g).icmp = s.icmp := rfl
@[simp] theorem State.putIp_tcp (g : Ipv4Regs) (s : State) : (s.putIp g).tcp = s.tcp := rfl
@[simp] theorem State.putIp_udp (g : Ipv4Regs) (s : State) : (s.putIp g).udp = s.udp := rfl
@[simp] theorem State.putIp_pay (g : Ipv4Regs) (s : State) : (s.putIp g).pay = s.pay := rfl
@[simp] theorem State.putIp_errKind (g : Ipv4Regs) (s : State) : (s.putIp g).errKind = s.errKind := rfl
@[simp] theorem State.putIp_errCause (g : Ipv4Regs) (s : State) : (s.putIp g).errCause = s.errCause := rfl
@[simp] theorem State.putIp_rst (g : Ipv4Regs) (s : State) : (s.putIp g).rst = s.rst := rfl
@[simp] theorem State.putIp_req (g : Ipv4Regs) (s : State) : (s.putIp g).req = s.req := rfl
@[simp] theorem State.putIp_call (g : Ipv4Regs) (s : State) : (s.putIp g).call = s.call := rfl
@[simp] theorem State.putIp_out (g : Ipv4Regs) (s : State) : (s.putIp g).out = .nothing := rfl
@[simp] theorem State.putIp_frame (g : Ipv4Regs) (s : State) : (s.putIp g).frame = s.frame := rfl

/-! ### putContents -/

@[simp] theorem State.putContents_fb (t : ProtoTag) (s : State) : (s.putContents t).fb = s.fb := rfl
@[simp] theorem State.putContents_frameLen (t : ProtoTag) (s : State) : (s.putContents t).frameLen = s.frameLen := rfl
@[simp] theorem State.putContents_phase (t : ProtoTag) (s : State) : (s.putContents t).phase = phaseOf t := rfl
@[simp] theorem State.putContents_cur (t : ProtoTag) (s : State) : (s.putContents t).cur = s.cur := rfl
@[simp] theorem State.putContents_eth (t : ProtoTag) (s : State) : (s.putContents t).eth = s.eth := rfl
@[simp] theorem State.putContents_ip (t : ProtoTag) (s : State) : (s.putContents t).ip = s.ip := rfl
@[simp] theorem State.putContents_ctTag (t : ProtoTag) (s : State) : (s.putContents t).ctTag = some (contentsTagOf t) := rfl
@[simp] theorem State.putContents_icmp (t : ProtoTag) (s : State) : (s.putContents t).icmp = s.icmp := rfl
@[simp] theorem State.putContents_tcp (t : ProtoTag) (s : State) : (s.putContents t).tcp = s.tcp := rfl
@[simp] theorem State.putContents_udp (t : ProtoTag) (s : State) : (s.putContents t).udp = s.udp := rfl
@[simp] theorem State.putContents_pay (t : ProtoTag) (s : State) : (s.putContents t).pay = s.pay := rfl
@[simp] theorem State.putContents_errKind (t : ProtoTag) (s : State) : (s.putContents t).errKind = s.errKind := rfl
@[simp] theorem State.putContents_errCause (t : ProtoTag) (s : State) : (s.putContents t).errCause = s.errCause := rfl
@[simp] theorem State.putContents_rst (t : ProtoTag) (s : State) : (s.putContents t).rst = s.rst := rfl
@[simp] theorem State.putContents_req (t : ProtoTag) (s : State) : (s.putContents t).req = s.req := rfl
@[simp] theorem State.putContents_call (t : ProtoTag) (s : State) : (s.putContents t).call = s.call := rfl
@[simp] theorem State.putContents_out (t : ProtoTag) (s : State) : (s.putContents t).out = .nothing := rfl
@[simp] theorem State.putContents_frame (t : ProtoTag) (s : State) : (s.putContents t).frame = s.frame := rfl

/-! ### putIcmp -/

@[simp] theorem State.putIcmp_fb (x : IcmpRegs × Run) (s : State) : (s.putIcmp x).fb = s.fb := rfl
@[simp] theorem State.putIcmp_frameLen (x : IcmpRegs × Run) (s : State) : (s.putIcmp x).frameLen = s.frameLen := rfl
@[simp] theorem State.putIcmp_phase (x : IcmpRegs × Run) (s : State) : (s.putIcmp x).phase = .done := rfl
@[simp] theorem State.putIcmp_cur (x : IcmpRegs × Run) (s : State) : (s.putIcmp x).cur = s.cur := rfl
@[simp] theorem State.putIcmp_eth (x : IcmpRegs × Run) (s : State) : (s.putIcmp x).eth = s.eth := rfl
@[simp] theorem State.putIcmp_ip (x : IcmpRegs × Run) (s : State) : (s.putIcmp x).ip = s.ip := rfl
@[simp] theorem State.putIcmp_ctTag (x : IcmpRegs × Run) (s : State) : (s.putIcmp x).ctTag = s.ctTag := rfl
@[simp] theorem State.putIcmp_icmp (x : IcmpRegs × Run) (s : State) : (s.putIcmp x).icmp = some x.1 := rfl
@[simp] theorem State.putIcmp_tcp (x : IcmpRegs × Run) (s : State) : (s.putIcmp x).tcp = s.tcp := rfl
@[simp] theorem State.putIcmp_udp (x : IcmpRegs × Run) (s : State) : (s.putIcmp x).udp = s.udp := rfl
@[simp] theorem State.putIcmp_pay (x : IcmpRegs × Run) (s : State) : (s.putIcmp x).pay = some x.2 := rfl
@[simp] theorem State.putIcmp_errKind (x : IcmpRegs × Run) (s : State) : (s.putIcmp x).errKind = s.errKind := rfl
@[simp] theorem State.putIcmp_errCause (x : IcmpRegs × Run) (s : State) : (s.putIcmp x).errCause = s.errCause := rfl
@[simp] theorem State.putIcmp_rst (x : IcmpRegs × Run) (s : State) : (s.putIcmp x).rst = s.rst := rfl
@[simp] theorem State.putIcmp_req (x : IcmpRegs × Run) (s : State) : (s.putIcmp x).req = s.req := rfl
@[simp] theorem State.putIcmp_call (x : IcmpRegs × Run) (s : State) : (s.putIcmp x).call = s.call := rfl
@[simp] theorem State.putIcmp_out (x : IcmpRegs × Run) (s : State) : (s.putIcmp x).out = .nothing := rfl
@[simp] theorem State.putIcmp_frame (x : IcmpRegs × Run) (s : State) : (s.putIcmp x).frame = s.frame := rfl

/-! ### putTcp -/

@[simp] theorem State.putTcp_fb (x : TcpRegs × Run) (s : State) : (s.putTcp x).fb = s.fb := rfl
@[simp] theorem State.putTcp_frameLen (x : TcpRegs × Run) (s : State) : (s.putTcp x).frameLen = s.frameLen := rfl
@[simp] theorem State.putTcp_phase (x : TcpRegs × Run) (s : State) : (s.putTcp x).phase = .done := rfl
@[simp] theorem State.putTcp_cur (x : TcpRegs × Run) (s : State) : (s.putTcp x).cur = s.cur := rfl
@[simp] theorem State.putTcp_eth (x : TcpRegs × Run) (s : State) : (s.putTcp x).eth = s.eth := rfl
@[simp] theorem State.putTcp_ip (x : TcpRegs × Run) (s : State) : (s.putTcp x).ip = s.ip := rfl
@[simp] theorem State.putTcp_ctTag (x : TcpRegs × Run) (s : State) : (s.putTcp x).ctTag = s.ctTag := rfl
@[simp] theorem State.putTcp_icmp (x : TcpRegs × Run) (s : State) : (s.putTcp x).icmp = s.icmp := rfl
@[simp] theorem State.putTcp_tcp (x : TcpRegs × Run) (s : State) : (s.putTcp x).tcp = some x.1 := rfl
@[simp] theorem State.putTcp_udp (x : TcpRegs × Run) (s : State) : (s.putTcp x).udp = s.udp := rfl
@[simp] theorem State.putTcp_pay (x : TcpRegs × Run) (s : State) : (s.putTcp x).pay = some x.2 := rfl
@[simp] theorem State.putTcp_errKind (x : TcpRegs × Run) (s : State) : (s.putTcp x).errKind = s.errKind := rfl
@[simp] theorem State.putTcp_errCause (x : TcpRegs × Run) (s : State) : (s.putTcp x).errCause = s.errCause := rfl
@[simp] theorem State.putTcp_rst (x : TcpRegs × Run) (s : State) : (s.putTcp x).rst = s.rst := rfl
@[simp] theorem State.putTcp_req (x : TcpRegs × Run) (s : State) : (s.putTcp x).req = s.req := rfl
@[simp] theorem State.putTcp_call (x : TcpRegs × Run) (s : State) : (s.putTcp x).call = s.call := rfl
@[simp] theorem State.putTcp_out (x : TcpRegs × Run) (s : State) : (s.putTcp x).out = .nothing := rfl
@[simp] theorem State.putTcp_frame (x : TcpRegs × Run) (s : State) : (s.putTcp x).frame = s.frame := rfl

/-! ### putUdp -/

@[simp] theorem State.putUdp_fb (x : UdpRegs × Run) (s : State) : (s.putUdp x).fb = s.fb := rfl
@[simp] theorem State.putUdp_frameLen (x : UdpRegs × Run) (s : State) : (s.putUdp x).frameLen = s.frameLen := rfl
@[simp] theorem State.putUdp_phase (x : UdpRegs × Run) (s : State) : (s.putUdp x).phase = .done := rfl
@[simp] theorem State.putUdp_cur (x : UdpRegs × Run) (s : State) : (s.putUdp x).cur = s.cur := rfl
@[simp] theorem State.putUdp_eth (x : UdpRegs × Run) (s : State) : (s.putUdp x).eth = s.eth := rfl
@[simp] theorem State.putUdp_ip (x : UdpRegs × Run) (s : State) : (s.putUdp x).ip = s.ip := rfl
@[simp] theorem State.putUdp_ctTag (x : UdpRegs × Run) (s : State) : (s.putUdp x).ctTag = s.ctTag := rfl
@[simp] theorem State.putUdp_icmp (x : UdpRegs × Run) (s : State) : (s.putUdp x).icmp = s.icmp := rfl
@[simp] theorem State.putUdp_tcp (x : UdpRegs × Run) (s : State) : (s.putUdp x).tcp = s.tcp := rfl
@[simp] theorem State.putUdp_udp (x : UdpRegs × Run) (s : State) : (s.putUdp x).udp = some x.1 := rfl
@[simp] theorem State.putUdp_pay (x : UdpRegs × Run) (s : State) : (s.putUdp x).pay = some x.2 := rfl
@[simp] theorem State.putUdp_errKind (x : UdpRegs × Run) (s : State) : (s.putUdp x).errKind = s.errKind := rfl
@[simp] theorem State.putUdp_errCause (x : UdpRegs × Run) (s : State) : (s.putUdp x).errCause = s.errCause := rfl
@[simp] theorem State.putUdp_rst (x : UdpRegs × Run) (s : State) : (s.putUdp x).rst = s.rst := rfl
@[simp] theorem State.putUdp_req (x : UdpRegs × Run) (s : State) : (s.putUdp x).req = s.req := rfl
@[simp] theorem State.putUdp_call (x : UdpRegs × Run) (s : State) : (s.putUdp x).call = s.call := rfl
@[simp] theorem State.putUdp_out (x : UdpRegs × Run) (s : State) : (s.putUdp x).out = .nothing := rfl
@[simp] theorem State.putUdp_frame (x : UdpRegs × Run) (s : State) : (s.putUdp x).frame = s.frame := rfl

/-! ### takeReset -/

@[simp] theorem State.takeReset_fb (s : State) : (s.takeReset).fb = s.fb := rfl
@[simp] theorem State.takeReset_frameLen (s : State) : (s.takeReset).frameLen = 0 := rfl
@[simp] theorem State.takeReset_phase (s : State) : (s.takeReset).phase = .idle := rfl
@[simp] theorem State.takeReset_cur (s : State) : (s.takeReset).cur = 0 := rfl
@[simp] theorem State.takeReset_eth (s : State) : (s.takeReset).eth = none := rfl
@[simp] theorem State.takeReset_ip (s : State) : (s.takeReset).ip = none := rfl
@[simp] theorem State.takeReset_ctTag (s : State) : (s.takeReset).ctTag = none := rfl
@[simp] theorem State.takeReset_icmp (s : State) : (s.takeReset).icmp = none := rfl
@[simp] theorem State.takeReset_tcp (s : State) : (s.takeReset).tcp = none := rfl
@[simp] theorem State.takeReset_udp (s : State) : (s.takeReset).udp = none := rfl
@[simp] theorem State.takeReset_pay (s : State) : (s.takeReset).pay = none := rfl
@[simp] theorem State.takeReset_errKind (s : State) : (s.takeReset).errKind = .none := rfl
@[simp] theorem State.takeReset_errCause (s : State) : (s.takeReset).errCause = .none := rfl
@[simp] theorem State.takeReset_rst (s : State) : (s.takeReset).rst = false := rfl
@[simp] theorem State.takeReset_req (s : State) : (s.takeReset).req = s.req := rfl
@[simp] theorem State.takeReset_call (s : State) : (s.takeReset).call = [] := rfl
@[simp] theorem State.takeReset_out (s : State) : (s.takeReset).out = .nothing := rfl
@[simp] theorem State.takeReset_frame (s : State) : (s.takeReset).frame = { fb := s.fb, len := 0 } := rfl

/-! ### The frame of a state -/

@[simp] theorem State.frame_fb (s : State) : s.frame.fb = s.fb := rfl
@[simp] theorem State.frame_len (s : State) : s.frame.len = s.frameLen := rfl

end Sys2Proof.Machine
end

