-- ==== Sys2Proof/Laws/Memory.lean ====
section
/-! SUPPORT. The laws of the frame buffer: a write reads back, leaves every other address alone and keeps the canonical form, and two
memories in canonical form that read alike are equal. -/

namespace Sys2Proof.Machine

@[simp] theorem Memory.read_nil (a : Nat) : Memory.read [] a = unlistedByte := rfl

theorem Memory.read_cons (c : Host.Cell) (m : Memory) (a : Nat) :
    Memory.read (c :: m) a = if c.1 = a then c.2 else Memory.read m a := rfl

theorem Memory.wf_cons (c : Host.Cell) (m : Memory) :
    Memory.wf (c :: m) = true ↔ c.2 ≠ unlistedByte ∧ Memory.above m c.1 = true ∧ Memory.wf m = true := by
  simp [Memory.wf, and_assoc]

theorem Memory.above_iff (m : Memory) (a : Nat) : Memory.above m a = true ↔ ∀ c ∈ m, a < c.1 := by
  simp [Memory.above]

/-- An address below every entry is unlisted. -/
theorem Memory.read_of_above {m : Memory} {a b : Nat} (h : Memory.above m a = true) (hb : b ≤ a) :
    Memory.read m b = unlistedByte := by
  rw [Memory.above_iff] at h
  induction m with
  | nil => rfl
  | cons c m ih =>
    have hc := h c (by simp)
    rw [Memory.read_cons, if_neg (by omega)]
    exact ih (fun d hd => h d (by simp [hd]))

theorem mem_cellOf {c : Host.Cell} {a : Nat} {b : Byte} (h : c ∈ cellOf a b) : c = (a, b) ∧ b ≠ unlistedByte := by
  unfold cellOf at h
  split at h
  · simp at h
  · simp only [List.mem_singleton] at h
    exact ⟨h, by assumption⟩

/-- What an entry of a memory after a write can be. -/
theorem Memory.mem_write {m : Memory} {a : Nat} {b : Byte} {c : Host.Cell} (h : c ∈ Memory.write m a b) :
    c = (a, b) ∨ c ∈ m := by
  induction m with
  | nil => exact .inl (mem_cellOf h).1
  | cons d m ih =>
    unfold Memory.write at h
    split at h
    · rcases List.mem_cons.mp h with h | h
      · exact .inr (by simp [h])
      · exact (ih h).imp id (fun h => by simp [h])
    · split at h <;> rcases List.mem_append.mp h with h | h
      · exact .inl (mem_cellOf h).1
      · exact .inr (by simp [h])
      · exact .inl (mem_cellOf h).1
      · exact .inr h

theorem cellOf_append_wf {m : Memory} {a : Nat} (b : Byte) (ha : Memory.above m a = true) (h : Memory.wf m = true) :
    Memory.wf (cellOf a b ++ m) = true := by
  unfold cellOf
  split
  · simpa using h
  · exact (Memory.wf_cons _ _).mpr ⟨by assumption, ha, h⟩

/-- A write keeps the canonical form. -/
theorem Memory.write_wf {m : Memory} (a : Nat) (b : Byte) (h : Memory.wf m = true) : Memory.wf (Memory.write m a b) = true := by
  induction m with
  | nil => simpa [Memory.write] using cellOf_append_wf (m := []) b rfl rfl
  | cons c m ih =>
    obtain ⟨hne, hab, hm⟩ := (Memory.wf_cons c m).mp h
    unfold Memory.write
    split
    · rename_i hlt
      refine (Memory.wf_cons _ _).mpr ⟨hne, (Memory.above_iff _ _).mpr fun d hd => ?_, ih hm⟩
      rcases Memory.mem_write hd with rfl | hd
      · exact hlt
      · exact (Memory.above_iff _ _).mp hab d hd
    · split
      · rename_i heq
        exact cellOf_append_wf b (heq ▸ hab) hm
      · refine cellOf_append_wf b ((Memory.above_iff _ _).mpr fun d hd => ?_) h
        rcases List.mem_cons.mp hd with rfl | hd
        · omega
        · have := (Memory.above_iff _ _).mp hab d hd
          omega

theorem read_cellOf_append {m : Memory} {a : Nat} (b : Byte) (x : Nat) (ha : Memory.above m a = true) :
    Memory.read (cellOf a b ++ m) x = if x = a then b else Memory.read m x := by
  unfold cellOf
  split
  · split
    · subst x b
      simpa using Memory.read_of_above ha (Nat.le_refl a)
    · rfl
  · simp only [List.singleton_append, Memory.read_cons, eq_comm]

/-- A read after a write, at every address. -/
theorem Memory.read_write {m : Memory} (a : Nat) (b : Byte) (x : Nat) (h : Memory.wf m = true) :
    Memory.read (Memory.write m a b) x = if x = a then b else Memory.read m x := by
  induction m with
  | nil => simpa [Memory.write] using read_cellOf_append (m := []) b x rfl
  | cons c m ih =>
    obtain ⟨-, hab, hm⟩ := (Memory.wf_cons c m).mp h
    unfold Memory.write
    split
    · rw [Memory.read_cons, ih hm, Memory.read_cons]
      split <;> split <;> first | rfl | omega
    · split
      · rename_i heq
        rw [read_cellOf_append b x (heq ▸ hab), Memory.read_cons]
        split <;> [rfl; rw [if_neg (by omega)]]
      · refine read_cellOf_append b x ((Memory.above_iff _ _).mpr fun d hd => ?_)
        rcases List.mem_cons.mp hd with rfl | hd
        · omega
        · have := (Memory.above_iff _ _).mp hab d hd
          omega

/-- The writes of `LOAD_FRAME` keep the canonical form. -/
theorem Memory.writeAll_wf {m : Memory} (a : Nat) (bs : List Byte) (h : Memory.wf m = true) :
    Memory.wf (Memory.writeAll m a bs) = true := by
  induction bs generalizing m a with
  | nil => exact h
  | cons b bs ih => exact ih (a + 1) (Memory.write_wf a b h)

/-- What an entry of a memory after the writes of `LOAD_FRAME` can be. -/
theorem Memory.mem_writeAll {m : Memory} {a : Nat} {bs : List Byte} {c : Host.Cell} (h : c ∈ Memory.writeAll m a bs) :
    (a ≤ c.1 ∧ c.1 < a + bs.length) ∨ c ∈ m := by
  induction bs generalizing m a with
  | nil => exact .inr h
  | cons b bs ih =>
    rcases ih h with h | h
    · exact .inl ⟨by omega, by simp only [List.length_cons]; omega⟩
    · rcases Memory.mem_write h with rfl | h
      · exact .inl ⟨Nat.le_refl _, by simp⟩
      · exact .inr h

/-- Every address after the writes of `LOAD_FRAME`: the byte of the sequence inside it, as before outside it. -/
theorem Memory.read_writeAll {m : Memory} (a : Nat) (bs : List Byte) (x : Nat) (h : Memory.wf m = true) :
    Memory.read (Memory.writeAll m a bs) x =
      if a ≤ x then bs.getD (x - a) (Memory.read m x) else Memory.read m x := by
  induction bs generalizing m a with
  | nil => simp [Memory.writeAll]
  | cons b bs ih =>
    rw [Memory.writeAll, ih (a + 1) (Memory.write_wf a b h), Memory.read_write a b x h]
    by_cases h1 : x = a
    · subst x
      simp
    · by_cases h2 : a + 1 ≤ x
      · obtain ⟨k, rfl⟩ : ∃ k, x = a + 1 + k := ⟨x - (a + 1), by omega⟩
        have e1 : a + 1 + k - (a + 1) = k := by omega
        have e2 : a + 1 + k - a = k + 1 := by omega
        rw [if_pos h2, if_pos (by omega : a ≤ a + 1 + k), if_neg h1, e1, e2]
        simp
      · rw [if_neg h2, if_neg h1, if_neg (by omega)]

/-- Two memories in canonical form that read alike are equal. -/
theorem Memory.ext_read {m m' : Memory} (h : Memory.wf m = true) (h' : Memory.wf m' = true)
    (hr : ∀ a, Memory.read m a = Memory.read m' a) : m = m' := by
  induction m generalizing m' with
  | nil =>
    cases m' with
    | nil => rfl
    | cons c m' =>
      obtain ⟨hne, -, -⟩ := (Memory.wf_cons c m').mp h'
      exact absurd (by simpa [Memory.read_cons] using (hr c.1).symm) hne
  | cons c m ih =>
    obtain ⟨hne, hab, hm⟩ := (Memory.wf_cons c m).mp h
    cases m' with
    | nil => exact absurd (by simpa [Memory.read_cons] using hr c.1) hne
    | cons d m' =>
      obtain ⟨hne', hab', hm'⟩ := (Memory.wf_cons d m').mp h'
      have hcd : c.1 = d.1 := by
        rcases Nat.lt_trichotomy c.1 d.1 with hlt | heq | hlt
        · refine absurd ?_ hne
          have := hr c.1
          rw [Memory.read_cons, if_pos rfl, Memory.read_cons, if_neg (by omega), Memory.read_of_above hab' (by omega)] at this
          exact this
        · exact heq
        · refine absurd ?_ hne'
          have := hr d.1
          rw [Memory.read_cons, if_neg (by omega), Memory.read_cons, if_pos rfl, Memory.read_of_above hab (by omega)] at this
          exact this.symm
      have hb : c.2 = d.2 := by
        have := hr c.1
        rwa [Memory.read_cons, if_pos rfl, Memory.read_cons, if_pos hcd.symm] at this
      have htail : m = m' := by
        refine ih hm hm' fun a => ?_
        by_cases ha : a ≤ c.1
        · rw [Memory.read_of_above hab ha, Memory.read_of_above hab' (hcd ▸ ha)]
        · have := hr a
          rwa [Memory.read_cons, if_neg (by omega), Memory.read_cons, if_neg (by omega)] at this
      rw [htail, Prod.ext hcd hb]

/-- The memory after reset is in canonical form. -/
theorem reset_fb_wf : State.reset.fb.wf = true := rfl

end Sys2Proof.Machine
end

