-- ==== Sys2Proof/Laws/Cursor.lean ====
section
/-! SUPPORT. What a cursor operation can do: how `andThen` composes, the value and the cursor of every primitive, the bounds of the
cursor, the causes of a failure, and that nothing at or above FRAME_LEN is looked at. -/

namespace Sys2Proof.Machine

variable {α β : Type} {f g : Frame} {p q n : Nat}

/-! ### `andThen` -/

@[simp] theorem Res.ok_andThen (v : α) (p : Nat) (k : α → Nat → Res β) : (Res.ok v p).andThen k = k v p := rfl
@[simp] theorem Res.fail_andThen (c : ErrCause) (p : Nat) (k : α → Nat → Res β) :
    (Res.fail c p : Res α).andThen k = .fail c p := rfl
@[simp] theorem Res.stop_andThen (r : Refusal) (k : α → Nat → Res β) : (Res.stop r : Res α).andThen k = .stop r := rfl

/-- A sequence answers a value when both of its parts do. -/
theorem Res.andThen_eq_ok {x : Res α} {k : α → Nat → Res β} {v : β} :
    x.andThen k = .ok v q ↔ ∃ a p, x = .ok a p ∧ k a p = .ok v q := by
  cases x <;> simp

/-- A sequence fails when its first part fails, or its second part fails after the first. -/
theorem Res.andThen_eq_fail {x : Res α} {k : α → Nat → Res β} {c : ErrCause} :
    x.andThen k = .fail c q ↔ x = .fail c q ∨ ∃ a p, x = .ok a p ∧ k a p = .fail c q := by
  cases x <;> simp

/-! ### The tests -/

theorem aligned_of (h : p % 8 = 0) (x : Res α) : aligned p x = x := if_pos h
theorem aligned_not (h : p % 8 ≠ 0) (x : Res α) : aligned p x = .stop .unalignedCursor := if_neg h
theorem bitRead_enough (h : p + n ≤ 8 * f.len) (v : α) : bitRead f p n v = .ok v (p + n) := if_neg (by omega)
theorem bitRead_short (h : 8 * f.len < p + n) (v : α) : bitRead f p n v = .fail .insufficientData p := if_pos h

/-! ### The primitives with enough input at a cursor they admit -/

theorem rdU8_ok (ha : p % 8 = 0) (h : p + 8 ≤ 8 * f.len) : rdU8 f p = .ok (f.byte (p / 8)) (p + 8) := by
  rw [rdU8, aligned_of ha, bitRead_enough h]

theorem rdU16_ok (ha : p % 8 = 0) (h : p + 16 ≤ 8 * f.len) :
    rdU16 f p = .ok (BitVec.ofNat 16 (be (f.bytes (p / 8) 2))) (p + 16) := by
  rw [rdU16, aligned_of ha, bitRead_enough h]

theorem rdU32_ok (ha : p % 8 = 0) (h : p + 32 ≤ 8 * f.len) :
    rdU32 f p = .ok (BitVec.ofNat 32 (be (f.bytes (p / 8) 4))) (p + 32) := by
  rw [rdU32, aligned_of ha, bitRead_enough h]

theorem rdBits_ok (hn : 1 ≤ n ∧ n ≤ 32) (h : p + n ≤ 8 * f.len) :
    rdBits f p n = .ok (BitVec.ofNat n (f.bits p n)) (p + n) := by
  rw [rdBits, if_pos hn, bitRead_enough h]

theorem rdBit_ok (h : p + 1 ≤ 8 * f.len) : rdBit f p = .ok (f.sbit p) (p + 1) := bitRead_enough h _

theorem take_ok (ha : p % 8 = 0) (h : p + 8 * n ≤ 8 * f.len) : take f p n = .ok { off := p / 8, len := n } (p + 8 * n) := by
  rw [take, aligned_of ha, bitRead_enough h]

theorem skip_ok (ha : p % 8 = 0) (h : p + 8 * n ≤ 8 * f.len) : skip f p n = .ok () (p + 8 * n) := by
  rw [skip, aligned_of ha, bitRead_enough h]

theorem takeRest_ok (ha : p % 8 = 0) (h : p ≤ 8 * f.len) :
    takeRest f p = .ok { off := p / 8, len := f.len - p / 8 } (8 * f.len) := by
  rw [takeRest, aligned_of ha, if_pos h]

/-! ### The primitives without enough input: the cursor is unchanged (R131) -/

theorem rdU8_short (ha : p % 8 = 0) (h : 8 * f.len < p + 8) : rdU8 f p = .fail .insufficientData p := by
  rw [rdU8, aligned_of ha, bitRead_short h]

theorem rdU16_short (ha : p % 8 = 0) (h : 8 * f.len < p + 16) : rdU16 f p = .fail .insufficientData p := by
  rw [rdU16, aligned_of ha, bitRead_short h]

theorem rdU32_short (ha : p % 8 = 0) (h : 8 * f.len < p + 32) : rdU32 f p = .fail .insufficientData p := by
  rw [rdU32, aligned_of ha, bitRead_short h]

theorem rdBits_short (hn : 1 ≤ n ∧ n ≤ 32) (h : 8 * f.len < p + n) : rdBits f p n = .fail .insufficientData p := by
  rw [rdBits, if_pos hn, bitRead_short h]

theorem rdBit_short (h : 8 * f.len < p + 1) : rdBit f p = .fail .insufficientData p := bitRead_short h _

theorem take_short (ha : p % 8 = 0) (h : 8 * f.len < p + 8 * n) : take f p n = .fail .insufficientData p := by
  rw [take, aligned_of ha, bitRead_short h]

theorem skip_short (ha : p % 8 = 0) (h : 8 * f.len < p + 8 * n) : skip f p n = .fail .insufficientData p := by
  rw [skip, aligned_of ha, bitRead_short h]

/-! ### Where the cursor can end (R139) -/

/-- The cursor that an operation answers lies inside the frame. -/
def Res.Within (f : Frame) : Res α → Prop
  | .ok _ q => q ≤ 8 * f.len
  | .fail _ q => q ≤ 8 * f.len
  | .stop _ => True

theorem Res.within_andThen {x : Res α} {k : α → Nat → Res β} (hx : x.Within f)
    (hk : ∀ v q, q ≤ 8 * f.len → (k v q).Within f) : (x.andThen k).Within f := by
  cases x with
  | ok v q => exact hk v q hx
  | fail c q => exact hx
  | stop r => exact hx

theorem within_aligned {x : Res α} (hx : x.Within f) : (aligned p x).Within f := by
  unfold aligned
  split
  · exact hx
  · trivial

theorem within_bitRead (h : p ≤ 8 * f.len) (v : α) : (bitRead f p n v).Within f := by
  unfold bitRead
  split
  · exact h
  · simp only [Res.Within]; omega

theorem within_rdU8 (h : p ≤ 8 * f.len) : (rdU8 f p).Within f := within_aligned (within_bitRead h _)
theorem within_rdU16 (h : p ≤ 8 * f.len) : (rdU16 f p).Within f := within_aligned (within_bitRead h _)
theorem within_rdU32 (h : p ≤ 8 * f.len) : (rdU32 f p).Within f := within_aligned (within_bitRead h _)
theorem within_rdBit (h : p ≤ 8 * f.len) : (rdBit f p).Within f := within_bitRead h _
theorem within_take (h : p ≤ 8 * f.len) : (take f p n).Within f := within_aligned (within_bitRead h _)
theorem within_skip (h : p ≤ 8 * f.len) : (skip f p n).Within f := within_aligned (within_bitRead h _)

theorem within_rdBits (h : p ≤ 8 * f.len) : (rdBits f p n).Within f := by
  unfold rdBits
  split
  · exact within_bitRead h _
  · trivial

theorem within_takeRest : (takeRest f p).Within f := by
  refine within_aligned ?_
  split
  · exact Nat.le_refl _
  · trivial

theorem within_decodeMac (h : p ≤ 8 * f.len) : (decodeMac f p).Within f :=
  Res.within_andThen (within_take h) fun _ _ hq => hq

theorem within_decodeEther (h : p ≤ 8 * f.len) : (decodeEther f p).Within f :=
  Res.within_andThen (within_decodeMac h) fun _ _ h => Res.within_andThen (within_decodeMac h) fun _ _ h =>
    Res.within_andThen (within_rdU16 h) fun _ _ h => h

theorem within_decodeTos (h : p ≤ 8 * f.len) : (decodeTos f p).Within f :=
  within_aligned <| Res.within_andThen (within_rdBits h) fun _ _ h => Res.within_andThen (within_rdBit h) fun _ _ h =>
    Res.within_andThen (within_rdBit h) fun _ _ h => Res.within_andThen (within_rdBit h) fun _ _ h =>
    Res.within_andThen (within_rdBits h) fun _ _ h => h

theorem within_ite {c : Prop} [Decidable c] {x y : Res α} (hx : x.Within f) (hy : y.Within f) :
    (if c then x else y).Within f := by
  split <;> assumption

theorem within_decodeIpv4 (h : p ≤ 8 * f.len) : (decodeIpv4 f p).Within f :=
  within_aligned <| Res.within_andThen (within_rdBits h) fun _ _ h => within_ite h <|
    Res.within_andThen (within_rdBits h) fun _ _ h => within_ite h <|
    Res.within_andThen (within_decodeTos h) fun _ _ h => Res.within_andThen (within_rdU16 h) fun _ _ h =>
    Res.within_andThen (within_rdU16 h) fun _ _ h => Res.within_andThen (within_rdBit h) fun _ _ h =>
    Res.within_andThen (within_rdBit h) fun _ _ h => Res.within_andThen (within_rdBit h) fun _ _ h =>
    Res.within_andThen (within_rdBits h) fun _ _ h => Res.within_andThen (within_rdU8 h) fun _ _ h =>
    Res.within_andThen (within_rdU8 h) fun _ _ h => Res.within_andThen (within_rdU16 h) fun _ _ h =>
    Res.within_andThen (within_rdU32 h) fun _ _ h => Res.within_andThen (within_rdU32 h) fun _ _ h =>
    Res.within_andThen (within_skip h) fun _ _ h => h

theorem within_decodeIcmp (h : p ≤ 8 * f.len) : (decodeIcmp f p).Within f :=
  Res.within_andThen (within_rdU8 h) fun _ _ h => Res.within_andThen (within_rdU8 h) fun _ _ h =>
    Res.within_andThen (within_rdU16 h) fun _ _ h => h

theorem within_decodeTcp (h : p ≤ 8 * f.len) : (decodeTcp f p).Within f :=
  Res.within_andThen (within_rdU16 h) fun _ _ h => Res.within_andThen (within_rdU16 h) fun _ _ h =>
    Res.within_andThen (within_rdU32 h) fun _ _ h => Res.within_andThen (within_rdU32 h) fun _ _ h =>
    Res.within_andThen (within_rdBits h) fun _ _ h => within_ite h <|
    Res.within_andThen (within_rdBits h) fun _ _ h => Res.within_andThen (within_rdBits h) fun _ _ h =>
    Res.within_andThen (within_rdBit h) fun _ _ h => Res.within_andThen (within_rdBit h) fun _ _ h =>
    Res.within_andThen (within_rdBit h) fun _ _ h => Res.within_andThen (within_rdBit h) fun _ _ h =>
    Res.within_andThen (within_rdBit h) fun _ _ h => Res.within_andThen (within_rdBit h) fun _ _ h =>
    Res.within_andThen (within_rdU16 h) fun _ _ h => Res.within_andThen (within_rdU16 h) fun _ _ h =>
    Res.within_andThen (within_rdU16 h) fun _ _ h => Res.within_andThen (within_skip h) fun _ _ h => h

theorem within_decodeUdp (h : p ≤ 8 * f.len) : (decodeUdp f p).Within f :=
  Res.within_andThen (within_rdU16 h) fun _ _ h => Res.within_andThen (within_rdU16 h) fun _ _ h =>
    Res.within_andThen (within_rdU16 h) fun _ _ h => within_ite h <|
    Res.within_andThen (within_rdU16 h) fun _ _ h => Res.within_andThen (within_take h) fun _ _ h => h

theorem within_withRest {x : Res α} (hx : x.Within f) : (withRest f x).Within f :=
  Res.within_andThen hx fun _ _ _ => Res.within_andThen within_takeRest fun _ _ h => h

/-! ### Why an operation can fail (R131, R232) -/

/-- The cause of a failure is one of the listed ones. -/
def Res.FailsIn (cs : List ErrCause) : Res α → Prop
  | .ok _ _ => True
  | .fail c _ => c ∈ cs
  | .stop _ => True

theorem Res.failsIn_andThen {cs : List ErrCause} {x : Res α} {k : α → Nat → Res β} (hx : x.FailsIn cs)
    (hk : ∀ v q, (k v q).FailsIn cs) : (x.andThen k).FailsIn cs := by
  cases x with
  | ok v q => exact hk v q
  | fail c q => exact hx
  | stop r => exact hx

theorem failsIn_aligned {cs : List ErrCause} {x : Res α} (hx : x.FailsIn cs) : (aligned p x).FailsIn cs := by
  unfold aligned
  split
  · exact hx
  · trivial

theorem failsIn_bitRead {cs : List ErrCause} (h : .insufficientData ∈ cs) (v : α) : (bitRead f p n v).FailsIn cs := by
  unfold bitRead
  split
  · exact h
  · trivial

theorem failsIn_ite {cs : List ErrCause} {c : Prop} [Decidable c] {x y : Res α} (hx : x.FailsIn cs) (hy : y.FailsIn cs) :
    (if c then x else y).FailsIn cs := by
  split <;> assumption

section
variable {cs : List ErrCause} (h : .insufficientData ∈ cs)
include h

theorem failsIn_rdU8 : (rdU8 f p).FailsIn cs := failsIn_aligned (failsIn_bitRead h _)
theorem failsIn_rdU16 : (rdU16 f p).FailsIn cs := failsIn_aligned (failsIn_bitRead h _)
theorem failsIn_rdU32 : (rdU32 f p).FailsIn cs := failsIn_aligned (failsIn_bitRead h _)
theorem failsIn_rdBit : (rdBit f p).FailsIn cs := failsIn_bitRead h _
theorem failsIn_rdBits : (rdBits f p n).FailsIn cs := failsIn_ite (failsIn_bitRead h _) trivial
theorem failsIn_take : (take f p n).FailsIn cs := failsIn_aligned (failsIn_bitRead h _)
theorem failsIn_skip : (skip f p n).FailsIn cs := failsIn_aligned (failsIn_bitRead h _)

theorem failsIn_decodeMac : (decodeMac f p).FailsIn cs := Res.failsIn_andThen (failsIn_take h) fun _ _ => trivial

end

theorem failsIn_takeRest (cs : List ErrCause) : (takeRest f p).FailsIn cs := failsIn_aligned (failsIn_ite trivial trivial)

theorem failsIn_decodeEther : (decodeEther f p).FailsIn [.insufficientData] :=
  Res.failsIn_andThen (failsIn_decodeMac (by simp)) fun _ _ => Res.failsIn_andThen (failsIn_decodeMac (by simp)) fun _ _ =>
    Res.failsIn_andThen (failsIn_rdU16 (by simp)) fun _ _ => trivial

theorem failsIn_decodeTos {cs : List ErrCause} (h : .insufficientData ∈ cs) : (decodeTos f p).FailsIn cs :=
  failsIn_aligned <| Res.failsIn_andThen (failsIn_rdBits h) fun _ _ => Res.failsIn_andThen (failsIn_rdBit h) fun _ _ =>
    Res.failsIn_andThen (failsIn_rdBit h) fun _ _ => Res.failsIn_andThen (failsIn_rdBit h) fun _ _ =>
    Res.failsIn_andThen (failsIn_rdBits h) fun _ _ => trivial

theorem failsIn_decodeIpv4 : (decodeIpv4 f p).FailsIn [.insufficientData, .badVersion, .headerLengthTooSmall] := by
  have h : ErrCause.insufficientData ∈ [ErrCause.insufficientData, .badVersion, .headerLengthTooSmall] := by simp
  exact failsIn_aligned <| Res.failsIn_andThen (failsIn_rdBits h) fun _ _ => failsIn_ite (by simp [Res.FailsIn]) <|
    Res.failsIn_andThen (failsIn_rdBits h) fun _ _ => failsIn_ite (by simp [Res.FailsIn]) <|
    Res.failsIn_andThen (failsIn_decodeTos h) fun _ _ => Res.failsIn_andThen (failsIn_rdU16 h) fun _ _ =>
    Res.failsIn_andThen (failsIn_rdU16 h) fun _ _ => Res.failsIn_andThen (failsIn_rdBit h) fun _ _ =>
    Res.failsIn_andThen (failsIn_rdBit h) fun _ _ => Res.failsIn_andThen (failsIn_rdBit h) fun _ _ =>
    Res.failsIn_andThen (failsIn_rdBits h) fun _ _ => Res.failsIn_andThen (failsIn_rdU8 h) fun _ _ =>
    Res.failsIn_andThen (failsIn_rdU8 h) fun _ _ => Res.failsIn_andThen (failsIn_rdU16 h) fun _ _ =>
    Res.failsIn_andThen (failsIn_rdU32 h) fun _ _ => Res.failsIn_andThen (failsIn_rdU32 h) fun _ _ =>
    Res.failsIn_andThen (failsIn_skip h) fun _ _ => trivial

theorem failsIn_decodeIcmp : (decodeIcmp f p).FailsIn [.insufficientData] :=
  Res.failsIn_andThen (failsIn_rdU8 (by simp)) fun _ _ => Res.failsIn_andThen (failsIn_rdU8 (by simp)) fun _ _ =>
    Res.failsIn_andThen (failsIn_rdU16 (by simp)) fun _ _ => trivial

theorem failsIn_decodeTcp : (decodeTcp f p).FailsIn [.insufficientData, .dataOffsetTooSmall] := by
  have h : ErrCause.insufficientData ∈ [ErrCause.insufficientData, .dataOffsetTooSmall] := by simp
  exact Res.failsIn_andThen (failsIn_rdU16 h) fun _ _ => Res.failsIn_andThen (failsIn_rdU16 h) fun _ _ =>
    Res.failsIn_andThen (failsIn_rdU32 h) fun _ _ => Res.failsIn_andThen (failsIn_rdU32 h) fun _ _ =>
    Res.failsIn_andThen (failsIn_rdBits h) fun _ _ => failsIn_ite (by simp [Res.FailsIn]) <|
    Res.failsIn_andThen (failsIn_rdBits h) fun _ _ => Res.failsIn_andThen (failsIn_rdBits h) fun _ _ =>
    Res.failsIn_andThen (failsIn_rdBit h) fun _ _ => Res.failsIn_andThen (failsIn_rdBit h) fun _ _ =>
    Res.failsIn_andThen (failsIn_rdBit h) fun _ _ => Res.failsIn_andThen (failsIn_rdBit h) fun _ _ =>
    Res.failsIn_andThen (failsIn_rdBit h) fun _ _ => Res.failsIn_andThen (failsIn_rdBit h) fun _ _ =>
    Res.failsIn_andThen (failsIn_rdU16 h) fun _ _ => Res.failsIn_andThen (failsIn_rdU16 h) fun _ _ =>
    Res.failsIn_andThen (failsIn_rdU16 h) fun _ _ => Res.failsIn_andThen (failsIn_skip h) fun _ _ => trivial

theorem failsIn_decodeUdp : (decodeUdp f p).FailsIn [.insufficientData, .lengthTooSmall] := by
  have h : ErrCause.insufficientData ∈ [ErrCause.insufficientData, .lengthTooSmall] := by simp
  exact Res.failsIn_andThen (failsIn_rdU16 h) fun _ _ => Res.failsIn_andThen (failsIn_rdU16 h) fun _ _ =>
    Res.failsIn_andThen (failsIn_rdU16 h) fun _ _ => failsIn_ite (by simp [Res.FailsIn]) <|
    Res.failsIn_andThen (failsIn_rdU16 h) fun _ _ => Res.failsIn_andThen (failsIn_take h) fun _ _ => trivial

theorem failsIn_withRest {cs : List ErrCause} {x : Res α} (hx : x.FailsIn cs) : (withRest f x).FailsIn cs :=
  Res.failsIn_andThen hx fun _ _ => Res.failsIn_andThen (failsIn_takeRest cs) fun _ _ => trivial

/-! ### Nothing at or above FRAME_LEN is looked at (R70) -/

/-- Two frames of one length with the same valid bytes. -/
def Frame.Agrees (f g : Frame) : Prop := f.len = g.len ∧ ∀ a, a < f.len → f.byte a = g.byte a

theorem Frame.Agrees.bytes (h : f.Agrees g) {a : Nat} (hn : a + n ≤ f.len) : f.bytes a n = g.bytes a n := by
  induction n generalizing a with
  | zero => rfl
  | succ n ih => rw [Frame.bytes, Frame.bytes, h.2 a (by omega), ih (by omega)]

theorem Frame.Agrees.sbit (h : f.Agrees g) (hp : p < 8 * f.len) : f.sbit p = g.sbit p := by
  rw [Frame.sbit, Frame.sbit, h.2 _ (by omega)]

theorem Frame.Agrees.bits (h : f.Agrees g) (hp : p + n ≤ 8 * f.len) : f.bits p n = g.bits p n := by
  induction n with
  | zero => rfl
  | succ n ih => rw [Frame.bits, Frame.bits, ih (by omega), h.sbit (by omega)]

theorem Frame.Agrees.bitRead (h : f.Agrees g) {v w : α} (hv : p + n ≤ 8 * f.len → v = w) :
    bitRead f p n v = bitRead g p n w := by
  by_cases hs : 8 * f.len < p + n
  · rw [bitRead_short hs, bitRead_short (h.1 ▸ hs)]
  · rw [bitRead_enough (by omega), bitRead_enough (by rw [← h.1]; omega), hv (by omega)]

theorem Frame.Agrees.aligned {x y : Res α} (h : p % 8 = 0 → x = y) : Machine.aligned p x = Machine.aligned p y := by
  unfold Machine.aligned
  split
  · exact h (by assumption)
  · rfl

theorem Frame.Agrees.rdU8 (h : f.Agrees g) : Machine.rdU8 f p = Machine.rdU8 g p :=
  Frame.Agrees.aligned fun _ => h.bitRead fun _ => h.2 _ (by omega)

theorem Frame.Agrees.rdU16 (h : f.Agrees g) : Machine.rdU16 f p = Machine.rdU16 g p :=
  Frame.Agrees.aligned fun _ => h.bitRead fun _ => by rw [h.bytes (by omega)]

theorem Frame.Agrees.rdU32 (h : f.Agrees g) : Machine.rdU32 f p = Machine.rdU32 g p :=
  Frame.Agrees.aligned fun _ => h.bitRead fun _ => by rw [h.bytes (by omega)]

theorem Frame.Agrees.rdBits (h : f.Agrees g) : Machine.rdBits f p n = Machine.rdBits g p n := by
  unfold Machine.rdBits
  split
  · exact h.bitRead fun hp => by rw [h.bits hp]
  · rfl

theorem Frame.Agrees.rdBit (h : f.Agrees g) : Machine.rdBit f p = Machine.rdBit g p := h.bitRead fun hp => h.sbit (by omega)
theorem Frame.Agrees.take (h : f.Agrees g) : Machine.take f p n = Machine.take g p n :=
  Frame.Agrees.aligned fun _ => h.bitRead fun _ => rfl
theorem Frame.Agrees.skip (h : f.Agrees g) : Machine.skip f p n = Machine.skip g p n :=
  Frame.Agrees.aligned fun _ => h.bitRead fun _ => rfl
theorem Frame.Agrees.takeRest (h : f.Agrees g) : Machine.takeRest f p = Machine.takeRest g p := by
  simp only [Machine.takeRest, h.1]

theorem Res.andThen_congr {x y : Res α} {k l : α → Nat → Res β} (hx : x = y) (hk : ∀ v q, x = .ok v q → k v q = l v q) :
    x.andThen k = y.andThen l := by
  subst hx
  cases x with
  | ok v q => exact hk v q rfl
  | fail c q => rfl
  | stop r => rfl

/-- A byte run that `TAKE` answers lies inside the frame. -/
theorem take_eq_ok {w : Run} (h : take f p n = .ok w q) : w.len = n ∧ w.off + w.len ≤ f.len := by
  by_cases ha : p % 8 = 0
  · by_cases hl : p + 8 * n ≤ 8 * f.len
    · rw [take_ok ha hl] at h
      cases h
      exact ⟨rfl, by dsimp only; omega⟩
    · rw [take_short ha (by omega)] at h
      cases h
  · rw [take, aligned_not ha] at h
    cases h

/-- The byte run that `TAKE_REST` answers lies inside the frame. -/
theorem takeRest_eq_ok {w : Run} (h : takeRest f p = .ok w q) : w.off + w.len ≤ f.len := by
  by_cases ha : p % 8 = 0
  · by_cases hl : p ≤ 8 * f.len
    · rw [takeRest_ok ha hl] at h
      cases h
      dsimp only
      omega
    · rw [takeRest, aligned_of ha, if_neg hl] at h
      cases h
  · rw [takeRest, aligned_not ha] at h
    cases h

theorem Frame.Agrees.decodeMac (h : f.Agrees g) : Machine.decodeMac f p = Machine.decodeMac g p :=
  Res.andThen_congr h.take fun _ _ e => by rw [h.bytes (take_eq_ok e).2]

theorem Frame.Agrees.decodeEther (h : f.Agrees g) : Machine.decodeEther f p = Machine.decodeEther g p := by
  simp only [Machine.decodeEther, h.decodeMac, h.rdU16]

theorem Frame.Agrees.decodeTos (h : f.Agrees g) : Machine.decodeTos f p = Machine.decodeTos g p := by
  refine Frame.Agrees.aligned fun ha => ?_
  by_cases hl : p + 3 ≤ 8 * f.len
  · simp only [h.rdBits, h.rdBit, h.2 (p / 8) (by omega)]
  · rw [rdBits_short (by omega) (by omega), rdBits_short (by omega) (by rw [← h.1]; omega)]
    rfl

theorem Frame.Agrees.decodeIpv4 (h : f.Agrees g) : Machine.decodeIpv4 f p = Machine.decodeIpv4 g p := by
  simp only [Machine.decodeIpv4, h.rdBits, h.rdBit, h.decodeTos, h.rdU8, h.rdU16, h.rdU32, h.skip]

theorem Frame.Agrees.decodeIcmp (h : f.Agrees g) : Machine.decodeIcmp f p = Machine.decodeIcmp g p := by
  simp only [Machine.decodeIcmp, h.rdU8, h.rdU16]

theorem Frame.Agrees.decodeTcp (h : f.Agrees g) : Machine.decodeTcp f p = Machine.decodeTcp g p := by
  simp only [Machine.decodeTcp, h.rdBits, h.rdBit, h.rdU16, h.rdU32, h.skip]

theorem Frame.Agrees.decodeUdp (h : f.Agrees g) : Machine.decodeUdp f p = Machine.decodeUdp g p := by
  simp only [Machine.decodeUdp, h.rdU16, h.take]

theorem Frame.Agrees.withRest (h : f.Agrees g) (x : Res α) : Machine.withRest f x = Machine.withRest g x := by
  simp only [Machine.withRest, h.takeRest]

end Sys2Proof.Machine
end

