-- ==== Sys2Proof/Laws/Decode.lean ====
section
/-! SUPPORT. The laws of the decoder's and encoder's parts: byte order, splitting off operand bytes, the layouts read and written, and
what it means for a selector row to be the first one that a value meets. -/

namespace Sys2Proof

/-! ### Byte order -/

@[simp] theorem toBe_length (k v : Nat) : (toBe k v).length = k := by
  induction k with
  | zero => rfl
  | succ k ih => rw [toBe, List.length_cons, ih]

theorem foldl_be (bs : List Byte) (a : Nat) :
    bs.foldl (fun acc b => acc * 256 + b.toNat) a = a * 256 ^ bs.length + be bs := by
  induction bs generalizing a with
  | nil => simp [be]
  | cons b bs ih =>
    have h := ih b.toNat
    simp only [be, List.foldl_cons, List.length_cons] at *
    rw [ih (a * 256 + b.toNat), Nat.zero_mul, Nat.zero_add, h, Nat.pow_succ]
    ring

@[simp] theorem be_nil : be [] = 0 := rfl

/-- The first byte is the most significant one. -/
theorem be_cons (b : Byte) (bs : List Byte) : be (b :: bs) = b.toNat * 256 ^ bs.length + be bs := by
  rw [be, List.foldl_cons, foldl_be, Nat.zero_mul, Nat.zero_add]

theorem be_lt (bs : List Byte) : be bs < 256 ^ bs.length := by
  induction bs with
  | nil => simp
  | cons b bs ih =>
    rw [be_cons, List.length_cons, Nat.pow_succ]
    have := b.isLt
    nlinarith

/-- Reading back the `k` low bytes of a number. -/
theorem be_toBe (k v : Nat) : be (toBe k v) = v % 256 ^ k := by
  induction k with
  | zero => simp [toBe, Nat.mod_one]
  | succ k ih =>
    have h : v % 256 ^ (k + 1) = v % 256 ^ k + 256 ^ k * (v / 256 ^ k % 256) := Nat.mod_mul
    rw [h, toBe, be_cons, ih, toBe_length, BitVec.toNat_ofNat, Nat.mul_comm, Nat.add_comm]

theorem be_toBe_of_lt {k v : Nat} (h : v < 256 ^ k) : be (toBe k v) = v := by
  rw [be_toBe, Nat.mod_eq_of_lt h]

/-- Writing the value of bytes gives the bytes back. -/
theorem toBe_be_add (bs : List Byte) (a : Nat) : toBe bs.length (a * 256 ^ bs.length + be bs) = bs := by
  induction bs generalizing a with
  | nil => rfl
  | cons b bs ih =>
    have hp : 0 < 256 ^ bs.length := Nat.pow_pos (by norm_num)
    have e : a * 256 ^ (bs.length + 1) + be (b :: bs) = (a * 256 + b.toNat) * 256 ^ bs.length + be bs := by
      rw [be_cons, Nat.pow_succ]
      ring
    rw [List.length_cons, e, toBe, ih, Nat.mul_comm, Nat.mul_add_div hp, Nat.div_eq_of_lt (be_lt bs), Nat.add_zero]
    congr 1
    apply BitVec.eq_of_toNat_eq
    rw [BitVec.toNat_ofNat]
    have := b.isLt
    omega

theorem toBe_be (bs : List Byte) : toBe bs.length (be bs) = bs := by
  simpa using toBe_be_add bs 0

/-! ### Splitting off operand bytes -/

theorem splitBytes_eq_some {k : Nat} {bs xs rest : List Byte} :
    splitBytes k bs = some (xs, rest) ↔ xs.length = k ∧ bs = xs ++ rest := by
  induction k generalizing bs xs rest with
  | zero =>
    simp only [splitBytes, Option.some.injEq, Prod.mk.injEq, List.length_eq_zero_iff]
    constructor
    · rintro ⟨rfl, rfl⟩; simp
    · rintro ⟨rfl, rfl⟩; simp
  | succ k ih =>
    cases bs with
    | nil =>
      simp only [splitBytes, false_iff, reduceCtorEq]
      rintro ⟨h, e⟩
      cases xs
      · simp at h
      · simp at e
    | cons b bs =>
      simp only [splitBytes, Option.map_eq_some_iff, Prod.exists]
      constructor
      · rintro ⟨ys, r, h, e⟩
        obtain ⟨h1, h2⟩ := ih.mp h
        obtain ⟨e1, e2⟩ := Prod.mk.inj e
        rw [← e1, ← e2, h2, List.length_cons, h1]
        exact ⟨rfl, rfl⟩
      · rintro ⟨h, e⟩
        cases xs with
        | nil => simp at h
        | cons x xs =>
          simp only [List.cons_append, List.cons.injEq] at e
          obtain ⟨rfl, rfl⟩ := e
          exact ⟨xs, rest, ih.mpr ⟨by simpa using h, rfl⟩, rfl⟩

theorem splitBytes_append (xs rest : List Byte) : splitBytes xs.length (xs ++ rest) = some (xs, rest) :=
  splitBytes_eq_some.mpr ⟨rfl, rfl⟩

/-- An operand written in `k` bytes reads back. -/
theorem withOperand_toBe {k v : Nat} (h : v < 256 ^ k) (rest : List Byte) (f : Nat → List Byte → Decoded) :
    withOperand k (toBe k v ++ rest) f = f v rest := by
  have := splitBytes_append (toBe k v) rest
  rw [toBe_length] at this
  rw [withOperand, this]
  simp only [be_toBe_of_lt h]

/-- What a decoded operand is: some value below `256 ^ k`, whose bytes stand in front. -/
theorem withOperand_eq_ok {k : Nat} {bs rest : List Byte} {f : Nat → List Byte → Decoded} {i : Instr}
    (h : withOperand k bs f = .ok i rest) : ∃ v r, v < 256 ^ k ∧ bs = toBe k v ++ r ∧ f v r = .ok i rest := by
  unfold withOperand at h
  split at h
  · cases h
  · rename_i xs r hs
    obtain ⟨rfl, rfl⟩ := splitBytes_eq_some.mp hs
    exact ⟨be xs, r, be_lt xs, by rw [toBe_be], h⟩

/-- A run of bytes behind its length reads back. -/
theorem withBytes_toBe {xs : List Byte} (h : xs.length < 256 ^ 4) (rest : List Byte) (f : List Byte → Instr) :
    withBytes (toBe 4 xs.length ++ (xs ++ rest)) f = .ok (f xs) rest := by
  rw [withBytes, withOperand_toBe h, splitBytes_append]

theorem withBytes_eq_ok {bs rest : List Byte} {f : List Byte → Instr} {i : Instr} (h : withBytes bs f = .ok i rest) :
    ∃ xs : List Byte, xs.length < 256 ^ 4 ∧ bs = toBe 4 xs.length ++ (xs ++ rest) ∧ i = f xs := by
  unfold withBytes at h
  obtain ⟨v, r, hv, rfl, h'⟩ := withOperand_eq_ok h
  clear h
  split at h'
  · cases h'
  · rename_i xs r' hs
    obtain ⟨rfl, rfl⟩ := splitBytes_eq_some.mp hs
    cases h'
    exact ⟨xs, hv, rfl, rfl⟩

/-! ### Layouts (R91 to R96): a format read from its own bits gives its fields, and its fields give the bits -/

theorem extract_high {a b s n : Nat} (x : BitVec a) (y : BitVec b) (h : b ≤ s) :
    (x ++ y).extractLsb' s n = x.extractLsb' (s - b) n := by
  ext i hi
  rw [BitVec.getElem_extractLsb', BitVec.getElem_extractLsb', BitVec.getLsbD_append, if_neg (by omega)]
  congr 1
  omega

theorem extract_low {a b s n : Nat} (x : BitVec a) (y : BitVec b) (h : s + n ≤ b) :
    (x ++ y).extractLsb' s n = y.extractLsb' s n := by
  ext i hi
  rw [BitVec.getElem_extractLsb', BitVec.getElem_extractLsb', BitVec.getLsbD_append, if_pos (by omega)]

theorem bit_high {a b s : Nat} (x : BitVec a) (y : BitVec b) (h : b ≤ s) :
    (x ++ y).getLsbD s = x.getLsbD (s - b) := by
  rw [BitVec.getLsbD_append, if_neg (by omega)]

theorem bit_low {a b s : Nat} (x : BitVec a) (y : BitVec b) (h : s < b) : (x ++ y).getLsbD s = y.getLsbD s := by
  rw [BitVec.getLsbD_append, if_pos h]

theorem extract_all {n : Nat} (w : BitVec n) : w.extractLsb' 0 n = w := by
  ext i hi
  simp

theorem ofBool_bit (b : Bool) : (BitVec.ofBool b).getLsbD 0 = b := by cases b <;> rfl

theorem EthWord.ofBits_toBits (x : EthWord) : EthWord.ofBits x.toBits = x := by
  simp (disch := omega) only [EthWord.ofBits, EthWord.toBits, extract_high, extract_low, Nat.reduceSub, extract_all]

theorem TosWord.ofBits_toBits (x : TosWord) : TosWord.ofBits x.toBits = x := by
  simp (disch := omega) only [TosWord.ofBits, TosWord.toBits, extract_high, extract_low, bit_high, bit_low, Nat.reduceSub,
    extract_all, ofBool_bit]

theorem IcmpWord.ofBits_toBits (x : IcmpWord) : IcmpWord.ofBits x.toBits = x := by
  simp (disch := omega) only [IcmpWord.ofBits, IcmpWord.toBits, extract_high, extract_low, Nat.reduceSub, extract_all]

theorem UdpWord.ofBits_toBits (x : UdpWord) : UdpWord.ofBits x.toBits = x := by
  simp (disch := omega) only [UdpWord.ofBits, UdpWord.toBits, extract_high, extract_low, Nat.reduceSub, extract_all]

theorem TcpWord.ofBits_toBits (x : TcpWord) : TcpWord.ofBits x.toBits = x := by
  simp (disch := omega) only [TcpWord.ofBits, TcpWord.toBits, extract_high, extract_low, bit_high, bit_low, Nat.reduceSub,
    extract_all, ofBool_bit]

theorem Ipv4Word.ofBits_toBits (x : Ipv4Word) : Ipv4Word.ofBits x.toBits = x := by
  simp (disch := omega) only [Ipv4Word.ofBits, Ipv4Word.toBits, extract_high, extract_low, bit_high, bit_low, Nat.reduceSub,
    extract_all, ofBool_bit, TosWord.ofBits_toBits]

/-- The version nibble of layout IPV4 is the fixed `0100` (R92, R106). -/
theorem Ipv4Word.toBits_version (x : Ipv4Word) : x.toBits.extractLsb' 156 4 = 4 := by
  simp (disch := omega) only [Ipv4Word.toBits, extract_high, Nat.reduceSub, extract_all]

theorem ofBool_getLsbD {n : Nat} (w : BitVec n) (i : Nat) : BitVec.ofBool (w.getLsbD i) = w.extractLsb' i 1 := by
  ext j hj
  obtain rfl : j = 0 := by omega
  simp

theorem extract_append {n : Nat} (w : BitVec n) {s a b k : Nat} (h : k = s + a) :
    w.extractLsb' k b ++ w.extractLsb' s a = w.extractLsb' s (b + a) := by
  subst h
  exact BitVec.extractLsb'_append_extractLsb'_eq_extractLsb' rfl

theorem EthWord.toBits_ofBits (w : BitVec 112) : (EthWord.ofBits w).toBits = w := by
  simp only [EthWord.ofBits, EthWord.toBits]
  simp (disch := omega) only [extract_append]
  exact extract_all w

theorem TosWord.toBits_ofBits (w : Byte) : (TosWord.ofBits w).toBits = w := by
  simp only [TosWord.ofBits, TosWord.toBits, ofBool_getLsbD]
  simp (disch := omega) only [extract_append]
  exact extract_all w

theorem IcmpWord.toBits_ofBits (w : BitVec 32) : (IcmpWord.ofBits w).toBits = w := by
  simp only [IcmpWord.ofBits, IcmpWord.toBits]
  simp (disch := omega) only [extract_append]
  exact extract_all w

theorem UdpWord.toBits_ofBits (w : BitVec 64) : (UdpWord.ofBits w).toBits = w := by
  simp only [UdpWord.ofBits, UdpWord.toBits]
  simp (disch := omega) only [extract_append]
  exact extract_all w

theorem TcpWord.toBits_ofBits (w : BitVec 160) : (TcpWord.ofBits w).toBits = w := by
  simp only [TcpWord.ofBits, TcpWord.toBits, ofBool_getLsbD]
  simp (disch := omega) only [extract_append]
  exact extract_all w

theorem Ipv4Word.toBits_ofBits (w : BitVec 160) (h : w.extractLsb' 156 4 = 4) : (Ipv4Word.ofBits w).toBits = w := by
  simp only [Ipv4Word.ofBits, Ipv4Word.toBits, TosWord.toBits_ofBits, ofBool_getLsbD]
  rw [← h]
  simp (disch := omega) only [extract_append]
  exact extract_all w

/-! ### Selector rows as intervals (R98 to R101) -/

/-- Keeping the bits from `k` up. -/
theorem and_mask_toNat {n : Nat} (v : BitVec n) (k : Nat) :
    (v &&& (BitVec.allOnes n <<< k)).toNat = v.toNat / 2 ^ k * 2 ^ k := by
  have e : v &&& (BitVec.allOnes n <<< k) = (v >>> k) <<< k := by
    ext i hi
    simp only [BitVec.getElem_and, BitVec.getElem_shiftLeft, BitVec.getElem_allOnes]
    by_cases h : i < k
    · simp [h]
    · simp [h, Nat.add_sub_cancel' (Nat.le_of_not_lt h), hi]
  rw [e, BitVec.toNat_shiftLeft, BitVec.toNat_ushiftRight, Nat.shiftRight_eq_div_pow, Nat.shiftLeft_eq, Nat.mod_eq_of_lt]
  exact Nat.lt_of_le_of_lt (Nat.div_mul_le_self _ _) v.isLt

/-- A row whose mask is the bits from `k` up is met by an interval of `2 ^ k` values. -/
theorem hits_interval {n : Nat} (v : BitVec n) {k : Nat} {r : SelRow n} (hm : r.mask = BitVec.allOnes n <<< k) :
    r.hits v = decide (v.toNat / 2 ^ k * 2 ^ k = r.value.toNat) := by
  rw [SelRow.hits, hm, Bool.eq_iff_iff, beq_iff_eq, decide_eq_true_eq, ← and_mask_toNat, BitVec.toNat_inj]

/-- The rows of the EtherType selector. -/
theorem etype_firstHit (v : BitVec 16) : firstHit etypeRows v =
    if v.toNat = 0x800 then 0 else if v.toNat < 1024 then 1 else if v.toNat < 1280 then 2 else if v.toNat < 1408 then 3
    else if v.toNat < 1472 then 4 else if v.toNat < 1488 then 5 else if v.toNat < 1496 then 6 else if v.toNat < 1500 then 7
    else if v.toNat = 1500 then 8 else 9 := by
  have hv := v.isLt
  simp only [firstHit, etypeRows, List.findIdx_cons, List.findIdx_nil]
  rw [hits_interval v (k := 0) (by decide), hits_interval v (k := 10) (by decide), hits_interval v (k := 8) (by decide),
    hits_interval v (k := 7) (by decide), hits_interval v (k := 6) (by decide), hits_interval v (k := 4) (by decide),
    hits_interval v (k := 3) (by decide), hits_interval v (k := 2) (by decide), hits_interval v (k := 0) (by decide),
    hits_interval v (k := 16) (by decide)]
  simp only [Bool.cond_decide, BitVec.reduceToNat]
  generalize v.toNat = x at hv ⊢
  rw [if_pos (show x / 2 ^ 16 * 2 ^ 16 = 0 by omega)]
  refine ite_congr (by simp) (fun _ => rfl) fun h0 => ?_
  by_cases h1 : x < 1024
  · rw [if_pos (by omega), if_pos h1]
  rw [if_neg (by omega), if_neg h1]
  by_cases h2 : x < 1280
  · rw [if_pos (by omega), if_pos h2]
  rw [if_neg (by omega), if_neg h2]
  by_cases h3 : x < 1408
  · rw [if_pos (by omega), if_pos h3]
  rw [if_neg (by omega), if_neg h3]
  by_cases h4 : x < 1472
  · rw [if_pos (by omega), if_pos h4]
  rw [if_neg (by omega), if_neg h4]
  by_cases h5 : x < 1488
  · rw [if_pos (by omega), if_pos h5]
  rw [if_neg (by omega), if_neg h5]
  by_cases h6 : x < 1496
  · rw [if_pos (by omega), if_pos h6]
  rw [if_neg (by omega), if_neg h6]
  by_cases h7 : x < 1500
  · rw [if_pos (by omega), if_pos h7]
  rw [if_neg (by omega), if_neg h7]
  by_cases h8 : x = 1500
  · rw [if_pos (by omega), if_pos h8]
  rw [if_neg (by omega), if_neg h8]

/-- The rows of the EtherType selector as a case analysis that linear arithmetic can use. -/
theorem etype_cases (v : BitVec 16) :
    v.toNat = 0x800 ∧ firstHit etypeRows v = 0 ∨ v.toNat < 1024 ∧ firstHit etypeRows v = 1 ∨
    1024 ≤ v.toNat ∧ v.toNat < 1280 ∧ firstHit etypeRows v = 2 ∨ 1280 ≤ v.toNat ∧ v.toNat < 1408 ∧ firstHit etypeRows v = 3 ∨
    1408 ≤ v.toNat ∧ v.toNat < 1472 ∧ firstHit etypeRows v = 4 ∨ 1472 ≤ v.toNat ∧ v.toNat < 1488 ∧ firstHit etypeRows v = 5 ∨
    1488 ≤ v.toNat ∧ v.toNat < 1496 ∧ firstHit etypeRows v = 6 ∨ 1496 ≤ v.toNat ∧ v.toNat < 1500 ∧ firstHit etypeRows v = 7 ∨
    v.toNat = 1500 ∧ firstHit etypeRows v = 8 ∨ 1500 < v.toNat ∧ v.toNat ≠ 0x800 ∧ firstHit etypeRows v = 9 := by
  rw [etype_firstHit]
  generalize v.toNat = x
  by_cases h0 : x = 0x800
  · rw [if_pos h0]; omega
  by_cases h1 : x < 1024
  · rw [if_neg h0, if_pos h1]; omega
  by_cases h2 : x < 1280
  · rw [if_neg h0, if_neg h1, if_pos h2]; omega
  by_cases h3 : x < 1408
  · rw [if_neg h0, if_neg h1, if_neg h2, if_pos h3]; omega
  by_cases h4 : x < 1472
  · rw [if_neg h0, if_neg h1, if_neg h2, if_neg h3, if_pos h4]; omega
  by_cases h5 : x < 1488
  · rw [if_neg h0, if_neg h1, if_neg h2, if_neg h3, if_neg h4, if_pos h5]; omega
  by_cases h6 : x < 1496
  · rw [if_neg h0, if_neg h1, if_neg h2, if_neg h3, if_neg h4, if_neg h5, if_pos h6]; omega
  by_cases h7 : x < 1500
  · rw [if_neg h0, if_neg h1, if_neg h2, if_neg h3, if_neg h4, if_neg h5, if_neg h6, if_pos h7]; omega
  by_cases h8 : x = 1500
  · rw [if_neg h0, if_neg h1, if_neg h2, if_neg h3, if_neg h4, if_neg h5, if_neg h6, if_neg h7, if_pos h8]; omega
  · rw [if_neg h0, if_neg h1, if_neg h2, if_neg h3, if_neg h4, if_neg h5, if_neg h6, if_neg h7, if_neg h8]; omega

/-- The rows of the UDP length selector. -/
theorem udplen_firstHit (v : BitVec 16) : firstHit udplenRows v = if v.toNat < 8 then 0 else 1 := by
  have hv := v.isLt
  simp only [firstHit, udplenRows, List.findIdx_cons, List.findIdx_nil]
  rw [hits_interval v (k := 3) (by decide), hits_interval v (k := 16) (by decide)]
  simp only [Bool.cond_decide, BitVec.reduceToNat]
  repeat' split
  all_goals first | rfl | omega

/-- The rows of the version selector. -/
theorem ipver_firstHit (v : BitVec 4) : firstHit ipverRows v = if v = 4 then 0 else 1 := by
  revert v
  decide

/-- The rows of the two minimum-length selectors. -/
theorem minWords_firstHit (v : BitVec 4) :
    firstHit minWordsRows v = if v.toNat < 4 then 0 else if v.toNat = 4 then 1 else 2 := by
  revert v
  decide

/-- The rows of the protocol selector. -/
theorem proto_firstHit (v : BitVec 8) :
    firstHit protoRows v = if v = 0x01 then 0 else if v = 0x06 then 1 else if v = 0x11 then 2 else 3 := by
  revert v
  decide

end Sys2Proof
end

