-- ==== Sys2Proof/Laws/Bits.lean ====
section
/-! SUPPORT. The laws of stream bits and byte runs of a frame: they split, they are bounded, bits inside one byte are a slice of it, and
aligned bits are the big-endian value of their bytes. -/

namespace Sys2Proof.Machine

variable (f : Frame)

@[simp] theorem Frame.bytes_length (a n : Nat) : (f.bytes a n).length = n := by
  induction n generalizing a with
  | zero => rfl
  | succ n ih => rw [Frame.bytes, List.length_cons, ih]

/-- The bytes of a run one by one. -/
theorem Frame.bytes_eq_map (a n : Nat) : f.bytes a n = (List.range n).map fun i => f.fb.read (a + i) := by
  induction n generalizing a with
  | zero => rfl
  | succ n ih =>
    rw [Frame.bytes, ih, List.range_succ_eq_map, List.map_cons, List.map_map]
    congr 1
    exact List.map_congr_left fun i _ => congrArg f.fb.read (by omega)

theorem Frame.bytes_add (a m n : Nat) : f.bytes a (m + n) = f.bytes a m ++ f.bytes (a + m) n := by
  induction m generalizing a with
  | zero => simp [Frame.bytes]
  | succ m ih => rw [Nat.succ_add, Frame.bytes, ih, Frame.bytes, List.cons_append, Nat.succ_add_eq_add_succ a m]

theorem be_append (xs ys : List Byte) : be (xs ++ ys) = be xs * 256 ^ ys.length + be ys := by
  rw [be, List.foldl_append, foldl_be]
  rfl

/-- One more byte at the end of a run. -/
theorem Frame.be_bytes_succ (a n : Nat) : be (f.bytes a (n + 1)) = be (f.bytes a n) * 256 + (f.byte (a + n)).toNat := by
  rw [Frame.bytes_add, be_append]
  simp [Frame.bytes, be_cons]

theorem Frame.be_bytes_lt (a n : Nat) : be (f.bytes a n) < 256 ^ n := by
  simpa using be_lt (f.bytes a n)

/-- Stream bits split (R142). -/
theorem Frame.bits_add (p a b : Nat) : f.bits p (a + b) = f.bits p a * 2 ^ b + f.bits (p + a) b := by
  induction b with
  | zero => simp [Frame.bits]
  | succ b ih =>
    rw [← Nat.add_assoc, Frame.bits, ih, Frame.bits, Nat.pow_succ, Nat.add_assoc p a b]
    ring

theorem Frame.bits_lt (p n : Nat) : f.bits p n < 2 ^ n := by
  induction n with
  | zero => simp [Frame.bits]
  | succ n ih =>
    rw [Frame.bits, Nat.pow_succ]
    have := Bool.toNat_le (f.sbit (p + n))
    omega

/-- Stream bit `8a + k` is bit `7 - k` of byte `a` (R13). -/
theorem Frame.sbit_of {a k : Nat} (h : k < 8) : f.sbit (8 * a + k) = (f.byte a).getLsbD (7 - k) := by
  rw [Frame.sbit, show (8 * a + k) / 8 = a by omega, show (8 * a + k) % 8 = k by omega]

/-- Bits inside one byte are a slice of it. -/
theorem Frame.bits_of {a k n : Nat} (h : k + n ≤ 8) :
    f.bits (8 * a + k) n = (f.byte a).toNat / 2 ^ (8 - (k + n)) % 2 ^ n := by
  induction n with
  | zero => simp [Frame.bits, Nat.mod_one]
  | succ n ih =>
    have hs : (f.sbit (8 * a + k + n)).toNat = (f.byte a).toNat / 2 ^ (7 - (k + n)) % 2 := by
      rw [Nat.add_assoc, f.sbit_of (by omega), BitVec.getLsbD, Nat.testBit_eq_decide_div_mod_eq]
      have := Nat.mod_two_eq_zero_or_one ((f.byte a).toNat / 2 ^ (7 - (k + n)))
      rcases this with h | h <;> simp [h]
    rw [Frame.bits, ih (by omega), hs, show 8 - (k + (n + 1)) = 7 - (k + n) by omega,
      show 8 - (k + n) = 7 - (k + n) + 1 by omega, Nat.pow_succ 2 (7 - (k + n)), ← Nat.div_div_eq_div_mul, Nat.pow_succ 2 n,
      Nat.mul_comm (2 ^ n) 2, Nat.mod_mul]
    omega

/-- The eight bits of a byte. -/
theorem Frame.bits_byte (a : Nat) : f.bits (8 * a) 8 = (f.byte a).toNat := by
  have := f.bits_of (a := a) (k := 0) (n := 8) (by omega)
  rw [Nat.add_zero] at this
  rw [this]
  have := (f.byte a).isLt
  omega

/-- Aligned bits are the big-endian value of their bytes (R142). -/
theorem Frame.bits_bytes (a n : Nat) : f.bits (8 * a) (8 * n) = be (f.bytes a n) := by
  induction n with
  | zero => rfl
  | succ n ih => rw [Nat.mul_succ, f.bits_add, ih, ← Nat.mul_add, f.bits_byte, f.be_bytes_succ, show 2 ^ 8 = 256 from rfl]

/-! ### Fields of the number that a run of bytes stands for (R91 to R96 read as big-endian numbers) -/

theorem extract_ofNat {N s w : Nat} (v : Nat) (h : s + w ≤ N) :
    (BitVec.ofNat N v).extractLsb' s w = BitVec.ofNat w (v / 2 ^ s) := by
  ext i hi
  rw [BitVec.getElem_extractLsb', BitVec.getLsbD_ofNat, ← BitVec.getLsbD_eq_getElem, BitVec.getLsbD_ofNat,
    Nat.testBit_div_two_pow]
  simp only [hi, Nat.add_comm, decide_true, Bool.true_and, Bool.and_eq_right_iff_imp, decide_eq_true_eq]
  intro _
  omega

theorem ofNat_mod (w v : Nat) : BitVec.ofNat w (v % 2 ^ w) = BitVec.ofNat w v := by
  apply BitVec.eq_of_toNat_eq
  simp

/-- The bytes `x .. x+y-1` of a run of `x + y + z` bytes, cut out of the run's number. -/
theorem Frame.be_slice (a : Nat) {n x y z : Nat} (hn : n = x + y + z) :
    BitVec.ofNat (8 * y) (be (f.bytes a n) / 2 ^ (8 * z)) = BitVec.ofNat (8 * y) (be (f.bytes (a + x) y)) := by
  subst hn
  have e : (2 : Nat) ^ (8 * z) = 256 ^ z := by rw [Nat.pow_mul]
  have e2 : (2 : Nat) ^ (8 * y) = 256 ^ y := by rw [Nat.pow_mul]
  rw [← ofNat_mod, f.bytes_add a (x + y) z, f.bytes_add a x y, be_append, be_append, e, e2]
  simp only [Frame.bytes_length]
  rw [Nat.add_comm (_ * _), Nat.add_mul_div_right _ _ (by positivity), Nat.div_eq_of_lt (f.be_bytes_lt _ _), Nat.zero_add,
    Nat.add_comm, Nat.add_mul_mod_self_right, Nat.mod_eq_of_lt (f.be_bytes_lt _ _)]

/-- A field of whole bytes. -/
theorem Frame.field (a : Nat) {n N x y z s w : Nat} (hn : n = x + y + z) (hs : s = 8 * z) (hw : w = 8 * y) (hN : N = 8 * n) :
    (BitVec.ofNat N (be (f.bytes a n))).extractLsb' s w = BitVec.ofNat w (be (f.bytes (a + x) y)) := by
  subst hw
  rw [extract_ofNat _ (by omega), hs, f.be_slice a hn]

theorem Frame.be_one (a : Nat) : BitVec.ofNat 8 (be (f.bytes a 1)) = f.byte a := by
  simp [Frame.bytes, be_cons]

/-- A field of one bit. -/
theorem Frame.field_bit (a : Nat) {n N x z s j : Nat} (hn : n = x + 1 + z) (hj : j < 8) (hs : s = 8 * z + j) (hN : N = 8 * n) :
    (BitVec.ofNat N (be (f.bytes a n))).getLsbD s = (f.byte (a + x)).getLsbD j := by
  have e := f.field a (s := 8 * z) (w := 8) hn rfl rfl hN
  rw [f.be_one] at e
  rw [← e, BitVec.getLsbD_extractLsb', hs]
  simp [hj]

/-- A field inside one byte. -/
theorem Frame.field_bits (a : Nat) {n N x z s j w : Nat} (hn : n = x + 1 + z) (hj : j + w ≤ 8) (hs : s = 8 * z + j)
    (hN : N = 8 * n) :
    (BitVec.ofNat N (be (f.bytes a n))).extractLsb' s w = BitVec.ofNat w ((f.byte (a + x)).toNat / 2 ^ j) := by
  have e := f.field a (s := 8 * z) (w := 8) hn rfl rfl hN
  rw [f.be_one] at e
  have eb : BitVec.ofNat 8 (f.byte (a + x)).toNat = f.byte (a + x) := by simp
  rw [← extract_ofNat (N := 8) _ hj, eb, ← e]
  ext i hi
  have hji : j + i < 8 := by omega
  simp [hs, hji, Nat.add_assoc]

end Sys2Proof.Machine
end

