-- ==== Sys2Proof/Laws/Decoders.lean ====
section
/-! SUPPORT. The layer decoders in closed form: on a header that is whole they answer its fields, each from its byte positions, and a
cursor behind it; on one that is cut short, or invalid, they fail where 60_exceptions R235 says. Positions are in bytes (`8 * a`). -/

namespace Sys2Proof.Machine

variable {f : Frame} {a k n : Nat}

/-! ### The primitives at a byte position -/

theorem rdU8_at (h : a + 1 ≤ f.len) : rdU8 f (8 * a) = .ok (f.byte a) (8 * (a + 1)) := by
  rw [rdU8_ok (by omega) (by omega), show 8 * a / 8 = a by omega, Nat.mul_add]

theorem rdU16_at (h : a + 2 ≤ f.len) : rdU16 f (8 * a) = .ok (BitVec.ofNat 16 (be (f.bytes a 2))) (8 * (a + 2)) := by
  rw [rdU16_ok (by omega) (by omega), show 8 * a / 8 = a by omega, Nat.mul_add]

theorem rdU32_at (h : a + 4 ≤ f.len) : rdU32 f (8 * a) = .ok (BitVec.ofNat 32 (be (f.bytes a 4))) (8 * (a + 4)) := by
  rw [rdU32_ok (by omega) (by omega), show 8 * a / 8 = a by omega, Nat.mul_add]

theorem rdBit_at (h : a + 1 ≤ f.len) (hk : k < 8) :
    rdBit f (8 * a + k) = .ok ((f.byte a).getLsbD (7 - k)) (8 * a + (k + 1)) := by
  rw [rdBit_ok (by omega), f.sbit_of hk, Nat.add_assoc]

theorem rdBits_at (h : a + 1 ≤ f.len) (h1 : 1 ≤ n) (hk : k + n ≤ 8) :
    rdBits f (8 * a + k) n =
      .ok (BitVec.ofNat n ((f.byte a).toNat / 2 ^ (8 - (k + n)) % 2 ^ n)) (8 * a + (k + n)) := by
  rw [rdBits_ok (by omega) (by omega), f.bits_of hk, Nat.add_assoc]

theorem take_at (h : a + n ≤ f.len) : take f (8 * a) n = .ok { off := a, len := n } (8 * (a + n)) := by
  rw [take_ok (by omega) (by omega), show 8 * a / 8 = a by omega, Nat.mul_add]

theorem skip_at (h : a + n ≤ f.len) : skip f (8 * a) n = .ok () (8 * (a + n)) := by
  rw [skip_ok (by omega) (by omega), Nat.mul_add]

theorem takeRest_at (h : a ≤ f.len) : takeRest f (8 * a) = .ok { off := a, len := f.len - a } (8 * f.len) := by
  rw [takeRest_ok (by omega) (by omega), show 8 * a / 8 = a by omega]

/-! ### Ethernet (R151, R154) -/

theorem decodeMac_at (h : a + 6 ≤ f.len) :
    decodeMac f (8 * a) = .ok (BitVec.ofNat 48 (be (f.bytes a 6))) (8 * (a + 6)) := by
  rw [decodeMac, take_at h, Res.ok_andThen]

theorem decodeMac_short (h : f.len < a + 6) : decodeMac f (8 * a) = .fail .insufficientData (8 * a) := by
  rw [decodeMac, take_short (by omega) (by omega), Res.fail_andThen]

/-- The Ethernet group of the header at byte `a`. -/
def Frame.ethAt (f : Frame) (a : Nat) : EthRegs :=
  { dst := BitVec.ofNat 48 (be (f.bytes a 6)), src := BitVec.ofNat 48 (be (f.bytes (a + 6) 6)),
    typeVal := BitVec.ofNat 16 (be (f.bytes (a + 12) 2)), typeTag := etherTagOf (BitVec.ofNat 16 (be (f.bytes (a + 12) 2))) }

theorem decodeEther_at (h : a + 14 ≤ f.len) : decodeEther f (8 * a) = .ok (f.ethAt a) (8 * (a + 14)) := by
  rw [decodeEther, decodeMac_at (by omega), Res.ok_andThen, decodeMac_at (by omega), Res.ok_andThen, rdU16_at (by omega)]
  rfl

theorem decodeEther_short (h : f.len < a + 14) :
    decodeEther f (8 * a) = .fail .insufficientData
      (8 * a + if f.len < a + 6 then 0 else if f.len < a + 12 then 48 else 96) := by
  rw [decodeEther]
  split_ifs with h1 h2
  · rw [decodeMac_short h1, Res.fail_andThen, Nat.add_zero]
  · rw [decodeMac_at (by omega), Res.ok_andThen, decodeMac_short (by omega), Res.fail_andThen, Nat.mul_add]
  · rw [decodeMac_at (by omega), Res.ok_andThen, decodeMac_at (by omega), Res.ok_andThen, rdU16_short (by omega) (by omega),
      Res.fail_andThen, show 8 * (a + 6 + 6) = 8 * a + 96 by omega]

/-! ### IPv4 (R167, R170) -/

/-- The type-of-service values of a byte. -/
def tosOf (b : Byte) : TosRegs :=
  { raw := b, prec := BitVec.ofNat 3 (b.toNat / 32), d := b.getLsbD 4, t := b.getLsbD 3, r := b.getLsbD 2 }

theorem decodeTos_at (h : a + 1 ≤ f.len) : decodeTos f (8 * a) = .ok (tosOf (f.byte a)) (8 * (a + 1)) := by
  have e : rdBits f (8 * a) 3 = .ok (BitVec.ofNat 3 ((f.byte a).toNat / 2 ^ 5 % 2 ^ 3)) (8 * a + 3) :=
    rdBits_at (k := 0) (n := 3) h (by omega) (by omega)
  have e2 : rdBits f (8 * a + 6) 2 = .ok (BitVec.ofNat 2 ((f.byte a).toNat / 2 ^ 0 % 2 ^ 2)) (8 * a + 8) :=
    rdBits_at (k := 6) (n := 2) h (by omega) (by omega)
  rw [decodeTos, aligned_of (by omega), e, Res.ok_andThen, rdBit_at h (by omega), Res.ok_andThen, rdBit_at h (by omega),
    Res.ok_andThen, rdBit_at h (by omega), Res.ok_andThen, e2, Res.ok_andThen, show 8 * a / 8 = a by omega]
  have hb := (f.byte a).isLt
  rw [tosOf, Nat.mod_eq_of_lt (by omega), Nat.mul_add]
  rfl

theorem decodeTos_short (h : f.len < a + 1) : decodeTos f (8 * a) = .fail .insufficientData (8 * a) := by
  rw [decodeTos, aligned_of (by omega), rdBits_short (by omega) (by omega), Res.fail_andThen]

/-- The first nibble of the byte at `a`. -/
def Frame.hi (f : Frame) (a : Nat) : Nat := (f.byte a).toNat / 16

/-- The second nibble of the byte at `a`. -/
def Frame.lo (f : Frame) (a : Nat) : Nat := (f.byte a).toNat % 16

theorem Frame.hi_lt (f : Frame) (a : Nat) : f.hi a < 16 := by
  have := (f.byte a).isLt
  unfold Frame.hi
  omega

theorem Frame.lo_lt (f : Frame) (a : Nat) : f.lo a < 16 := Nat.mod_lt _ (by omega)

theorem rdBits_hi (h : a + 1 ≤ f.len) : rdBits f (8 * a) 4 = .ok (BitVec.ofNat 4 (f.hi a)) (8 * a + 4) := by
  have e := rdBits_at (f := f) (a := a) (k := 0) (n := 4) h (by omega) (by omega)
  have := f.hi_lt a
  rw [Nat.add_zero, Nat.mod_eq_of_lt (by exact f.hi_lt a)] at e
  exact e

theorem rdBits_lo (h : a + 1 ≤ f.len) : rdBits f (8 * a + 4) 4 = .ok (BitVec.ofNat 4 (f.lo a)) (8 * (a + 1)) := by
  have e := rdBits_at (f := f) (a := a) (k := 4) (n := 4) h (by omega) (by omega)
  rw [show 8 - (4 + 4) = 0 from rfl, Nat.pow_zero, Nat.div_one, show 8 * a + (4 + 4) = 8 * (a + 1) by omega] at e
  exact e

/-- The IPv4 group of the header at byte `a`. -/
def Frame.ipv4At (f : Frame) (a : Nat) : Ipv4Regs :=
  { hlen := headerBytes (BitVec.ofNat 4 (f.lo a)), tos := tosOf (f.byte (a + 1)),
    totlen := BitVec.ofNat 16 (be (f.bytes (a + 2) 2)), ident := BitVec.ofNat 16 (be (f.bytes (a + 4) 2)),
    df := (f.byte (a + 6)).getLsbD 6, mf := (f.byte (a + 6)).getLsbD 5,
    fragoff := BitVec.ofNat 13 ((f.byte (a + 6)).toNat % 32 * 256 + (f.byte (a + 7)).toNat), ttl := f.byte (a + 8),
    protoVal := f.byte (a + 9), protoTag := protoTagOf (f.byte (a + 9)), csum := BitVec.ofNat 16 (be (f.bytes (a + 10) 2)),
    src := BitVec.ofNat 32 (be (f.bytes (a + 12) 4)), dst := BitVec.ofNat 32 (be (f.bytes (a + 16) 4)) }

theorem rdBits_fragoff (h : a + 2 ≤ f.len) :
    rdBits f (8 * a + 3) 13 =
      .ok (BitVec.ofNat 13 ((f.byte a).toNat % 32 * 256 + (f.byte (a + 1)).toNat)) (8 * (a + 2)) := by
  have e1 := f.bits_of (a := a) (k := 3) (n := 5) (by omega)
  have e2 : f.bits (8 * a + 3 + 5) 8 = (f.byte (a + 1)).toNat := by
    rw [← f.bits_byte (a + 1)]
    congr 1
  rw [rdBits_ok (by omega) (by omega), f.bits_add (8 * a + 3) 5 8, e1, e2, show 8 - (3 + 5) = 0 from rfl, Nat.pow_zero,
    Nat.div_one, show 8 * a + 3 + 13 = 8 * (a + 2) by omega]
  rfl

theorem nibble_eq {n k : Nat} (hn : n < 16) (hk : k < 16) : BitVec.ofNat 4 n = BitVec.ofNat 4 k ↔ n = k := by
  rw [← BitVec.toNat_inj, BitVec.toNat_ofNat, BitVec.toNat_ofNat, Nat.mod_eq_of_lt (by omega), Nat.mod_eq_of_lt (by omega)]

theorem nibble_toNat {n : Nat} (hn : n < 16) : (BitVec.ofNat 4 n).toNat = n := by
  rw [BitVec.toNat_ofNat, Nat.mod_eq_of_lt (by omega)]

theorem decodeIpv4_empty (h : f.len < a + 1) : decodeIpv4 f (8 * a) = .fail .insufficientData (8 * a) := by
  rw [decodeIpv4, aligned_of (by omega), rdBits_short (by omega) (by omega), Res.fail_andThen]

theorem decodeIpv4_badVersion (h : a + 1 ≤ f.len) (hv : f.hi a ≠ 4) :
    decodeIpv4 f (8 * a) = .fail .badVersion (8 * a + 4) := by
  have hne : BitVec.ofNat 4 (f.hi a) ≠ 4 := fun e => hv ((nibble_eq (k := 4) (f.hi_lt a) (by omega)).mp e)
  rw [decodeIpv4, aligned_of (by omega), rdBits_hi h, Res.ok_andThen, if_pos hne]

/-- What `DECODE_IPV4` does once version and IHL have been accepted. -/
theorem decodeIpv4_accepted (h : a + 1 ≤ f.len) (hv : f.hi a = 4) :
    decodeIpv4 f (8 * a) =
      if f.lo a < 5 then .fail .headerLengthTooSmall (8 * (a + 1)) else
      (decodeTos f (8 * (a + 1))).andThen fun tos p =>
      (rdU16 f p).andThen fun totlen p =>
      (rdU16 f p).andThen fun ident p =>
      (rdBit f p).andThen fun _ p =>
      (rdBit f p).andThen fun df p =>
      (rdBit f p).andThen fun mf p =>
      (rdBits f p 13).andThen fun fragoff p =>
      (rdU8 f p).andThen fun ttl p =>
      (rdU8 f p).andThen fun pval p =>
      (rdU16 f p).andThen fun csum p =>
      (rdU32 f p).andThen fun src p =>
      (rdU32 f p).andThen fun dst p =>
      (skip f p (4 * (f.lo a - 5))).andThen fun _ p =>
      .ok { hlen := headerBytes (BitVec.ofNat 4 (f.lo a)), tos := tos, totlen := totlen, ident := ident, df := df, mf := mf,
            fragoff := fragoff, ttl := ttl, protoVal := pval, protoTag := protoTagOf pval, csum := csum, src := src,
            dst := dst } p := by
  have he : ¬BitVec.ofNat 4 (f.hi a) ≠ 4 := fun e => e ((nibble_eq (k := 4) (f.hi_lt a) (by omega)).mpr hv)
  rw [decodeIpv4, aligned_of (by omega), rdBits_hi h, Res.ok_andThen, if_neg he, rdBits_lo h, Res.ok_andThen, optionBytes,
    nibble_toNat (f.lo_lt a), Nat.mul_comm (f.lo a - 5) 4]

theorem decodeIpv4_at (hv : f.hi a = 4) (hi : 5 ≤ f.lo a) (h : a + 4 * f.lo a ≤ f.len) :
    decodeIpv4 f (8 * a) = .ok (f.ipv4At a) (8 * (a + 4 * f.lo a)) := by
  rw [decodeIpv4_accepted (by omega) hv, if_neg (by omega), decodeTos_at (by omega), Res.ok_andThen, rdU16_at (by omega),
    Res.ok_andThen, rdU16_at (by omega), Res.ok_andThen, rdBit_ok (by omega), Res.ok_andThen, rdBit_at (by omega) (by omega),
    Res.ok_andThen, rdBit_at (by omega) (by omega), Res.ok_andThen, rdBits_fragoff (by omega), Res.ok_andThen,
    rdU8_at (by omega), Res.ok_andThen, rdU8_at (by omega), Res.ok_andThen, rdU16_at (by omega), Res.ok_andThen,
    rdU32_at (by omega), Res.ok_andThen, rdU32_at (by omega), Res.ok_andThen, skip_at (by omega), Res.ok_andThen]
  congr 1
  omega

theorem decodeIpv4_small (h : a + 1 ≤ f.len) (hv : f.hi a = 4) (hi : f.lo a < 5) :
    decodeIpv4 f (8 * a) = .fail .headerLengthTooSmall (8 * (a + 1)) := by
  rw [decodeIpv4_accepted h hv, if_pos hi]

/-- Where CUR is left when the input runs out behind an accepted version and IHL (R235). -/
theorem decodeIpv4_short (hv : f.hi a = 4) (hi : 5 ≤ f.lo a) (h1 : a + 1 ≤ f.len) (h : f.len < a + 4 * f.lo a) :
    decodeIpv4 f (8 * a) = .fail .insufficientData (8 * a +
      if f.len < a + 2 then 8 else if f.len < a + 4 then 16 else if f.len < a + 6 then 32 else if f.len < a + 7 then 48
      else if f.len < a + 8 then 51 else if f.len < a + 9 then 64 else if f.len < a + 10 then 72
      else if f.len < a + 12 then 80 else if f.len < a + 16 then 96 else if f.len < a + 20 then 128 else 160) := by
  rw [decodeIpv4_accepted h1 hv, if_neg (by omega)]
  by_cases c1 : f.len < a + 2
  · rw [if_pos c1, decodeTos_short (by omega), Res.fail_andThen, Nat.mul_add]
  rw [if_neg c1, decodeTos_at (by omega), Res.ok_andThen]
  by_cases c2 : f.len < a + 4
  · rw [if_pos c2, rdU16_short (by omega) (by omega), Res.fail_andThen]
    congr 1
  rw [if_neg c2, rdU16_at (by omega), Res.ok_andThen]
  by_cases c3 : f.len < a + 6
  · rw [if_pos c3, rdU16_short (by omega) (by omega), Res.fail_andThen]
    congr 1
  rw [if_neg c3, rdU16_at (by omega), Res.ok_andThen]
  by_cases c4 : f.len < a + 7
  · rw [if_pos c4, rdBit_short (by omega), Res.fail_andThen]
    congr 1
  rw [if_neg c4, rdBit_ok (by omega), Res.ok_andThen, rdBit_at (by omega) (by omega), Res.ok_andThen,
    rdBit_at (by omega) (by omega), Res.ok_andThen]
  by_cases c5 : f.len < a + 8
  · rw [if_pos c5, rdBits_short (by omega) (by omega), Res.fail_andThen]
    congr 1
  rw [if_neg c5, rdBits_fragoff (by omega), Res.ok_andThen]
  by_cases c6 : f.len < a + 9
  · rw [if_pos c6, rdU8_short (by omega) (by omega), Res.fail_andThen]
    congr 1
  rw [if_neg c6, rdU8_at (by omega), Res.ok_andThen]
  by_cases c7 : f.len < a + 10
  · rw [if_pos c7, rdU8_short (by omega) (by omega), Res.fail_andThen]
    congr 1
  rw [if_neg c7, rdU8_at (by omega), Res.ok_andThen]
  by_cases c8 : f.len < a + 12
  · rw [if_pos c8, rdU16_short (by omega) (by omega), Res.fail_andThen]
    congr 1
  rw [if_neg c8, rdU16_at (by omega), Res.ok_andThen]
  by_cases c9 : f.len < a + 16
  · rw [if_pos c9, rdU32_short (by omega) (by omega), Res.fail_andThen]
    congr 1
  rw [if_neg c9, rdU32_at (by omega), Res.ok_andThen]
  by_cases c10 : f.len < a + 20
  · rw [if_pos c10, rdU32_short (by omega) (by omega), Res.fail_andThen]
    congr 1
  rw [if_neg c10, rdU32_at (by omega), Res.ok_andThen, skip_short (by omega) (by omega), Res.fail_andThen]
  congr 1

/-! ### ICMP (R185) -/

/-- The ICMP group of the header at byte `a`. -/
def Frame.icmpAt (f : Frame) (a : Nat) : IcmpRegs :=
  { type := f.byte a, code := f.byte (a + 1), csum := BitVec.ofNat 16 (be (f.bytes (a + 2) 2)) }

theorem decodeIcmp_at (h : a + 4 ≤ f.len) : decodeIcmp f (8 * a) = .ok (f.icmpAt a) (8 * (a + 4)) := by
  rw [decodeIcmp, rdU8_at (by omega), Res.ok_andThen, rdU8_at (by omega), Res.ok_andThen, rdU16_at (by omega)]
  rfl

theorem decodeIcmp_short (h : f.len < a + 4) :
    decodeIcmp f (8 * a) = .fail .insufficientData
      (8 * a + if f.len < a + 1 then 0 else if f.len < a + 2 then 8 else 16) := by
  rw [decodeIcmp]
  split_ifs with h1 h2
  · rw [rdU8_short (by omega) (by omega), Res.fail_andThen, Nat.add_zero]
  · rw [rdU8_at (by omega), Res.ok_andThen, rdU8_short (by omega) (by omega), Res.fail_andThen, Nat.mul_add]
  · rw [rdU8_at (by omega), Res.ok_andThen, rdU8_at (by omega), Res.ok_andThen, rdU16_short (by omega) (by omega),
      Res.fail_andThen, show 8 * (a + 1 + 1) = 8 * a + 16 by omega]

/-! ### TCP (R190) -/

/-- The TCP group of the header at byte `a`. -/
def Frame.tcpAt (f : Frame) (a : Nat) : TcpRegs :=
  { sport := BitVec.ofNat 16 (be (f.bytes a 2)), dport := BitVec.ofNat 16 (be (f.bytes (a + 2) 2)),
    seq := BitVec.ofNat 32 (be (f.bytes (a + 4) 4)), acknum := BitVec.ofNat 32 (be (f.bytes (a + 8) 4)),
    doff := headerBytes (BitVec.ofNat 4 (f.hi (a + 12))), urg := (f.byte (a + 13)).getLsbD 5, ack := (f.byte (a + 13)).getLsbD 4,
    psh := (f.byte (a + 13)).getLsbD 3, rst := (f.byte (a + 13)).getLsbD 2, syn := (f.byte (a + 13)).getLsbD 1,
    fin := (f.byte (a + 13)).getLsbD 0, win := BitVec.ofNat 16 (be (f.bytes (a + 14) 2)),
    csum := BitVec.ofNat 16 (be (f.bytes (a + 16) 2)), urp := BitVec.ofNat 16 (be (f.bytes (a + 18) 2)) }

/-- The input runs out before the data offset is read (R235). -/
theorem decodeTcp_empty (h : f.len < a + 13) :
    decodeTcp f (8 * a) = .fail .insufficientData (8 * a +
      if f.len < a + 2 then 0 else if f.len < a + 4 then 16 else if f.len < a + 8 then 32 else if f.len < a + 12 then 64
      else 96) := by
  rw [decodeTcp]
  by_cases c1 : f.len < a + 2
  · rw [if_pos c1, rdU16_short (by omega) (by omega), Res.fail_andThen, Nat.add_zero]
  rw [if_neg c1, rdU16_at (by omega), Res.ok_andThen]
  by_cases c2 : f.len < a + 4
  · rw [if_pos c2, rdU16_short (by omega) (by omega), Res.fail_andThen]
    congr 1
  rw [if_neg c2, rdU16_at (by omega), Res.ok_andThen]
  by_cases c3 : f.len < a + 8
  · rw [if_pos c3, rdU32_short (by omega) (by omega), Res.fail_andThen]
    congr 1
  rw [if_neg c3, rdU32_at (by omega), Res.ok_andThen]
  by_cases c4 : f.len < a + 12
  · rw [if_pos c4, rdU32_short (by omega) (by omega), Res.fail_andThen]
    congr 1
  rw [if_neg c4, rdU32_at (by omega), Res.ok_andThen, rdBits_short (by omega) (by omega), Res.fail_andThen]
  congr 1

/-- What `DECODE_TCP` does once the data offset has been read. -/
theorem decodeTcp_read (h : a + 13 ≤ f.len) :
    decodeTcp f (8 * a) =
      if f.hi (a + 12) < 5 then .fail .dataOffsetTooSmall (8 * a + 100) else
      (rdBits f (8 * (a + 12) + 4) 3).andThen fun _ p =>
      (rdBits f p 3).andThen fun _ p =>
      (rdBit f p).andThen fun urg p =>
      (rdBit f p).andThen fun ack p =>
      (rdBit f p).andThen fun psh p =>
      (rdBit f p).andThen fun rst p =>
      (rdBit f p).andThen fun syn p =>
      (rdBit f p).andThen fun fin p =>
      (rdU16 f p).andThen fun win p =>
      (rdU16 f p).andThen fun csum p =>
      (rdU16 f p).andThen fun urp p =>
      (skip f p (4 * (f.hi (a + 12) - 5))).andThen fun _ p =>
      .ok { f.tcpAt a with urg := urg, ack := ack, psh := psh, rst := rst, syn := syn, fin := fin, win := win, csum := csum,
                           urp := urp } p := by
  rw [decodeTcp, rdU16_at (by omega), Res.ok_andThen, rdU16_at (by omega), Res.ok_andThen, rdU32_at (by omega),
    Res.ok_andThen, rdU32_at (by omega), Res.ok_andThen, rdBits_hi (by omega), Res.ok_andThen, optionBytes,
    nibble_toNat (f.hi_lt _), Nat.mul_comm (f.hi (a + 2 + 2 + 4 + 4) - 5)]
  rfl

/-- Six flag bits and nothing else are left in byte `a + 13` behind the reserved bits. -/
theorem rdBits_reserved2 (h : a + 2 ≤ f.len) : ∃ v, rdBits f (8 * a + 7) 3 = .ok v (8 * (a + 1) + 2) :=
  ⟨_, rdBits_ok (by omega) (by omega)⟩

theorem decodeTcp_at (ho : 5 ≤ f.hi (a + 12)) (h : a + 4 * f.hi (a + 12) ≤ f.len) :
    decodeTcp f (8 * a) = .ok (f.tcpAt a) (8 * (a + 4 * f.hi (a + 12))) := by
  obtain ⟨v, hr⟩ := rdBits_reserved2 (f := f) (a := a + 12) (by omega)
  rw [decodeTcp_read (by omega), if_neg (by omega), rdBits_at (by omega) (by omega) (by omega), Res.ok_andThen, hr,
    Res.ok_andThen, rdBit_at (by omega) (by omega), Res.ok_andThen, rdBit_at (by omega) (by omega), Res.ok_andThen,
    rdBit_at (by omega) (by omega), Res.ok_andThen, rdBit_at (by omega) (by omega), Res.ok_andThen,
    rdBit_at (by omega) (by omega), Res.ok_andThen, rdBit_at (by omega) (by omega), Res.ok_andThen,
    show 8 * (a + 12 + 1) + (2 + 1 + 1 + 1 + 1 + 1 + 1) = 8 * (a + 14) by omega, rdU16_at (by omega), Res.ok_andThen,
    rdU16_at (by omega), Res.ok_andThen, rdU16_at (by omega), Res.ok_andThen, skip_at (by omega), Res.ok_andThen]
  congr 1
  omega

theorem decodeTcp_small (h : a + 13 ≤ f.len) (ho : f.hi (a + 12) < 5) :
    decodeTcp f (8 * a) = .fail .dataOffsetTooSmall (8 * a + 100) := by
  rw [decodeTcp_read h, if_pos ho]

/-- Where CUR is left when the input runs out behind an accepted data offset (R235). -/
theorem decodeTcp_short (h1 : a + 13 ≤ f.len) (ho : 5 ≤ f.hi (a + 12)) (h : f.len < a + 4 * f.hi (a + 12)) :
    decodeTcp f (8 * a) = .fail .insufficientData (8 * a +
      if f.len < a + 14 then 103 else if f.len < a + 16 then 112 else if f.len < a + 18 then 128 else if f.len < a + 20 then 144
      else 160) := by
  rw [decodeTcp_read h1, if_neg (by omega), rdBits_at (by omega) (by omega) (by omega), Res.ok_andThen]
  by_cases c1 : f.len < a + 14
  · rw [if_pos c1, rdBits_short (by omega) (by omega), Res.fail_andThen]
    congr 1
  obtain ⟨v, hr⟩ := rdBits_reserved2 (f := f) (a := a + 12) (by omega)
  rw [if_neg c1, hr, Res.ok_andThen, rdBit_at (by omega) (by omega), Res.ok_andThen, rdBit_at (by omega) (by omega),
    Res.ok_andThen, rdBit_at (by omega) (by omega), Res.ok_andThen, rdBit_at (by omega) (by omega), Res.ok_andThen,
    rdBit_at (by omega) (by omega), Res.ok_andThen, rdBit_at (by omega) (by omega), Res.ok_andThen,
    show 8 * (a + 12 + 1) + (2 + 1 + 1 + 1 + 1 + 1 + 1) = 8 * (a + 14) by omega]
  by_cases c2 : f.len < a + 16
  · rw [if_pos c2, rdU16_short (by omega) (by omega), Res.fail_andThen]
    congr 1
  rw [if_neg c2, rdU16_at (by omega), Res.ok_andThen]
  by_cases c3 : f.len < a + 18
  · rw [if_pos c3, rdU16_short (by omega) (by omega), Res.fail_andThen]
    congr 1
  rw [if_neg c3, rdU16_at (by omega), Res.ok_andThen]
  by_cases c4 : f.len < a + 20
  · rw [if_pos c4, rdU16_short (by omega) (by omega), Res.fail_andThen]
    congr 1
  rw [if_neg c4, rdU16_at (by omega), Res.ok_andThen, skip_short (by omega) (by omega), Res.fail_andThen]
  congr 1

/-! ### UDP (R195) -/

/-- The UDP group of the header at byte `a`. -/
def Frame.udpAt (f : Frame) (a : Nat) : UdpRegs :=
  { sport := BitVec.ofNat 16 (be (f.bytes a 2)), dport := BitVec.ofNat 16 (be (f.bytes (a + 2) 2)),
    len := BitVec.ofNat 16 (be (f.bytes (a + 4) 2)), csum := BitVec.ofNat 16 (be (f.bytes (a + 6) 2)) }

theorem half_toNat (f : Frame) (a : Nat) : (BitVec.ofNat 16 (be (f.bytes a 2))).toNat = be (f.bytes a 2) := by
  rw [BitVec.toNat_ofNat]
  exact Nat.mod_eq_of_lt (f.be_bytes_lt a 2)

theorem decodeUdp_at (hl : 8 ≤ be (f.bytes (a + 4) 2)) (h : a + be (f.bytes (a + 4) 2) ≤ f.len) :
    decodeUdp f (8 * a) = .ok (f.udpAt a, { off := a + 8, len := be (f.bytes (a + 4) 2) - 8 })
      (8 * (a + be (f.bytes (a + 4) 2))) := by
  rw [decodeUdp, rdU16_at (by omega), Res.ok_andThen, rdU16_at (by omega), Res.ok_andThen, rdU16_at (by omega),
    Res.ok_andThen, half_toNat, show a + 2 + 2 = a + 4 from rfl, if_neg (by omega), rdU16_at (by omega), Res.ok_andThen, take_at (by omega), Res.ok_andThen]
  congr 1
  omega

theorem decodeUdp_small (h : a + 6 ≤ f.len) (hl : be (f.bytes (a + 4) 2) < 8) :
    decodeUdp f (8 * a) = .fail .lengthTooSmall (8 * (a + 6)) := by
  rw [decodeUdp, rdU16_at (by omega), Res.ok_andThen, rdU16_at (by omega), Res.ok_andThen, rdU16_at (by omega),
    Res.ok_andThen, half_toNat, show a + 2 + 2 = a + 4 from rfl, if_pos (by omega)]

/-- The input runs out before the length is read (R235). -/
theorem decodeUdp_empty (h : f.len < a + 6) :
    decodeUdp f (8 * a) = .fail .insufficientData
      (8 * a + if f.len < a + 2 then 0 else if f.len < a + 4 then 16 else 32) := by
  rw [decodeUdp]
  split_ifs with h1 h2
  · rw [rdU16_short (by omega) (by omega), Res.fail_andThen, Nat.add_zero]
  · rw [rdU16_at (by omega), Res.ok_andThen, rdU16_short (by omega) (by omega), Res.fail_andThen, Nat.mul_add]
  · rw [rdU16_at (by omega), Res.ok_andThen, rdU16_at (by omega), Res.ok_andThen, rdU16_short (by omega) (by omega),
      Res.fail_andThen, show 8 * (a + 2 + 2) = 8 * a + 32 by omega]

/-- The input runs out behind an accepted length (R235). -/
theorem decodeUdp_short (h1 : a + 6 ≤ f.len) (hl : 8 ≤ be (f.bytes (a + 4) 2)) (h : f.len < a + be (f.bytes (a + 4) 2)) :
    decodeUdp f (8 * a) = .fail .insufficientData (8 * a + if f.len < a + 8 then 48 else 64) := by
  rw [decodeUdp, rdU16_at (by omega), Res.ok_andThen, rdU16_at (by omega), Res.ok_andThen, rdU16_at (by omega),
    Res.ok_andThen, half_toNat, show a + 2 + 2 = a + 4 from rfl, if_neg (by omega)]
  by_cases c : f.len < a + 8
  · rw [if_pos c, rdU16_short (by omega) (by omega), Res.fail_andThen]
    congr 1
  rw [if_neg c, rdU16_at (by omega), Res.ok_andThen, take_short (by omega) (by omega), Res.fail_andThen]
  congr 1

/-! ### The data behind a header (R186, R191) -/

theorem withRest_ok {α : Type} (v : α) {p : Nat} (ha : p % 8 = 0) (h : p ≤ 8 * f.len) :
    withRest f (.ok v p) = .ok (v, { off := p / 8, len := f.len - p / 8 }) (8 * f.len) := by
  rw [withRest, Res.ok_andThen, takeRest_ok ha h, Res.ok_andThen]

theorem withRest_fail {α : Type} (c : ErrCause) (p : Nat) : withRest f (.fail c p : Res α) = .fail c p := rfl

theorem withRest_stop {α : Type} (r : Refusal) : withRest f (.stop r : Res α) = .stop r := rfl

/-- The data of a header decoder that answers. -/
theorem withRest_eq_ok {α : Type} {x : Res α} {v : α × Run} {q : Nat} (h : withRest f x = .ok v q) :
    ∃ p, x = .ok v.1 p ∧ p % 8 = 0 ∧ p ≤ 8 * f.len ∧ v.2 = { off := p / 8, len := f.len - p / 8 } ∧ q = 8 * f.len := by
  cases x with
  | ok a p =>
    rw [withRest, Res.ok_andThen, takeRest] at h
    by_cases ha : p % 8 = 0
    · rw [aligned_of ha] at h
      split at h
      · cases h
        exact ⟨p, rfl, ha, by assumption, rfl, rfl⟩
      · cases h
    · rw [aligned_not ha] at h
      cases h
  | fail c p => cases h
  | stop r => cases h

/-! ### A cursor that is not aligned is refused (R67) -/

theorem decodeMac_unaligned {p : Nat} (h : p % 8 ≠ 0) : decodeMac f p = .stop .unalignedCursor := by
  rw [decodeMac, take, aligned_not h, Res.stop_andThen]

theorem decodeEther_unaligned {p : Nat} (h : p % 8 ≠ 0) : decodeEther f p = .stop .unalignedCursor := by
  rw [decodeEther, decodeMac_unaligned h, Res.stop_andThen]

theorem decodeTos_unaligned {p : Nat} (h : p % 8 ≠ 0) : decodeTos f p = .stop .unalignedCursor := by
  rw [decodeTos, aligned_not h]

theorem decodeIpv4_unaligned {p : Nat} (h : p % 8 ≠ 0) : decodeIpv4 f p = .stop .unalignedCursor := by
  rw [decodeIpv4, aligned_not h]

theorem decodeIcmp_unaligned {p : Nat} (h : p % 8 ≠ 0) : decodeIcmp f p = .stop .unalignedCursor := by
  rw [decodeIcmp, rdU8, aligned_not h, Res.stop_andThen]

theorem decodeTcp_unaligned {p : Nat} (h : p % 8 ≠ 0) : decodeTcp f p = .stop .unalignedCursor := by
  rw [decodeTcp, rdU16, aligned_not h, Res.stop_andThen]

theorem decodeUdp_unaligned {p : Nat} (h : p % 8 ≠ 0) : decodeUdp f p = .stop .unalignedCursor := by
  rw [decodeUdp, rdU16, aligned_not h, Res.stop_andThen]

/-! ### A decoder that answers read a whole header at a byte position -/

theorem byte_or_unaligned (p : Nat) : (∃ a, p = 8 * a) ∨ p % 8 ≠ 0 := by
  by_cases h : p % 8 = 0
  · exact .inl ⟨p / 8, by omega⟩
  · exact .inr h

theorem decodeEther_eq_ok {p q : Nat} {g : EthRegs} (h : decodeEther f p = .ok g q) :
    ∃ a, p = 8 * a ∧ a + 14 ≤ f.len ∧ g = f.ethAt a ∧ q = 8 * (a + 14) := by
  rcases byte_or_unaligned p with ⟨a, rfl⟩ | hp
  · by_cases hl : a + 14 ≤ f.len
    · rw [decodeEther_at hl] at h
      cases h
      exact ⟨a, rfl, hl, rfl, rfl⟩
    · rw [decodeEther_short (by omega)] at h
      cases h
  · rw [decodeEther_unaligned hp] at h
    cases h

theorem decodeIpv4_eq_ok {p q : Nat} {g : Ipv4Regs} (h : decodeIpv4 f p = .ok g q) :
    ∃ a, p = 8 * a ∧ f.hi a = 4 ∧ 5 ≤ f.lo a ∧ a + 4 * f.lo a ≤ f.len ∧ g = f.ipv4At a ∧ q = 8 * (a + 4 * f.lo a) := by
  rcases byte_or_unaligned p with ⟨a, rfl⟩ | hp
  · by_cases h0 : a + 1 ≤ f.len
    · by_cases hv : f.hi a = 4
      · by_cases hi : 5 ≤ f.lo a
        · by_cases hl : a + 4 * f.lo a ≤ f.len
          · rw [decodeIpv4_at hv hi hl] at h
            cases h
            exact ⟨a, rfl, hv, hi, hl, rfl, rfl⟩
          · rw [decodeIpv4_short hv hi h0 (by omega)] at h
            cases h
        · rw [decodeIpv4_small h0 hv (by omega)] at h
          cases h
      · rw [decodeIpv4_badVersion h0 hv] at h
        cases h
    · rw [decodeIpv4_empty (by omega)] at h
      cases h
  · rw [decodeIpv4_unaligned hp] at h
    cases h

theorem decodeIcmp_eq_ok {p q : Nat} {g : IcmpRegs} (h : decodeIcmp f p = .ok g q) :
    ∃ a, p = 8 * a ∧ a + 4 ≤ f.len ∧ g = f.icmpAt a ∧ q = 8 * (a + 4) := by
  rcases byte_or_unaligned p with ⟨a, rfl⟩ | hp
  · by_cases hl : a + 4 ≤ f.len
    · rw [decodeIcmp_at hl] at h
      cases h
      exact ⟨a, rfl, hl, rfl, rfl⟩
    · rw [decodeIcmp_short (by omega)] at h
      cases h
  · rw [decodeIcmp_unaligned hp] at h
    cases h

theorem decodeTcp_eq_ok {p q : Nat} {g : TcpRegs} (h : decodeTcp f p = .ok g q) :
    ∃ a, p = 8 * a ∧ 5 ≤ f.hi (a + 12) ∧ a + 4 * f.hi (a + 12) ≤ f.len ∧ g = f.tcpAt a ∧ q = 8 * (a + 4 * f.hi (a + 12)) := by
  rcases byte_or_unaligned p with ⟨a, rfl⟩ | hp
  · by_cases h0 : a + 13 ≤ f.len
    · by_cases ho : 5 ≤ f.hi (a + 12)
      · by_cases hl : a + 4 * f.hi (a + 12) ≤ f.len
        · rw [decodeTcp_at ho hl] at h
          cases h
          exact ⟨a, rfl, ho, hl, rfl, rfl⟩
        · rw [decodeTcp_short h0 ho (by omega)] at h
          cases h
      · rw [decodeTcp_small h0 (by omega)] at h
        cases h
    · rw [decodeTcp_empty (by omega)] at h
      cases h
  · rw [decodeTcp_unaligned hp] at h
    cases h

theorem decodeUdp_eq_ok {p q : Nat} {x : UdpRegs × Run} (h : decodeUdp f p = .ok x q) :
    ∃ a, p = 8 * a ∧ 8 ≤ be (f.bytes (a + 4) 2) ∧ a + be (f.bytes (a + 4) 2) ≤ f.len ∧ x.1 = f.udpAt a ∧
      x.2 = { off := a + 8, len := be (f.bytes (a + 4) 2) - 8 } ∧ q = 8 * (a + be (f.bytes (a + 4) 2)) := by
  rcases byte_or_unaligned p with ⟨a, rfl⟩ | hp
  · by_cases h0 : a + 6 ≤ f.len
    · by_cases hn : 8 ≤ be (f.bytes (a + 4) 2)
      · by_cases hl : a + be (f.bytes (a + 4) 2) ≤ f.len
        · rw [decodeUdp_at hn hl] at h
          cases h
          exact ⟨a, rfl, hn, hl, rfl, rfl, rfl⟩
        · rw [decodeUdp_short h0 hn (by omega)] at h
          cases h
      · rw [decodeUdp_small h0 (by omega)] at h
        cases h
    · rw [decodeUdp_empty (by omega)] at h
      cases h
  · rw [decodeUdp_unaligned hp] at h
    cases h

/-! ### What the decoded groups satisfy (R26, R168, R101) -/

theorem ethAt_tag (a : Nat) : (f.ethAt a).typeTag = etherTagOf (f.ethAt a).typeVal := rfl

theorem ipv4At_tag (a : Nat) : (f.ipv4At a).protoTag = protoTagOf (f.ipv4At a).protoVal := rfl

theorem headerBytes_range {v : BitVec 4} (h : 5 ≤ v.toNat) :
    20 ≤ (headerBytes v).toNat ∧ (headerBytes v).toNat ≤ 60 ∧ (headerBytes v).toNat % 4 = 0 := by
  revert v
  decide

theorem tosOf_slices (b : Byte) :
    b.toNat = (tosOf b).prec.toNat * 32 + (tosOf b).d.toNat * 16 + (tosOf b).t.toNat * 8 + (tosOf b).r.toNat * 4 +
      b.toNat % 4 := by
  revert b
  decide

end Sys2Proof.Machine
end

