-- ==== Sys2Proof/Laws/Exec.lean ====
section
/-! SUPPORT. What each shared operation can do, said once: the answers of `cursorOp`, `layerStep`, the selector rows and the commands, and
for every operation but `DECODE_PACKET` the list of everything that `exec` can do to a state (`exec_effect`). -/

namespace Sys2Proof.Machine

variable {α : Type} {s t : State}

/-! ### The three outcomes of a cursor operation -/

theorem cursorOp_ok (toOut : α → Out) (v : α) (p : Nat) (s : State) :
    cursorOp toOut (.ok v p) s = .next ((s.setCur p).setOut (toOut v)) := rfl

theorem cursorOp_fail (toOut : α → Out) (c : ErrCause) (p : Nat) (s : State) :
    cursorOp toOut (.fail c p) s = .next ((s.setCur p).setOut (.failed c)) := rfl

theorem cursorOp_stop (toOut : α → Out) (r : Refusal) (s : State) : cursorOp toOut (.stop r) s = .refused r := rfl

/-- A cursor operation changes CUR and the caller's result, and nothing else (R130). -/
theorem cursorOp_eq_next {toOut : α → Out} {r : Res α} (h : cursorOp toOut r s = .next t) :
    ∃ p o, t = (s.setCur p).setOut o ∧ ((∃ v, r = .ok v p) ∨ ∃ c, r = .fail c p) := by
  cases r with
  | ok v p => cases h; exact ⟨p, _, rfl, .inl ⟨v, rfl⟩⟩
  | fail c p => cases h; exact ⟨p, _, rfl, .inr ⟨c, rfl⟩⟩
  | stop e => cases h

theorem cursorOp_ne_fault {toOut : α → Out} {r : Res α} {e : Fault} : cursorOp toOut r s ≠ .fault e := by
  cases r <;> exact fun h => nomatch h

/-! ### Phase steps -/

theorem layerStep_ok {ph : Phase} (h : s.phase = ph) (k : ErrKind) (v : α) (p : Nat) (put : α → State → State) :
    layerStep ph k (.ok v p) put s = .next (put v (s.setCur p)) := if_pos h

theorem layerStep_fail {ph : Phase} (h : s.phase = ph) (k : ErrKind) (c : ErrCause) (p : Nat) (put : α → State → State) :
    layerStep ph k (.fail c p) put s = .next ((s.setCur p).raise k c) := if_pos h

theorem layerStep_stop {ph : Phase} (h : s.phase = ph) (k : ErrKind) (r : Refusal) (put : α → State → State) :
    layerStep ph k (.stop r) put s = .refused r := if_pos h

theorem layerStep_not {ph : Phase} (h : s.phase ≠ ph) (k : ErrKind) (r : Res α) (put : α → State → State) :
    layerStep ph k r put s = .refused (.stepNotEnabled ph) := if_neg h

/-- A phase step that answers a next state ran in its own phase, and either wrote its group or raised. -/
theorem layerStep_eq_next {ph : Phase} {k : ErrKind} {r : Res α} {put : α → State → State}
    (h : layerStep ph k r put s = .next t) :
    s.phase = ph ∧
      ((∃ v p, r = .ok v p ∧ t = put v (s.setCur p)) ∨ ∃ c p, r = .fail c p ∧ t = (s.setCur p).raise k c) := by
  by_cases hp : s.phase = ph
  · refine ⟨hp, ?_⟩
    cases r with
    | ok v p => rw [layerStep_ok hp] at h; cases h; exact .inl ⟨v, p, rfl, rfl⟩
    | fail c p => rw [layerStep_fail hp] at h; cases h; exact .inr ⟨c, p, rfl, rfl⟩
    | stop e => rw [layerStep_stop hp] at h; cases h
  · rw [layerStep_not hp] at h; cases h

/-! ### Selector rows -/

theorem selectorRow_eq_next {b : Bool} {o : Out} (h : selectorRow b o s = .next t) : t = s.setOut o := by
  unfold selectorRow at h
  split at h <;> cases h
  rfl

/-! ### Host commands -/

theorem execStart_eq_next (h : execStart s = .next t) :
    s.phase.quiescent = true ∧ t = s.begin ∨ s.phase.quiescent = false ∧ t = s := by
  unfold execStart at h
  split at h <;> cases h
  · exact .inl ⟨by assumption, rfl⟩
  · exact .inr ⟨Bool.eq_false_iff.mpr (by assumption), rfl⟩

theorem execLoadFrame_eq_next {bs : List Byte} (h : execLoadFrame bs s = .next t) :
    (s.phase.quiescent = true ∧ bs.length ≤ Config.frameMax) ∧ t = s.load bs ∨ t = s := by
  unfold execLoadFrame at h
  split at h <;> cases h
  · exact .inl ⟨by assumption, rfl⟩
  · exact .inr rfl

/-- `READ` changes the caller's result and nothing else (R222). -/
theorem execRead_eq_next {r : Reg} (h : execRead r s = .next t) : ∃ o, t = s.setOut o := by
  unfold execRead at h
  split at h
  · split at h
    · cases h
    · split at h <;> cases h
      exact ⟨_, rfl⟩
  · cases h

theorem readOutcome_eq_next (h : readOutcome s = .next t) : ∃ o, t = s.setOut o := by
  unfold readOutcome at h
  split at h
  · cases h; exact ⟨_, rfl⟩
  · split at h
    · split at h
      · cases h
      · split at h <;> cases h
        exact ⟨_, rfl⟩
    · cases h

theorem execStepDispatch_eq_next (h : execStepDispatch s = .next t) :
    s.phase = .dispatch ∧ ∃ g, s.ip = some g ∧ t = s.putContents g.protoTag := by
  unfold execStepDispatch at h
  split at h
  · split at h
    · cases h
    · cases h
      exact ⟨by assumption, _, by assumption, rfl⟩
  · cases h

/-! ### Sequences of operations -/

theorem thenDo_eq_next {x : Outcome} {k : State → Outcome} : thenDo x k = .next t ↔ ∃ u, x = .next u ∧ k u = .next t := by
  cases x <;> simp [thenDo]

theorem runParser_succ (k : Nat) (s : State) : runParser (k + 1) s = thenDo (parserStep s) (runParser k) := rfl

/-- In a quiescent phase the parser does not move. -/
theorem runParser_quiescent (h : s.phase.quiescent = true) (k : Nat) : runParser k s = .next s := by
  induction k with
  | zero => rfl
  | succ k ih =>
    have hs : parserStep s = .next s := by
      unfold parserStep
      cases hp : s.phase <;> simp_all [Phase.quiescent]
    rw [runParser_succ, hs]
    exact ih

/-! ### Everything an operation can do -/

/-- The phases whose step raises, each with the kind it raises (R230, R231). -/
def raisers : List (Phase × ErrKind) :=
  [(.eth, .invalidEthernetFrame), (.ip, .invalidIpHeader), (.icmp, .invalidIcmpPacket), (.tcp, .invalidTcpHeader),
    (.udp, .invalidUdpPacket)]

/-- What a host command or a phase step can do to a state: the caller's result alone; a dropped command; an admitted command; a phase
step that succeeds in its own phase; an error raised in the phase of its layer. -/
inductive Move (s : State) : State → Prop where
  | result (o : Out) : Move s (s.setOut o)
  | dropped : Move s s
  | started (h : s.phase.quiescent = true) : Move s s.begin
  | loaded (bs : List Byte) (h : s.phase.quiescent = true) (hl : bs.length ≤ Config.frameMax) : Move s (s.load bs)
  | ether (g : EthRegs) (p : Nat) (h : s.phase = .eth) (hr : decodeEther s.frame s.cur = .ok g p) :
      Move s ((s.setCur p).putEth g)
  | ipv4 (g : Ipv4Regs) (p : Nat) (h : s.phase = .ip) (hr : decodeIpv4 s.frame s.cur = .ok g p) : Move s ((s.setCur p).putIp g)
  | contents (g : Ipv4Regs) (h : s.phase = .dispatch) (hg : s.ip = some g) : Move s (s.putContents g.protoTag)
  | icmp (x : IcmpRegs × Run) (p : Nat) (h : s.phase = .icmp)
      (hr : withRest s.frame (decodeIcmp s.frame s.cur) = .ok x p) : Move s ((s.setCur p).putIcmp x)
  | tcp (x : TcpRegs × Run) (p : Nat) (h : s.phase = .tcp)
      (hr : withRest s.frame (decodeTcp s.frame s.cur) = .ok x p) : Move s ((s.setCur p).putTcp x)
  | udp (x : UdpRegs × Run) (p : Nat) (h : s.phase = .udp) (hr : decodeUdp s.frame s.cur = .ok x p) :
      Move s ((s.setCur p).putUdp x)
  | raised (k : ErrKind) (c : ErrCause) (p : Nat) (hk : (k, c) ∈ legalPairs) (hp : s.cur ≤ 8 * s.frameLen → p ≤ 8 * s.frameLen)
      (h : (s.phase, k) ∈ raisers) : Move s ((s.setCur p).raise k c)

/-- What `exec` can do to a state: a move, or, for a cursor operation, CUR and the caller's result. -/
inductive Effect (s : State) : State → Prop where
  | move {t : State} (h : Move s t) : Effect s t
  | cursor (p : Nat) (o : Out) (h : s.cur ≤ 8 * s.frameLen → p ≤ 8 * s.frameLen) : Effect s ((s.setCur p).setOut o)

/-- What a part of a step, run by itself, can do: CUR and the caller's result, and nothing else (R130). -/
def PartEffect (s t : State) : Prop :=
  ∃ p o, (s.cur ≤ 8 * s.frameLen → p ≤ 8 * s.frameLen) ∧ t = (s.setCur p).setOut o

theorem cursorOp_part {toOut : α → Out} {r : Res α} (hw : s.cur ≤ 8 * s.frame.len → r.Within s.frame)
    (h : cursorOp toOut r s = .next t) : PartEffect s t := by
  obtain ⟨p, o, rfl, ⟨v, rfl⟩ | ⟨c, rfl⟩⟩ := cursorOp_eq_next h
  · exact ⟨p, o, hw, rfl⟩
  · exact ⟨p, o, hw, rfl⟩

theorem setOut_part (o : Out) : PartEffect s (s.setOut o) := ⟨s.cur, o, id, rfl⟩

theorem selectorRow_part {b : Bool} {o : Out} (h : selectorRow b o s = .next t) : PartEffect s t :=
  selectorRow_eq_next h ▸ setOut_part o

theorem answer_part {o : Out} (h : answer o s = .next t) : PartEffect s t := by
  cases h
  exact setOut_part o

/-- The raise of a phase step: the decoder's cause is legal for the layer's kind (R233). -/
theorem raise_move {r : Res α} {k : ErrKind} {c : ErrCause} {p : Nat} {cs : List ErrCause} (hr : r = .fail c p)
    (hf : r.FailsIn cs) (hk : ∀ c ∈ cs, (k, c) ∈ legalPairs) (hw : s.cur ≤ 8 * s.frame.len → r.Within s.frame)
    (hp : (s.phase, k) ∈ raisers) : Move s ((s.setCur p).raise k c) := by
  subst hr
  exact .raised k c p (hk c hf) hw hp

theorem stepEth_move (h : execStepEth s = .next t) : Move s t := by
  obtain ⟨hp, ⟨v, p, hr, rfl⟩ | ⟨c, p, hr, rfl⟩⟩ := layerStep_eq_next h
  · exact .ether v p hp hr
  · exact raise_move hr failsIn_decodeEther (by decide) within_decodeEther (by simp [hp, raisers])

theorem stepIp_move (h : execStepIp s = .next t) : Move s t := by
  obtain ⟨hp, ⟨v, p, hr, rfl⟩ | ⟨c, p, hr, rfl⟩⟩ := layerStep_eq_next h
  · exact .ipv4 v p hp hr
  · exact raise_move hr failsIn_decodeIpv4 (by decide) within_decodeIpv4 (by simp [hp, raisers])

theorem stepIcmp_move (h : execStepIcmp s = .next t) : Move s t := by
  obtain ⟨hp, ⟨v, p, hr, rfl⟩ | ⟨c, p, hr, rfl⟩⟩ := layerStep_eq_next h
  · exact .icmp v p hp hr
  · exact raise_move hr (failsIn_withRest failsIn_decodeIcmp) (by decide) (fun h => within_withRest (within_decodeIcmp h))
      (by simp [hp, raisers])

theorem stepTcp_move (h : execStepTcp s = .next t) : Move s t := by
  obtain ⟨hp, ⟨v, p, hr, rfl⟩ | ⟨c, p, hr, rfl⟩⟩ := layerStep_eq_next h
  · exact .tcp v p hp hr
  · exact raise_move hr (failsIn_withRest failsIn_decodeTcp) (by decide) (fun h => within_withRest (within_decodeTcp h))
      (by simp [hp, raisers])

theorem stepUdp_move (h : execStepUdp s = .next t) : Move s t := by
  obtain ⟨hp, ⟨v, p, hr, rfl⟩ | ⟨c, p, hr, rfl⟩⟩ := layerStep_eq_next h
  · exact .udp v p hp hr
  · exact raise_move hr failsIn_decodeUdp (by decide) within_decodeUdp (by simp [hp, raisers])

theorem stepDispatch_move (h : execStepDispatch s = .next t) : Move s t := by
  obtain ⟨hp, g, hg, rfl⟩ := execStepDispatch_eq_next h
  exact .contents g hp hg

theorem start_move (h : execStart s = .next t) : Move s t := by
  rcases execStart_eq_next h with ⟨hq, rfl⟩ | ⟨-, rfl⟩
  · exact .started hq
  · exact .dropped

theorem loadFrame_move {bs : List Byte} (h : execLoadFrame bs s = .next t) : Move s t := by
  rcases execLoadFrame_eq_next h with ⟨⟨hq, hl⟩, rfl⟩ | rfl
  · exact .loaded bs hq hl
  · exact .dropped

theorem parserStep_move (h : parserStep s = .next t) : Move s t := by
  unfold parserStep at h
  split at h
  · cases h; exact .dropped
  · exact stepEth_move h
  · exact stepIp_move h
  · exact stepDispatch_move h
  · exact stepIcmp_move h
  · exact stepTcp_move h
  · exact stepUdp_move h
  · cases h; exact .dropped
  · cases h; exact .dropped

theorem layoutIpv4_part {w : Ipv4Word} (h : execLayoutIpv4 w s = .next t) : PartEffect s t := by
  unfold execLayoutIpv4 at h
  split at h <;> exact answer_part h

theorem layoutTcp_part {w : TcpWord} (h : execLayoutTcp w s = .next t) : PartEffect s t := by
  unfold execLayoutTcp at h
  split at h <;> exact answer_part h

theorem layoutUdp_part {w : UdpWord} (h : execLayoutUdp w s = .next t) : PartEffect s t := by
  unfold execLayoutUdp at h
  split at h <;> exact answer_part h

/-- Everything a host command or a phase step can do, `DECODE_PACKET` apart. -/
theorem exec_move {i : Instr} (hm : isTransactionMove i = true) (hi : ∀ bs, i ≠ .decodePacket bs) (h : exec i s = .next t) :
    Move s t := by
  cases i
  case decodePacket bs => exact absurd rfl (hi bs)
  case stepEth => exact stepEth_move h
  case stepIp => exact stepIp_move h
  case stepDispatch => exact stepDispatch_move h
  case stepIcmp => exact stepIcmp_move h
  case stepTcp => exact stepTcp_move h
  case stepUdp => exact stepUdp_move h
  case start => exact start_move h
  case loadFrame bs => exact loadFrame_move h
  case read r => obtain ⟨o, rfl⟩ := execRead_eq_next h; exact .result o
  all_goals cases hm

/-- Everything a part of a step, run by itself, can do. -/
theorem exec_part {i : Instr} (hm : isTransactionMove i = false) (h : exec i s = .next t) : PartEffect s t := by
  cases i
  case rdU8 => exact cursorOp_part within_rdU8 h
  case rdU16 => exact cursorOp_part within_rdU16 h
  case rdU32 => exact cursorOp_part within_rdU32 h
  case rdBits n => exact cursorOp_part within_rdBits h
  case rdBit => exact cursorOp_part within_rdBit h
  case take n => exact cursorOp_part within_take h
  case skip n => exact cursorOp_part within_skip h
  case takeRest => exact cursorOp_part (fun _ => within_takeRest) h
  case decodeMac => exact cursorOp_part within_decodeMac h
  case decodeEther => exact cursorOp_part within_decodeEther h
  case decodeTos => exact cursorOp_part within_decodeTos h
  case decodeIpv4 => exact cursorOp_part within_decodeIpv4 h
  case decodeIcmp => exact cursorOp_part within_decodeIcmp h
  case decodeTcp => exact cursorOp_part within_decodeTcp h
  case decodeUdp => exact cursorOp_part within_decodeUdp h
  case classifyEtype v => exact answer_part h
  case classifyProto v => exact answer_part h
  case layoutEth w => exact answer_part h
  case layoutTos w => exact answer_part h
  case layoutIcmp w => exact answer_part h
  case layoutIpv4 w => exact layoutIpv4_part h
  case layoutTcp w => exact layoutTcp_part h
  case layoutUdp w => exact layoutUdp_part h
  all_goals first | (cases hm; done) | exact selectorRow_part h | exact answer_part h

/-- Everything an operation other than `DECODE_PACKET` can do. -/
theorem exec_effect {i : Instr} (hi : ∀ bs, i ≠ .decodePacket bs) (h : exec i s = .next t) : Effect s t := by
  cases hm : isTransactionMove i with
  | true => exact .move (exec_move hm hi h)
  | false =>
    obtain ⟨p, o, hw, rfl⟩ := exec_part hm h
    exact .cursor p o hw

/-- Everything `DECODE_PACKET` can do: at most six of the above in a row, and the read of the outcome (R216). -/
theorem execDecodePacket_eq_next {bs : List Byte} (h : execDecodePacket bs s = .next t) :
    ∃ s₁ s₂ s₃ o, execLoadFrame bs s = .next s₁ ∧ execStart s₁ = .next s₂ ∧ runParser 4 s₂ = .next s₃ ∧ t = s₃.setOut o := by
  unfold execDecodePacket at h
  obtain ⟨s₁, h1, h⟩ := thenDo_eq_next.mp h
  obtain ⟨s₂, h2, h⟩ := thenDo_eq_next.mp h
  obtain ⟨s₃, h3, h⟩ := thenDo_eq_next.mp h
  obtain ⟨o, rfl⟩ := readOutcome_eq_next h
  exact ⟨s₁, s₂, s₃, o, h1, h2, h3, rfl⟩

/-- A property that every move keeps is kept by the parser's moves. -/
theorem runParser_keeps {P : State → Prop} (hP : ∀ s t, P s → Move s t → P t) {k : Nat} (hs : P s)
    (h : runParser k s = .next t) : P t := by
  induction k generalizing s with
  | zero => cases h; exact hs
  | succ k ih =>
    rw [runParser_succ] at h
    obtain ⟨u, hu, h⟩ := thenDo_eq_next.mp h
    exact ih (hP s u hs (parserStep_move hu)) h

/-- A property that every move keeps is kept by `DECODE_PACKET`. -/
theorem decodePacket_keeps {P : State → Prop} (hP : ∀ s t, P s → Move s t → P t) {bs : List Byte} (hs : P s)
    (h : execDecodePacket bs s = .next t) : P t := by
  obtain ⟨s₁, s₂, s₃, o, h1, h2, h3, rfl⟩ := execDecodePacket_eq_next h
  have p2 := hP _ _ (hP _ _ hs (loadFrame_move h1)) (start_move h2)
  exact hP _ _ (runParser_keeps hP p2 h3) (.result o)

/-- A property that every move keeps is kept by every host command and every phase step. -/
theorem exec_move_keeps {P : State → Prop} (hP : ∀ s t, P s → Move s t → P t) {i : Instr} (hm : isTransactionMove i = true)
    (hs : P s) (h : exec i s = .next t) : P t := by
  by_cases hi : ∃ bs, i = .decodePacket bs
  · obtain ⟨bs, rfl⟩ := hi
    exact decodePacket_keeps hP hs h
  · exact hP s t hs (exec_move hm (fun bs e => hi ⟨bs, e⟩) h)

/-- A property that every effect keeps is kept by every operation. -/
theorem exec_keeps {P : State → Prop} (hP : ∀ s t, P s → Effect s t → P t) {i : Instr} (hs : P s)
    (h : exec i s = .next t) : P t := by
  by_cases hi : ∃ bs, i = .decodePacket bs
  · obtain ⟨bs, rfl⟩ := hi
    exact decodePacket_keeps (fun s t p m => hP s t p (.move m)) hs h
  · exact hP s t hs (exec_effect (fun bs e => hi ⟨bs, e⟩) h)

end Sys2Proof.Machine
end

