-- ==== Sys2Proof/Laws/PerInstr.lean ====
section
/-! SUPPORT. The per-instruction family `Tagged`: the bytes of every operation begin with the tag byte of its own row's selector, layout
or operation, and that tag is the one the decoder looks up. -/

namespace Sys2Proof.Laws.Tagged

/-- The first byte of an encoded operation is its tag byte, and the decoder finds that tag under it. -/
def Statement (i : Instr) : Prop := encode i = i.tag.byte :: i.operands ∧ OpTag.all[i.tag.byte.toNat]? = some i.tag

theorem etypeIp : Statement (.etypeIp) := ⟨rfl, rfl⟩
theorem etypeLength0 (v : BitVec 16) : Statement (.etypeLength0 v) := ⟨rfl, rfl⟩
theorem etypeLength1 (v : BitVec 16) : Statement (.etypeLength1 v) := ⟨rfl, rfl⟩
theorem etypeLength2 (v : BitVec 16) : Statement (.etypeLength2 v) := ⟨rfl, rfl⟩
theorem etypeLength3 (v : BitVec 16) : Statement (.etypeLength3 v) := ⟨rfl, rfl⟩
theorem etypeLength4 (v : BitVec 16) : Statement (.etypeLength4 v) := ⟨rfl, rfl⟩
theorem etypeLength5 (v : BitVec 16) : Statement (.etypeLength5 v) := ⟨rfl, rfl⟩
theorem etypeLength6 (v : BitVec 16) : Statement (.etypeLength6 v) := ⟨rfl, rfl⟩
theorem etypeLength7 : Statement (.etypeLength7) := ⟨rfl, rfl⟩
theorem etypeOther (v : BitVec 16) : Statement (.etypeOther v) := ⟨rfl, rfl⟩
theorem ipver4 : Statement (.ipver4) := ⟨rfl, rfl⟩
theorem ipverBad (v : BitVec 4) : Statement (.ipverBad v) := ⟨rfl, rfl⟩
theorem ihlSmall03 (v : BitVec 4) : Statement (.ihlSmall03 v) := ⟨rfl, rfl⟩
theorem ihlSmall4 : Statement (.ihlSmall4) := ⟨rfl, rfl⟩
theorem ihlOk (v : BitVec 4) : Statement (.ihlOk v) := ⟨rfl, rfl⟩
theorem protoIcmp : Statement (.protoIcmp) := ⟨rfl, rfl⟩
theorem protoTcp : Statement (.protoTcp) := ⟨rfl, rfl⟩
theorem protoUdp : Statement (.protoUdp) := ⟨rfl, rfl⟩
theorem protoOther (n : Byte) : Statement (.protoOther n) := ⟨rfl, rfl⟩
theorem tcpdoSmall03 (v : BitVec 4) : Statement (.tcpdoSmall03 v) := ⟨rfl, rfl⟩
theorem tcpdoSmall4 : Statement (.tcpdoSmall4) := ⟨rfl, rfl⟩
theorem tcpdoOk (v : BitVec 4) : Statement (.tcpdoOk v) := ⟨rfl, rfl⟩
theorem udplenSmall (v : BitVec 16) : Statement (.udplenSmall v) := ⟨rfl, rfl⟩
theorem udplenOk (v : BitVec 16) : Statement (.udplenOk v) := ⟨rfl, rfl⟩
theorem layoutEth (w : EthWord) : Statement (.layoutEth w) := ⟨rfl, rfl⟩
theorem layoutIpv4 (w : Ipv4Word) : Statement (.layoutIpv4 w) := ⟨rfl, rfl⟩
theorem layoutTos (w : TosWord) : Statement (.layoutTos w) := ⟨rfl, rfl⟩
theorem layoutIcmp (w : IcmpWord) : Statement (.layoutIcmp w) := ⟨rfl, rfl⟩
theorem layoutTcp (w : TcpWord) : Statement (.layoutTcp w) := ⟨rfl, rfl⟩
theorem layoutUdp (w : UdpWord) : Statement (.layoutUdp w) := ⟨rfl, rfl⟩
theorem stepEth : Statement (.stepEth) := ⟨rfl, rfl⟩
theorem stepIp : Statement (.stepIp) := ⟨rfl, rfl⟩
theorem stepDispatch : Statement (.stepDispatch) := ⟨rfl, rfl⟩
theorem stepIcmp : Statement (.stepIcmp) := ⟨rfl, rfl⟩
theorem stepTcp : Statement (.stepTcp) := ⟨rfl, rfl⟩
theorem stepUdp : Statement (.stepUdp) := ⟨rfl, rfl⟩
theorem rdU8 : Statement (.rdU8) := ⟨rfl, rfl⟩
theorem rdU16 : Statement (.rdU16) := ⟨rfl, rfl⟩
theorem rdU32 : Statement (.rdU32) := ⟨rfl, rfl⟩
theorem rdBits (n : Nat) : Statement (.rdBits n) := ⟨rfl, rfl⟩
theorem rdBit : Statement (.rdBit) := ⟨rfl, rfl⟩
theorem take (n : Nat) : Statement (.take n) := ⟨rfl, rfl⟩
theorem skip (n : Nat) : Statement (.skip n) := ⟨rfl, rfl⟩
theorem takeRest : Statement (.takeRest) := ⟨rfl, rfl⟩
theorem decodeMac : Statement (.decodeMac) := ⟨rfl, rfl⟩
theorem classifyEtype (v : BitVec 16) : Statement (.classifyEtype v) := ⟨rfl, rfl⟩
theorem decodeEther : Statement (.decodeEther) := ⟨rfl, rfl⟩
theorem decodeTos : Statement (.decodeTos) := ⟨rfl, rfl⟩
theorem decodeIpv4 : Statement (.decodeIpv4) := ⟨rfl, rfl⟩
theorem classifyProto (n : Byte) : Statement (.classifyProto n) := ⟨rfl, rfl⟩
theorem decodeIcmp : Statement (.decodeIcmp) := ⟨rfl, rfl⟩
theorem decodeTcp : Statement (.decodeTcp) := ⟨rfl, rfl⟩
theorem decodeUdp : Statement (.decodeUdp) := ⟨rfl, rfl⟩
theorem decodePacket (bytes : List Byte) : Statement (.decodePacket bytes) := ⟨rfl, rfl⟩
theorem start : Statement (.start) := ⟨rfl, rfl⟩
theorem loadFrame (bytes : List Byte) : Statement (.loadFrame bytes) := ⟨rfl, rfl⟩
theorem read (r : Reg) : Statement (.read r) := ⟨rfl, rfl⟩

end Sys2Proof.Laws.Tagged
end

