-- ==== Sys2Proof/Laws/Step.lean ====
section
/-! SUPPORT. What one step does in each of its four cases, and the parser's own run: with no request pending, running the machine is
running the phase steps. -/

namespace Sys2Proof.Machine

variable {s t : State}

/-- The reset input comes first. -/
theorem step_reset (h : s.rst = true) : step s = .next s.takeReset := by simp [step, fetch, h]

/-- The oldest pending request comes next, if it is a host command or the parser's move. -/
theorem step_request (h : s.rst = false) (hc : s.call = []) {i : Instr} {rest : List Byte} (hd : decode s.req = .ok i rest)
    (hm : isTransactionMove i = true) : step s = exec i (s.setReq rest) := by
  have hq : s.req ≠ [] := by rintro hq; rw [hq] at hd; cases hd
  simp [step, fetch, fetchRequest, h, hc, hq, hd, hm]

/-- No other operation is a request. -/
theorem step_notARequest (h : s.rst = false) (hc : s.call = []) {i : Instr} {rest : List Byte} (hd : decode s.req = .ok i rest)
    (hm : isTransactionMove i = false) : step s = .refused .notARequest := by
  have hq : s.req ≠ [] := by rintro hq; rw [hq] at hd; cases hd
  simp [step, fetch, fetchRequest, h, hc, hq, hd, hm]

/-- Pending bytes that are no operation. -/
theorem step_undecodable (h : s.rst = false) (hc : s.call = []) (hq : s.req ≠ []) {e : DecodeError} (hd : decode s.req = .bad e) :
    step s = .refused (.undecodable e) := by simp [step, fetch, fetchRequest, h, hc, hq, hd]

/-- The call bench runs its operation in IDLE. -/
theorem step_call (h : s.rst = false) (hp : s.phase = .idle) {i : Instr} {rest : List Byte} (hd : decode s.call = .ok i rest) :
    step s = exec i (s.setCall rest) := by
  have hq : s.call ≠ [] := by rintro hq; rw [hq] at hd; cases hd
  simp [step, fetch, fetchCall, h, hq, hd, hp]

/-- The call bench runs nothing outside IDLE. -/
theorem step_callOutsideIdle (h : s.rst = false) (hq : s.call ≠ []) (hp : s.phase ≠ .idle) :
    step s = .refused .callOutsideIdle := by simp [step, fetch, fetchCall, h, hq, hp]

/-- With no request pending the parser moves by itself. -/
theorem step_parser (h : s.rst = false) (hc : s.call = []) (hq : s.req = []) : step s = parserStep s := by
  simp only [step, fetch, fetchPhase, h, hc, hq]
  cases hp : s.phase <;> simp [Phase.code, selectStep, parserStep, hp] <;> rfl

/-- What a step with an empty call bench can be: the reset event, a host command or parser's move that was requested, or the parser's
own move. -/
theorem step_cases (hc : s.call = []) (h : step s = .next t) :
    s.rst = true ∧ t = s.takeReset ∨
    s.rst = false ∧ (∃ i rest, decode s.req = .ok i rest ∧ isTransactionMove i = true ∧ exec i (s.setReq rest) = .next t) ∨
    s.rst = false ∧ s.req = [] ∧ parserStep s = .next t := by
  cases hr : s.rst with
  | true => rw [step_reset hr] at h; cases h; exact .inl ⟨rfl, rfl⟩
  | false =>
    by_cases hq : s.req = []
    · exact .inr (.inr ⟨rfl, hq, step_parser hr hc hq ▸ h⟩)
    · cases hd : decode s.req with
      | bad e => rw [step_undecodable hr hc hq hd] at h; cases h
      | ok i rest =>
        cases hm : isTransactionMove i with
        | false => rw [step_notARequest hr hc hd hm] at h; cases h
        | true => exact .inr (.inl ⟨rfl, i, rest, rfl, hm, step_request hr hc hd hm ▸ h⟩)

/-- A move touches neither the reset input nor the requests nor the call bench. -/
theorem Move.model_fields (h : Move s t) : t.rst = s.rst ∧ t.req = s.req ∧ t.call = s.call := by
  cases h <;> simp

/-- With no request pending, running the machine is running the parser. -/
theorem core_run_eq_runParser (k : Nat) (h : s.rst = false) (hc : s.call = []) (hq : s.req = []) :
    Host.Core.run Sys2Proof.core k s = runParser k s := by
  induction k generalizing s with
  | zero => rfl
  | succ k ih =>
    have hs : Sys2Proof.core.step s = parserStep s := step_parser h hc hq
    simp only [Host.Core.run]
    rw [hs, runParser_succ]
    cases hp : parserStep s with
    | next t =>
      obtain ⟨h1, h2, h3⟩ := (parserStep_move hp).model_fields
      exact ih (h1.trans h) (h3.trans hc) (h2.trans hq)
    | fault r => rfl
    | refused r => rfl

end Sys2Proof.Machine
end

