-- ==== Sys2Proof/Tests/Slice0.lean ====
section
/-! SUPPORT. The model's own tests: words written out from the spec's encodings decode to the operations they stand for; the check on
well-formed operations refuses an ill-formed one for each of its tests; single steps on the vectors of spec/95_test_vectors.md; and,
for every statement with hypotheses, states and operands that meet them together. Expected values come from the spec, none from a
run of the model. -/

namespace Sys2Proof.Tests

open Sys2Proof Sys2Proof.Machine Sys2Proof.Claims

/-! ### The spec's building blocks (95, conventions) and helpers -/

/-- `E`. -/
def ethBytes : List Byte := [0x08, 0x00, 0x20, 0x86, 0x35, 0x4B, 0x00, 0xE0, 0xF7, 0x26, 0x3F, 0xE9, 0x08, 0x00]

/-- `I`, protocol 1. -/
def ipBytes : List Byte := [0x45, 0x00, 0x00, 0x54, 0xAA, 0xFB, 0x40, 0x00, 0xFC, 0x01, 0xFA, 0x30, 0x8B, 0x85, 0xE9, 0x02,
    0x8B, 0x85, 0xD9, 0x6E]

/-- `I6`, protocol 6. -/
def ip6Bytes : List Byte := [0x45, 0x00, 0x00, 0x2C, 0x12, 0x34, 0x40, 0x00, 0x40, 0x06, 0x00, 0x00, 0x0A, 0x00, 0x00, 0x01,
    0x0A, 0x00, 0x00, 0x02]

/-- `I17`, IHL 6, protocol 17. -/
def ip17Bytes : List Byte := [0x46, 0xB8, 0x00, 0x26, 0x12, 0x34, 0x20, 0x01, 0x40, 0x11, 0x00, 0x00, 0x0A, 0x00, 0x00, 0x01,
    0x0A, 0x00, 0x00, 0x02, 0x01, 0x02, 0x03, 0x04]

/-- `I17b`, protocol 17. -/
def ip17bBytes : List Byte := [0x45, 0x00, 0x00, 0x26, 0x12, 0x34, 0x00, 0x00, 0x40, 0x11, 0x00, 0x00, 0x0A, 0x00, 0x00, 0x01,
    0x0A, 0x00, 0x00, 0x02]

/-- `I47`, protocol 0x2F. -/
def ip47Bytes : List Byte := [0x45, 0x00, 0x00, 0x14, 0x00, 0x00, 0x00, 0x00, 0x40, 0x2F, 0x00, 0x00, 0xC0, 0xA8, 0x00, 0x01,
    0xC0, 0xA8, 0x00, 0x02]

/-- `IC`. -/
def icmpBytes : List Byte := [0x00, 0x00, 0x45, 0xDA, 0x1E, 0x60, 0x00, 0x00]

/-- `T`. -/
def tcpBytes : List Byte := [0x90, 0x05, 0x00, 0x17, 0x72, 0x14, 0xF1, 0x14, 0x00, 0x00, 0x00, 0x00, 0x60, 0x02, 0x22, 0x38,
    0xA9, 0x2C, 0x00, 0x00, 0x02, 0x04, 0x05, 0xB4]

/-- `U`. -/
def udpBytes : List Byte := [0x99, 0xD0, 0x04, 0x3F, 0x00, 0x12, 0x72, 0x28, 0x68, 0x65, 0x6C, 0x6C, 0x6F, 0x68, 0x65, 0x6C,
    0x6C, 0x6F]

/-- A state after `LOAD_FRAME(bs)` from reset, with PHASE and CUR set. -/
def onFrame (bs : List Byte) (ph : Phase) (p : Nat) : State := { State.reset.load bs with phase := ph, cur := p }

/-- The next state meets a test. -/
def nextIs (x : Outcome) (p : State → Bool) : Bool :=
  match x with
  | .next t => p t
  | .fault _ => false
  | .refused _ => false

/-- The operation ends at a cursor and hands a value to its caller. -/
def gives (x : Outcome) (p : Nat) (o : Out) : Bool := nextIs x fun t => decide (t.cur = p ∧ t.out = o)

/-- The operation fails for lack of input and leaves the cursor at `p`. -/
def fails (x : Outcome) (p : Nat) : Bool := gives x p (.failed .insufficientData)

/-- `Err(K, c) @ n` of the vectors: PHASE ERROR, the kind, the cause, CUR, no result register with a value. -/
def errs (x : Outcome) (k : ErrKind) (c : ErrCause) (p : Nat) : Bool := nextIs x fun t =>
  decide (t.phase = .error ∧ t.errKind = k ∧ t.errCause = c ∧ t.cur = p ∧ t.eth = none ∧ t.ip = none ∧ t.ctTag = none ∧
    t.icmp = none ∧ t.tcp = none ∧ t.udp = none ∧ t.pay = none)

/-- The operation is refused for a reason. -/
def refusedBy (x : Outcome) (r : Refusal) : Bool :=
  match x with
  | .next _ => false
  | .fault _ => false
  | .refused e => decide (e = r)

/-- The IPv4 values handed to the caller. -/
def ipv4Of : Out → Option Ipv4Regs
  | .ipv4 g => some g
  | _ => none

/-- Bytes decode to an operation and nothing is left over. -/
def reads (bs : List Byte) (i : Instr) : Bool := decide (decode bs = .ok i [])

/-! ### Decoding: words written out from the encoding rules, behind the model's tag byte (log entry 1) -/

/-- R98: the ten rows of the EtherType selector. -/
theorem test_decode_etype :
    reads [0x00, 0x08, 0x00] .etypeIp = true ∧
    reads [0x00, 0x03, 0xFF] (.etypeLength0 0x03FF) = true ∧
    reads [0x00, 0x04, 0x00] (.etypeLength1 0x0400) = true ∧
    reads [0x00, 0x05, 0x00] (.etypeLength2 0x0500) = true ∧
    reads [0x00, 0x05, 0x80] (.etypeLength3 0x0580) = true ∧
    reads [0x00, 0x05, 0xC0] (.etypeLength4 0x05C0) = true ∧
    reads [0x00, 0x05, 0xD0] (.etypeLength5 0x05D0) = true ∧
    reads [0x00, 0x05, 0xDB] (.etypeLength6 0x05DB) = true ∧
    reads [0x00, 0x05, 0xDC] .etypeLength7 = true ∧
    reads [0x00, 0x05, 0xDD] (.etypeOther 0x05DD) = true ∧
    reads [0x00, 0x08, 0x06] (.etypeOther 0x0806) = true := by
  decide

/-- R99, R101: the version, IHL and data-offset selectors. -/
theorem test_decode_nibbles :
    reads [0x01, 0x04] .ipver4 = true ∧
    reads [0x01, 0x06] (.ipverBad 6) = true ∧
    reads [0x02, 0x03] (.ihlSmall03 3) = true ∧
    reads [0x02, 0x04] .ihlSmall4 = true ∧
    reads [0x02, 0x05] (.ihlOk 5) = true ∧
    reads [0x04, 0x03] (.tcpdoSmall03 3) = true ∧
    reads [0x04, 0x04] .tcpdoSmall4 = true ∧
    reads [0x04, 0x0F] (.tcpdoOk 15) = true := by
  decide

/-- R100, R101: the protocol and UDP length selectors. -/
theorem test_decode_proto_and_udplen :
    reads [0x03, 0x01] .protoIcmp = true ∧
    reads [0x03, 0x06] .protoTcp = true ∧
    reads [0x03, 0x11] .protoUdp = true ∧
    reads [0x03, 0x2F] (.protoOther 0x2F) = true ∧
    reads [0x05, 0x00, 0x07] (.udplenSmall 7) = true ∧
    reads [0x05, 0x00, 0x08] (.udplenOk 8) = true := by
  decide

/-- R91 on the source's Ethernet header. -/
theorem test_decode_layout_eth :
    reads [0x06, 0x08, 0x00, 0x20, 0x86, 0x35, 0x4B, 0x00, 0xE0, 0xF7, 0x26, 0x3F, 0xE9, 0x08,
        0x00] (.layoutEth { dst := 0x08002086354B, src := 0x00E0F7263FE9, typ := 0x0800 }) = true := by
  decide +kernel

/-- R92 on the source's IPv4 header (V-IP1). -/
theorem test_decode_layout_ipv4 :
    reads [0x07, 0x45, 0x00, 0x00, 0x54, 0xAA, 0xFB, 0x40, 0x00, 0xFC, 0x01, 0xFA, 0x30, 0x8B, 0x85, 0xE9, 0x02, 0x8B, 0x85,
        0xD9, 0x6E] (.layoutIpv4 { ihl := 5, tos := { prec := 0, d := false, t := false, r := false, rsv := 0 }, totlen := 84,
                                   ident := 43771, rsv := false, df := true, mf := false, fragoff := 0, ttl := 252, proto := 1,
                                   csum := 0xFA30, src := 0x8B85E902, dst := 0x8B85D96E }) = true := by
  decide +kernel

/-- R93 (V-T2, V-T8). -/
theorem test_decode_layout_tos :
    reads [0x08, 0xB8] (.layoutTos { prec := 5, d := true, t := true, r := false, rsv := 0 }) = true ∧
    reads [0x08, 0x03] (.layoutTos { prec := 0, d := false, t := false, r := false, rsv := 3 }) = true := by
  decide

/-- R94 (S6). -/
theorem test_decode_layout_icmp :
    reads [0x09, 0x00, 0x00, 0x45, 0xDA] (.layoutIcmp { type := 0, code := 0, csum := 0x45DA }) = true := by
  decide +kernel

/-- R95 (S8). -/
theorem test_decode_layout_tcp :
    reads [0x0A, 0x90, 0x05, 0x00, 0x17, 0x72, 0x14, 0xF1, 0x14, 0x00, 0x00, 0x00, 0x00, 0x60, 0x02, 0x22, 0x38, 0xA9, 0x2C,
        0x00, 0x00] (.layoutTcp { sport := 36869, dport := 23, seq := 1913975060, acknum := 0, doff := 6, rsv1 := 0, rsv2 := 0,
                                  urg := false, ack := false, psh := false, rst := false, syn := true, fin := false,
                                  win := 8760, csum := 0xA92C, urp := 0 }) = true := by
  decide +kernel

/-- R96 (S7). -/
theorem test_decode_layout_udp :
    reads [0x0B, 0x99, 0xD0, 0x04, 0x3F, 0x00, 0x12, 0x72, 0x28] (.layoutUdp { sport := 39376, dport := 1087, len := 18,
                                                                               csum := 0x7228 }) = true := by
  decide +kernel

/-- R105: the PHASE code selects the step. -/
theorem test_decode_phase :
    reads [0x0C, 0x01] .stepEth = true ∧
    reads [0x0C, 0x02] .stepIp = true ∧
    reads [0x0C, 0x03] .stepDispatch = true ∧
    reads [0x0C, 0x04] .stepIcmp = true ∧
    reads [0x0C, 0x05] .stepTcp = true ∧
    reads [0x0C, 0x06] .stepUdp = true := by
  decide

/-- R132 to R141: the primitives and their arguments. -/
theorem test_decode_prims :
    reads [0x0D] .rdU8 = true ∧
    reads [0x0E] .rdU16 = true ∧
    reads [0x0F] .rdU32 = true ∧
    reads [0x10, 0x20] (.rdBits 32) = true ∧
    reads [0x11] .rdBit = true ∧
    reads [0x12, 0x00, 0x00, 0x00, 0x06] (.take 6) = true ∧
    reads [0x13, 0x00, 0x00, 0x01, 0x02] (.skip 258) = true ∧
    reads [0x14] .takeRest = true := by
  decide

/-- The ten decoders and their arguments. -/
theorem test_decode_decoders :
    reads [0x15] .decodeMac = true ∧
    reads [0x16, 0x05, 0xDC] (.classifyEtype 0x05DC) = true ∧
    reads [0x17] .decodeEther = true ∧
    reads [0x18] .decodeTos = true ∧
    reads [0x19] .decodeIpv4 = true ∧
    reads [0x1A, 0x2F] (.classifyProto 0x2F) = true ∧
    reads [0x1B] .decodeIcmp = true ∧
    reads [0x1C] .decodeTcp = true ∧
    reads [0x1D] .decodeUdp = true ∧
    reads [0x1E, 0x00, 0x00, 0x00, 0x02, 0x45, 0xAB] (.decodePacket [0x45, 0xAB]) = true := by
  decide

/-- R220 to R222: the host commands and their arguments. -/
theorem test_decode_commands :
    reads [0x1F] .start = true ∧
    reads [0x20, 0x00, 0x00, 0x00, 0x03, 0x01, 0x02, 0x03] (.loadFrame [1, 2, 3]) = true ∧
    reads [0x21, 0x00] (.read .phase) = true ∧
    reads [0x21, 0x05] (.read .ethDst) = true ∧
    reads [0x21, 0x32] (.read .payload) = true := by
  decide

/-- What is no operation is rejected by name: reserved PHASE codes (93 U8), RD_BITS(0) and RD_BITS(33) (93 U5), a version nibble that
is not the fixed 4 of layout IPV4 (R92), too few bytes, an unknown tag. -/
theorem test_decode_rejects :
    decode [0x0C, 0x00] = .bad (.noPhaseStep 0) ∧ decode [0x0C, 0x09] = .bad (.noPhaseStep 9) ∧
    decode [0x10, 0x00] = .bad (.bitCount 0) ∧ decode [0x10, 0x21] = .bad (.bitCount 33) ∧
    decode (0x07 :: List.replicate 20 0x60) = .bad .versionNotFour ∧ decode [0x00, 0x08] = .bad .truncated ∧
    decode [0x20, 0, 0, 0, 2, 7] = .bad .truncated ∧ decode [0x01, 0x10] = .bad (.fieldTooWide 16) ∧
    decode [0xFF] = .bad (.unknownTag 0xFF) ∧ decode [0x21, 0x33] = .bad (.unknownRegister 0x33) ∧ decode [] = .bad .noBytes := by
  decide +kernel

/-- Words as the table numbers them (log entry 2): the PHASE code 1, ETYPE.LENGTH.1's match, PROTO.UDP's match. -/
theorem test_table_words :
    decodeTableWord 8 1 = some .stepEth ∧ decodeTableWord 24 1024 = some (.etypeLength1 1024) ∧
    decodeTableWord 16 0x11 = some .protoUdp := by decide

/-- The word of STEP_IP, placed behind reset, runs in the very next step: with no byte in the frame it fails as V-IP13 does. -/
theorem test_placed_word_runs : errs (step (State.reset.withFetchWord 8 2)) .invalidIpHeader .insufficientData 0 = true := by decide

/-- A selector row placed behind reset runs on the call bench in IDLE and hands its outcome over (log entries 2, 4): the table words of
ETYPE.LENGTH.1 and PROTO.UDP, and the bytes of IPVER.BAD. -/
theorem test_placed_row_runs :
    gives (step (State.reset.withFetchWord 24 1024)) 0 (.etherTag .length) = true ∧
    gives (step (State.reset.withFetchWord 16 0x11)) 0 (.protoRow .udp .udp) = true ∧
    gives (step (State.reset.placeBytes [0x01, 0x06])) 0 (.errorRow .invalidIpHeader .badVersion) = true := by decide

/-- R105, R3: a primitive is no request, and the call bench serves IDLE only (log entry 4). -/
theorem test_parts_are_no_requests :
    refusedBy (step { onFrame [1] .ip 0 with req := [0x0D] }) .notARequest = true ∧
    refusedBy (step { onFrame [1] .ip 0 with call := [0x0D] }) .callOutsideIdle = true ∧
    gives (step { onFrame [7] .idle 0 with call := [0x0D] }) 8 (.word 8 7) = true := by decide

/-! ### WellFormed: one ill-formed operation for each check -/

/-- A selector row on a value that another row takes first (R106). -/
theorem test_wf_refuses_selector_rows :
    (Instr.etypeLength0 0x0800).wf = false ∧ (Instr.etypeLength1 0x0500).wf = false ∧ (Instr.etypeLength2 0x0580).wf = false ∧
    (Instr.etypeLength3 0x05C0).wf = false ∧ (Instr.etypeLength4 0x05D0).wf = false ∧ (Instr.etypeLength5 0x05D8).wf = false ∧
    (Instr.etypeLength6 0x05DC).wf = false ∧ (Instr.etypeOther 0x0800).wf = false ∧ (Instr.ipverBad 4).wf = false ∧
    (Instr.ihlSmall03 4).wf = false ∧ (Instr.ihlOk 4).wf = false ∧ (Instr.protoOther 6).wf = false ∧
    (Instr.tcpdoSmall03 5).wf = false ∧ (Instr.tcpdoOk 3).wf = false ∧ (Instr.udplenSmall 8).wf = false ∧
    (Instr.udplenOk 7).wf = false := by decide

/-- RD_BITS(0), RD_BITS(33) (R135) and lengths that do not fit (log entry 1). -/
theorem test_wf_refuses_operands :
    (Instr.rdBits 0).wf = false ∧ (Instr.rdBits 33).wf = false ∧ (Instr.take (2 ^ 32)).wf = false ∧
    (Instr.skip (2 ^ 32)).wf = false := by decide

/-- A frame of 2^32 bytes does not fit the model's length operand (log entry 1). -/
theorem test_wf_refuses_long_frames (bs : List Byte) (h : bs.length = 2 ^ 32) :
    (Instr.loadFrame bs).wf = false ∧ (Instr.decodePacket bs).wf = false := by
  simp [Instr.wf, lengthFits, h]

/-! ### Selectors and layouts -/

/-- R98: each row's class. -/
theorem test_etype_rows :
    gives (exec .etypeIp State.reset) 0 (.etherTag .ip) = true ∧
    gives (exec (.etypeLength0 0x0000) State.reset) 0 (.etherTag .length) = true ∧
    gives (exec (.etypeLength1 0x04FF) State.reset) 0 (.etherTag .length) = true ∧
    gives (exec (.etypeLength2 0x0500) State.reset) 0 (.etherTag .length) = true ∧
    gives (exec (.etypeLength3 0x05BF) State.reset) 0 (.etherTag .length) = true ∧
    gives (exec (.etypeLength4 0x05C0) State.reset) 0 (.etherTag .length) = true ∧
    gives (exec (.etypeLength5 0x05D7) State.reset) 0 (.etherTag .length) = true ∧
    gives (exec (.etypeLength6 0x05D8) State.reset) 0 (.etherTag .length) = true ∧
    gives (exec .etypeLength7 State.reset) 0 (.etherTag .length) = true ∧
    gives (exec (.etypeOther 0x0801) State.reset) 0 (.etherTag .other) = true ∧
    refusedBy (exec (.etypeOther 0x0800) State.reset) .rowNotSelected = true := by
  decide

/-- R99 to R101: the header length of IHL 6 is 24, of data offset 15 is 60, UDP length 18 leaves 10 bytes. -/
theorem test_rows_that_continue :
    gives (exec .ipver4 State.reset) 0 .proceed = true ∧
    gives (exec (.ihlOk 6) State.reset) 0 (.headerLen 24) = true ∧
    gives (exec (.tcpdoOk 15) State.reset) 0 (.headerLen 60) = true ∧
    gives (exec (.udplenOk 18) State.reset) 0 (.payloadLen 10) = true ∧
    gives (exec .protoIcmp State.reset) 0 (.protoRow .icmp .icmp) = true ∧
    gives (exec .protoTcp State.reset) 0 (.protoRow .tcp .tcp) = true ∧
    gives (exec .protoUdp State.reset) 0 (.protoRow .udp .udp) = true ∧
    gives (exec (.protoOther 0x2F) State.reset) 0 (.protoRow .other .done) = true := by
  decide

/-- R99, R101: the rows whose outcome is an error hand it over and leave PHASE and every register alone, even where the step that
consults the selector would run (R230). -/
theorem test_rows_that_raise :
    exec (.ipverBad 6) (onFrame [] .ip 4) = .next { onFrame [] .ip 4 with out := .errorRow .invalidIpHeader .badVersion } ∧
    exec (.ihlSmall03 0) State.reset = .next { State.reset with out := .errorRow .invalidIpHeader .headerLengthTooSmall } ∧
    exec .ihlSmall4 State.reset = .next { State.reset with out := .errorRow .invalidIpHeader .headerLengthTooSmall } ∧
    exec (.tcpdoSmall03 3) State.reset = .next { State.reset with out := .errorRow .invalidTcpHeader .dataOffsetTooSmall } ∧
    exec .tcpdoSmall4 State.reset = .next { State.reset with out := .errorRow .invalidTcpHeader .dataOffsetTooSmall } ∧
    exec (.udplenSmall 7) State.reset = .next { State.reset with out := .errorRow .invalidUdpPacket .lengthTooSmall } :=
  ⟨rfl, rfl, rfl, rfl, rfl, rfl⟩

/-- R91 to R96: where the fields of a layout go. -/
theorem test_layouts :
    gives (exec (.layoutEth { dst := 1, src := 2, typ := 0x002E }) State.reset) 0 (.ether { dst := 1, src := 2,
                                                                                            typeVal := 0x002E,
                                                                                            typeTag := .length }) = true ∧
    gives (exec (.layoutTos { prec := 5, d := true, t := true, r := false, rsv := 3 }) State.reset) 0 (.tos { raw := 0xBB,
                                                                                                              prec := 5,
                                                                                                              d := true,
                                                                                                              t := true,
                                                                                                              r := false }) =
        true ∧
    gives (exec (.layoutIcmp { type := 8, code := 1, csum := 2 }) State.reset) 0 (.icmp { type := 8, code := 1, csum := 2 }) =
        true ∧
    gives (exec (.layoutUdp { sport := 1, dport := 2, len := 8, csum := 4 }) State.reset) 0 (.udpFixed { sport := 1, dport := 2,
                                                                                                         len := 8,
                                                                                                         csum := 4 } 0) = true ∧
    gives (exec (.layoutUdp { sport := 1, dport := 2, len := 7, csum := 4 }) State.reset) 0 (.failed .lengthTooSmall) =
        true := by
  decide

/-- R92, R95 with R97: IHL 15 is 60 bytes; data offset 4 is too small. -/
theorem test_layout_ipv4_and_tcp :
    nextIs (exec (.layoutIpv4 { ihl := 15, tos := { prec := 0, d := false, t := false, r := false, rsv := 0 }, totlen := 0,
                                ident := 0, rsv := true, df := false, mf := true, fragoff := 8191, ttl := 1, proto := 6,
                                csum := 0, src := 0, dst := 0 }) State.reset) (fun t => (ipv4Of t.out).any fun g => decide
        (g.hlen = 60 ∧ g.df = false ∧ g.mf = true ∧ g.fragoff = 8191 ∧ g.protoTag = .tcp)) = true ∧
    gives (exec (.layoutTcp { sport := 0, dport := 0, seq := 0, acknum := 0, doff := 4, rsv1 := 0, rsv2 := 0, urg := false,
                              ack := false, psh := false, rst := false, syn := false, fin := false, win := 0, csum := 0,
                              urp := 0 }) State.reset) 0 (.failed .dataOffsetTooSmall) = true := by
  decide

/-! ### Cursor primitives (95 section 2) -/

/-- V-C2, V-C3; R67. -/
theorem test_rd_u8 :
    gives (exec .rdU8 (onFrame [0xFC, 0x01] .idle 8)) 16 (.word 8 0x01) = true ∧
    fails (exec .rdU8 (onFrame [0xFC, 0x01] .idle 16)) 16 = true ∧
    refusedBy (exec .rdU8 (onFrame [0xFC, 0x01] .idle 4)) .unalignedCursor = true := by
  decide

/-- V-C4, V-C5, V-C6. -/
theorem test_rd_u16 :
    gives (exec .rdU16 (onFrame [0x99, 0xD0] .idle 0)) 16 (.word 16 39376) = true ∧
    fails (exec .rdU16 (onFrame [0x99] .idle 0)) 0 = true ∧
    gives (exec .rdU16 (onFrame [0x00, 0x99, 0xD0] .idle 8)) 24 (.word 16 0x99D0) = true := by
  decide

/-- V-C7, V-C8. -/
theorem test_rd_u32 :
    gives (exec .rdU32 (onFrame [0x72, 0x14, 0xF1, 0x14] .idle 0)) 32 (.word 32 1913975060) = true ∧
    fails (exec .rdU32 (onFrame [0x72, 0x14, 0xF1] .idle 0)) 0 = true := by
  decide +kernel

/-- V-C11, V-C15, V-C16, V-C17, V-C19, V-C20. -/
theorem test_rd_bits :
    gives (exec (.rdBits 4) (onFrame [0x45] .idle 4)) 8 (.word 4 5) = true ∧
    gives (exec (.rdBits 13) (onFrame [0x20, 0x01] .idle 3)) 16 (.word 13 1) = true ∧
    gives (exec (.rdBits 13) (onFrame [0xFF, 0xFF] .idle 3)) 16 (.word 13 8191) = true ∧
    fails (exec (.rdBits 13) (onFrame [0x40] .idle 3)) 3 = true ∧
    gives (exec (.rdBits 3) (onFrame [0xA5] .idle 5)) 8 (.word 3 5) = true ∧
    fails (exec (.rdBits 4) (onFrame [0xA5] .idle 5)) 5 = true := by
  decide

/-- 93 U5. -/
theorem test_rd_bits_undefined :
    refusedBy (exec (.rdBits 0) (onFrame [0x45] .idle 0)) (.bitCountUndefined 0) = true ∧
    refusedBy (exec (.rdBits 33) (onFrame [0x45, 0x45, 0x45, 0x45, 0x45] .idle 0)) (.bitCountUndefined 33) = true := by
  decide

/-- V-C14, V-C18, V-C21. -/
theorem test_rd_bit :
    gives (exec .rdBit (onFrame [0xB8] .idle 5)) 6 (.word 1 0) = true ∧
    gives (exec .rdBit (onFrame [0x40] .idle 1)) 2 (.word 1 1) = true ∧
    fails (exec .rdBit (onFrame [0xA5] .idle 8)) 8 = true := by
  decide

/-- V-C22, V-C23, V-C24. -/
theorem test_take :
    gives (exec (.take 6) (onFrame [0x08, 0x00, 0x20, 0x86, 0x35, 0x4B, 0x00] .idle 0)) 48 (.run { off := 0, len := 6 } [0x08,
        0x00, 0x20, 0x86, 0x35, 0x4B]) = true ∧
    fails (exec (.take 6) (onFrame [0x08, 0x00, 0x20, 0x86, 0x35] .idle 0)) 0 = true ∧
    gives (exec (.take 0) (onFrame [0xAA, 0xBB] .idle 16)) 16 (.run { off := 2, len := 0 } []) = true := by
  decide

/-- V-C25, V-C26. -/
theorem test_skip :
    gives (exec (.skip 4) (onFrame (List.replicate 24 7) .idle 160)) 192 .nothing = true ∧
    fails (exec (.skip 4) (onFrame (List.replicate 22 7) .idle 160)) 160 = true := by
  decide

/-- V-C27, V-C28. -/
theorem test_take_rest :
    gives (exec .takeRest (onFrame [0xAA, 0xBB, 0xCC] .idle 8)) 24 (.run { off := 1, len := 2 } [0xBB, 0xCC]) = true ∧
    gives (exec .takeRest (onFrame [0xAA, 0xBB, 0xCC] .idle 24)) 24 (.run { off := 3, len := 0 } []) = true := by
  decide

/-! ### Decoders (95 sections 1, 3, 4, 5) -/

/-- R151: the first byte is the most significant. -/
theorem test_decode_mac :
    gives (exec .decodeMac (onFrame [0x08, 0x00, 0x20, 0x86, 0x35, 0x4B] .idle 0)) 48 (.word 48 0x08002086354B) = true := by
  decide +kernel

/-- R152. -/
theorem test_mac_text :
    macText 0x08002086354B = "08:00:20:86:35:4b".toList ∧
    macText 0xFFFFFFFFFFFF = "ff:ff:ff:ff:ff:ff".toList := by
  decide +kernel

/-- V-E1, V-E6, V-E7, V-E11, V-E12, V-E14. -/
theorem test_classify_etype :
    gives (exec (.classifyEtype 0) State.reset) 0 (.etherTag .length) = true ∧
    gives (exec (.classifyEtype 0x05DC) State.reset) 0 (.etherTag .length) = true ∧
    gives (exec (.classifyEtype 0x05DD) State.reset) 0 (.etherTag .other) = true ∧
    gives (exec (.classifyEtype 0x0800) State.reset) 0 (.etherTag .ip) = true ∧
    gives (exec (.classifyEtype 0x0801) State.reset) 0 (.etherTag .other) = true ∧
    gives (exec (.classifyEtype 0x0008) State.reset) 0 (.etherTag .length) = true := by
  decide

/-- V-P2, V-P5, V-P6, V-P8, V-P11. -/
theorem test_classify_proto :
    gives (exec (.classifyProto 0x01) State.reset) 0 (.protoTag .icmp) = true ∧
    gives (exec (.classifyProto 0x06) State.reset) 0 (.protoTag .tcp) = true ∧
    gives (exec (.classifyProto 0x07) State.reset) 0 (.protoTag .other) = true ∧
    gives (exec (.classifyProto 0x11) State.reset) 0 (.protoTag .udp) = true ∧
    gives (exec (.classifyProto 0x2F) State.reset) 0 (.protoTag .other) = true := by
  decide

/-- V-E22, V-E27. -/
theorem test_decode_ether :
    gives (exec .decodeEther (onFrame [0x01, 0x80, 0xC2, 0x00, 0x00, 0x00, 0x00, 0xE0, 0xF7, 0x26, 0x3F, 0xE9, 0x00,
        0x2E] .idle 0)) 112 (.ether { dst := 0x0180C2000000, src := 0x00E0F7263FE9, typeVal := 0x002E, typeTag := .length }) =
        true ∧
    fails (exec .decodeEther (onFrame [0x08, 0x00, 0x20, 0x86, 0x35, 0x4B, 0x00, 0xE0, 0xF7, 0x26, 0x3F] .idle 0)) 48 =
        true := by
  decide +kernel

/-- V-T2, V-T8, V-T10. -/
theorem test_decode_tos :
    gives (exec .decodeTos (onFrame [0xB8] .idle 0)) 8 (.tos { raw := 0xB8, prec := 5, d := true, t := true, r := false }) =
        true ∧
    gives (exec .decodeTos (onFrame [0x03] .idle 0)) 8 (.tos { raw := 0x03, prec := 0, d := false, t := false, r := false }) =
        true ∧
    fails (exec .decodeTos (onFrame [] .idle 0)) 0 = true := by
  decide

/-- S4 (V-IP2) and V-IP15, with the header at byte 0. -/
theorem test_decode_ipv4 :
    gives (exec .decodeIpv4 (onFrame ip17Bytes .idle 0)) 192 (.ipv4 { hlen := 24,
                                                                      tos := { raw := 0xB8, prec := 5, d := true, t := true,
                                                                               r := false }, totlen := 38, ident := 4660,
                                                                      df := false, mf := true, fragoff := 1, ttl := 64,
                                                                      protoVal := 17, protoTag := .udp, csum := 0,
                                                                      src := 0x0A000001, dst := 0x0A000002 }) = true ∧
    fails (exec .decodeIpv4 (onFrame [0x45, 0x00, 0x00, 0x54, 0xAA, 0xFB, 0x40] .idle 0)) 51 = true := by
  decide +kernel

/-- V-IC7 and V-IC9's header at byte 0. -/
theorem test_decode_icmp :
    gives (exec .decodeIcmp (onFrame [0xFF, 0x03, 0x12, 0x34, 0x56,
        0x78] .idle 0)) 32 (.icmp { type := 255, code := 3, csum := 0x1234 }) = true ∧
    fails (exec .decodeIcmp (onFrame [0x00, 0x00, 0x45] .idle 0)) 16 = true := by
  decide +kernel

/-- S8. -/
theorem test_decode_tcp :
    gives (exec .decodeTcp (onFrame tcpBytes .idle 0)) 192 (.tcp { sport := 36869, dport := 23, seq := 1913975060, acknum := 0,
                                                                   doff := 24, urg := false, ack := false, psh := false,
                                                                   rst := false, syn := true, fin := false, win := 8760,
                                                                   csum := 0xA92C, urp := 0 }) = true := by
  decide +kernel

/-- S7. -/
theorem test_decode_udp :
    gives (exec .decodeUdp (onFrame udpBytes .idle 0)) 144 (.udp { sport := 39376, dport := 1087, len := 18,
                                                                   csum := 0x7228 } { off := 8, len := 10 }) = true := by
  decide +kernel

/-! ### Phase steps (95 sections 4 to 8) -/

/-- P1's first step; V-E28. -/
theorem test_step_eth :
    nextIs (exec .stepEth (onFrame ethBytes .eth 0)) (fun t => decide (t.phase = .ip ∧ t.cur = 112 ∧ t.eth =
        some { dst := 0x08002086354B, src := 0x00E0F7263FE9, typeVal := 0x0800, typeTag := .ip })) = true ∧
    errs (exec .stepEth (onFrame (ethBytes.take 12) .eth 0)) .invalidEthernetFrame .insufficientData 96 = true := by
  decide +kernel

/-- V-IP1. -/
theorem test_step_ip :
    nextIs (exec .stepIp (onFrame (ethBytes ++ ipBytes) .ip 112)) (fun t => decide (t.phase = .dispatch ∧ t.cur = 272 ∧ t.ip =
        some { hlen := 20, tos := { raw := 0, prec := 0, d := false, t := false, r := false }, totlen := 84, ident := 43771,
               df := true, mf := false, fragoff := 0, ttl := 252, protoVal := 1, protoTag := .icmp, csum := 0xFA30,
               src := 0x8B85E902, dst := 0x8B85D96E })) = true := by
  decide +kernel

/-- V-IP8, V-IP9, V-IP12, V-IP13, V-IP14, V-IP18. -/
theorem test_step_ip_errors :
    errs (exec .stepIp (onFrame (ethBytes ++ [0x63]) .ip 112)) .invalidIpHeader .badVersion 116 = true ∧
    errs (exec .stepIp (onFrame (ethBytes ++ [0x05]) .ip 112)) .invalidIpHeader .badVersion 116 = true ∧
    errs (exec .stepIp (onFrame (ethBytes ++ [0x40]) .ip 112)) .invalidIpHeader .headerLengthTooSmall 120 = true ∧
    errs (exec .stepIp (onFrame (ethBytes ++ []) .ip 112)) .invalidIpHeader .insufficientData 112 = true ∧
    errs (exec .stepIp (onFrame (ethBytes ++ [0x45]) .ip 112)) .invalidIpHeader .insufficientData 120 = true ∧
    errs (exec .stepIp (onFrame (ethBytes ++ [0x46, 0x00, 0x00, 0x54, 0xAA, 0xFB, 0x40, 0x00, 0xFC, 0x01, 0xFA, 0x30, 0x8B,
        0x85, 0xE9, 0x02, 0x8B, 0x85, 0xD9, 0x6E, 0x01, 0x02]) .ip 112)) .invalidIpHeader .insufficientData 272 = true := by
  decide +kernel

/-- R207, V-D2: the phase and CT_TAG for UDP and for another protocol. -/
theorem test_step_dispatch :
    nextIs (exec .stepDispatch (State.reset.placeDispatch 0x11)) (fun t => decide (t.phase = .udp ∧ t.ctTag = some .udp)) =
        true ∧
    nextIs (exec .stepDispatch (State.reset.placeDispatch 0x2F)) (fun t => decide (t.phase = .done ∧ t.ctTag = some .other ∧
        t.pay = none)) = true := by
  decide

/-- V-IC3, V-IC5. -/
theorem test_step_icmp :
    nextIs (exec .stepIcmp (onFrame (ethBytes ++ ipBytes ++ icmpBytes) .icmp 272)) (fun t => decide (t.phase = .done ∧ t.cur =
        336 ∧ t.icmp = some { type := 0, code := 0, csum := 0x45DA } ∧ t.pay = some { off := 38, len := 4 })) = true ∧
    errs (exec .stepIcmp (onFrame (ethBytes ++ ipBytes ++ [0]) .icmp 272)) .invalidIcmpPacket .insufficientData 280 = true := by
  decide +kernel

/-- V-TC2, V-TC9. -/
theorem test_step_tcp :
    nextIs (exec .stepTcp (onFrame (ethBytes ++ ip6Bytes ++ tcpBytes ++ [0x68, 0x69]) .tcp 272)) (fun t => decide (t.phase =
        .done ∧ t.cur = 480 ∧ t.tcp = some { sport := 36869, dport := 23, seq := 1913975060, acknum := 0, doff := 24,
                                             urg := false, ack := false, psh := false, rst := false, syn := true, fin := false,
                                             win := 8760, csum := 0xA92C, urp := 0 } ∧ t.pay = some { off := 58, len := 2 })) =
        true ∧
    errs (exec .stepTcp (onFrame (ethBytes ++ ip6Bytes ++ tcpBytes.take 12 ++ [0]) .tcp 272)) .invalidTcpHeader
        .dataOffsetTooSmall 372 = true := by
  decide +kernel

/-- V-U2, V-U7. -/
theorem test_step_udp :
    nextIs (exec .stepUdp (onFrame (ethBytes ++ ip17bBytes ++ udpBytes ++ [0, 0]) .udp 272)) (fun t => decide (t.phase = .done ∧
        t.cur = 416 ∧ t.udp = some { sport := 39376, dport := 1087, len := 18, csum := 0x7228 } ∧ t.pay =
        some { off := 42, len := 10 })) = true ∧
    errs (exec .stepUdp (onFrame (ethBytes ++ ip17bBytes ++ [0x99, 0xD0, 0x04, 0x3F, 0x00,
        0x07]) .udp 272)) .invalidUdpPacket .lengthTooSmall 320 = true := by
  decide +kernel

/-! ### Host commands (R216, R220 to R223) -/

/-- A finished ICMP transaction on V-IC3's frame. -/
def doneState : State :=
  { onFrame (ethBytes ++ ipBytes ++ icmpBytes) .done 336 with
    eth := some { dst := 0x08002086354B, src := 0x00E0F7263FE9, typeVal := 0x0800, typeTag := .ip }, ip := some (placedIp 1),
    ctTag := some .icmp, icmp := some { type := 0, code := 0, csum := 0x45DA }, pay := some { off := 38, len := 4 } }

/-- One byte always fits: FRAME_MAX is at least 1 (R9). -/
theorem oneByteFits (b : Byte) : [b].length ≤ Config.frameMax := Nat.succ_le_succ (Nat.zero_le _)

/-- R220: START clears the result; in a busy phase it is dropped. -/
theorem test_start :
    nextIs (exec .start doneState) (fun t => decide (t.phase = .eth ∧ t.cur = 0 ∧ t.eth = none ∧ t.pay = none ∧ t.frameLen =
        42)) = true ∧
    nextIs (exec .start (onFrame [] .ip 112)) (fun t => decide (t.phase = .ip ∧ t.cur = 112)) = true := by
  decide +kernel

/-- R221: LOAD_FRAME of one byte over a longer frame. -/
theorem test_load_frame :
    nextIs (exec (.loadFrame [0x77]) doneState) (fun t =>
      decide (t.phase = .idle ∧ t.frameLen = 1 ∧ t.fb.read 0 = 0x77 ∧ t.fb.read 1 = 0 ∧ t.eth = none ∧ t.cur = 0)) = true := by
  have h : execLoadFrame [0x77] doneState = .next (doneState.load [0x77]) := if_pos ⟨rfl, oneByteFits _⟩
  rw [exec, h]
  decide +kernel

/-- P6: a LOAD_FRAME in a busy phase is dropped. -/
theorem test_load_frame_dropped :
    nextIs (exec (.loadFrame [0x77]) (onFrame [] .ip 112)) (fun t => decide (t.frameLen = 0 ∧ t.phase = .ip)) = true := by
  have h : execLoadFrame [0x77] (onFrame [] .ip 112) = .next (onFrame [] .ip 112) := if_neg (fun h => absurd h.1 (by decide))
  rw [exec, h]
  decide +kernel

/-- R222: registers at their widths, the payload of V-IC3. -/
theorem test_read :
    gives (exec (.read .phase) doneState) 336 (.word 4 7) = true ∧
    gives (exec (.read .icmpCsum) doneState) 336 (.word 16 0x45DA) = true ∧
    gives (exec (.read .payOff) doneState) 336 (.num 38) = true ∧
    gives (exec (.read .payload) doneState) 336 (.bytes [0x1E, 0x60, 0x00, 0x00]) = true := by
  decide +kernel

/-- R222, R24, P5: no result outside DONE, no register of another variant, no ERR_KIND while busy. -/
theorem test_read_refused :
    refusedBy (exec (.read .ethDst) (onFrame [] .error 116)) (.readNotAdmitted .ethDst) = true ∧
    refusedBy (exec (.read .tcpSport) doneState) (.holdsNoValue .tcpSport) = true ∧
    refusedBy (exec (.read .errKind) (onFrame [] .ip 112)) (.readNotAdmitted .errKind) = true := by
  decide +kernel

/-- DECODE_PACKET of a frame of one byte: `Err(InvalidEthernetFrame, InsufficientData) @ 0` (95 section 7). -/
theorem test_decode_packet :
    nextIs (exec (.decodePacket [0x08]) State.reset) (fun t =>
      decide (t.phase = .error ∧ t.cur = 0 ∧ t.frameLen = 1 ∧ t.out = .error .invalidEthernetFrame .insufficientData)) = true := by
  have h : execLoadFrame [0x08] State.reset = .next (State.reset.load [0x08]) := if_pos ⟨rfl, oneByteFits _⟩
  rw [exec, execDecodePacket, h]
  decide +kernel

/-- P4 as the parser runs it: three steps to DONE at 272 with CT_TAG 3 and no payload. -/
theorem test_parser_run_other :
    nextIs (runParser 4 (onFrame (ethBytes ++ ip47Bytes) .eth 0)) (fun t =>
      decide (t.phase = .done ∧ t.cur = 272 ∧ t.ctTag = some .other ∧ t.pay = none)) = true := by decide +kernel

/-! ### Witnesses: for every statement with hypotheses, states and operands that meet them, each clause at the edge of its range -/

/-- Hypotheses of `StepRunsTheDecodedOperation`: the bytes stand for those of the requests or of the call bench. -/
theorem witness_StepRunsTheDecodedOperation :
    State.reset.rst = false ∧ State.reset.call = [] ∧ State.reset.phase = .idle ∧ (onFrame [] .ip 0).phase ≠ .idle ∧
    decode [0x1F, 0x0D] = .ok .start [0x0D] ∧ isTransactionMove .start = true ∧
    decode [0x0D] = .ok .rdU8 [] ∧ isTransactionMove .rdU8 = false := by
  decide

/-- Hypotheses of `StepRunsTheStepThatPhaseSelects`. -/
theorem witness_StepRunsTheStepThatPhaseSelects :
    State.reset.rst = false ∧
    State.reset.call = [] ∧
    State.reset.req = [] ∧
    State.reset.phase.code = 0 ∧
    (onFrame [] .eth 0).rst = false ∧ (onFrame [] .eth 0).call = [] ∧ (onFrame [] .eth 0).req = [] ∧
        (onFrame [] .eth 0).phase.code = 1 ∧
    (onFrame [] .ip 0).rst = false ∧ (onFrame [] .ip 0).call = [] ∧ (onFrame [] .ip 0).req = [] ∧
        (onFrame [] .ip 0).phase.code = 2 ∧
    (onFrame [] .dispatch 0).rst = false ∧ (onFrame [] .dispatch 0).call = [] ∧ (onFrame [] .dispatch 0).req = [] ∧
        (onFrame [] .dispatch 0).phase.code = 3 ∧
    (onFrame [] .icmp 0).rst = false ∧ (onFrame [] .icmp 0).call = [] ∧ (onFrame [] .icmp 0).req = [] ∧
        (onFrame [] .icmp 0).phase.code = 4 ∧
    (onFrame [] .tcp 0).rst = false ∧ (onFrame [] .tcp 0).call = [] ∧ (onFrame [] .tcp 0).req = [] ∧
        (onFrame [] .tcp 0).phase.code = 5 ∧
    (onFrame [] .udp 0).rst = false ∧ (onFrame [] .udp 0).call = [] ∧ (onFrame [] .udp 0).req = [] ∧
        (onFrame [] .udp 0).phase.code = 6 ∧
    (onFrame [] .done 0).rst = false ∧ (onFrame [] .done 0).call = [] ∧ (onFrame [] .done 0).req = [] ∧
        (onFrame [] .done 0).phase.code = 7 ∧
    (onFrame [] .error 0).rst = false ∧ (onFrame [] .error 0).call = [] ∧ (onFrame [] .error 0).req = [] ∧
        (onFrame [] .error 0).phase.code = 8 := by
  decide

/-- Hypotheses of `ResetEndsATransactionAtOnce`. -/
theorem witness_ResetEndsATransactionAtOnce :
    ({ onFrame [1] .tcp 8 with rst := true } : State).rst = true := by
  decide

/-- Hypotheses of `UndecodableRequestIsRefused`. -/
theorem witness_UndecodableRequestIsRefused :
    State.reset.rst = false ∧ State.reset.call = [] ∧ State.reset.phase = .idle ∧ [(0xFF : Byte)] ≠ [] ∧
    decode [0xFF] = .bad (.unknownTag 0xFF) := by
  decide

/-- Hypotheses of `DecodeInvertsEncode`. -/
theorem witness_DecodeInvertsEncode :
    (Instr.rdBits 1).wf = true ∧
    (Instr.rdBits 32).wf = true ∧
    (Instr.take (2 ^ 32 - 1)).wf = true ∧
    (Instr.loadFrame []).wf = true ∧
    (Instr.ipverBad 15).wf = true := by
  decide

/-- Hypotheses of `EncodeInvertsDecode`. -/
theorem witness_EncodeInvertsDecode :
    decode [0x03, 0x11, 0x1F] = .ok .protoUdp [0x1F] := by
  decide

/-- Hypotheses of `EtherTypeRowsGiveTheirClass`: both ends of every range, and next to them no row's. -/
theorem witness_EtherTypeRowsGiveTheirClass :
    (Instr.etypeLength0 0).wf = true ∧ (Instr.etypeLength0 1023).wf = true ∧
    (Instr.etypeLength1 1024).wf = true ∧ (Instr.etypeLength1 1279).wf = true ∧
    (Instr.etypeLength2 1280).wf = true ∧ (Instr.etypeLength2 1407).wf = true ∧
    (Instr.etypeLength3 1408).wf = true ∧ (Instr.etypeLength3 1471).wf = true ∧
    (Instr.etypeLength4 1472).wf = true ∧ (Instr.etypeLength4 1487).wf = true ∧
    (Instr.etypeLength5 1488).wf = true ∧ (Instr.etypeLength5 1495).wf = true ∧
    (Instr.etypeLength6 1496).wf = true ∧ (Instr.etypeLength6 1499).wf = true ∧
    (Instr.etypeOther 1501).wf = true ∧ (Instr.etypeOther 0x07FF).wf = true ∧ (Instr.etypeOther 0x0801).wf = true ∧
        (Instr.etypeOther 0xFFFF).wf = true := by
  decide

/-- The values next to the ends of the ranges of R98 are in no two rows: each neighbour is refused. -/
theorem witness_EtherTypeRowsGiveTheirClass_outside :
    (Instr.etypeLength0 1024).wf = false ∧ (Instr.etypeLength1 1023).wf = false ∧ (Instr.etypeLength1 1280).wf = false ∧
    (Instr.etypeLength6 1495).wf = false ∧ (Instr.etypeLength6 1500).wf = false ∧ (Instr.etypeOther 1500).wf = false ∧
    (Instr.etypeOther 0x0800).wf = false := by decide

/-- Hypotheses of `ProtocolRowsGiveTheirClassAndPhase`. -/
theorem witness_ProtocolRowsGiveTheirClassAndPhase :
    (Instr.protoOther 0).wf = true ∧
    (Instr.protoOther 2).wf = true ∧
    (Instr.protoOther 5).wf = true ∧
    (Instr.protoOther 7).wf = true ∧
    (Instr.protoOther 0x10).wf = true ∧
    (Instr.protoOther 0x12).wf = true ∧
    (Instr.protoOther 0xFF).wf = true := by
  decide

/-- Hypotheses of `SelectorRowsThatContinue`. -/
theorem witness_SelectorRowsThatContinue :
    (Instr.ihlOk 5).wf = true ∧
    (Instr.ihlOk 15).wf = true ∧
    (Instr.tcpdoOk 5).wf = true ∧
    (Instr.tcpdoOk 15).wf = true ∧
    (Instr.udplenOk 8).wf = true ∧
    (Instr.udplenOk 0xFFFF).wf = true := by
  decide

/-- A selected row hands an error pair to its caller. -/
abbrev Raises (i : Instr) (s : State) (k : ErrKind) (c : ErrCause) : Prop := exec i s = .next { s with out := .errorRow k c }

/-- Hypotheses of `SelectorRowsThatRaise`, the rows: both ends of every range. -/
theorem witness_SelectorRowsThatRaise :
    (3 : BitVec 4) ≠ 4 ∧ (5 : BitVec 4) ≠ 4 ∧ (0 : BitVec 4).toNat ≤ 3 ∧ (3 : BitVec 4).toNat ≤ 3 ∧ (0 : BitVec 16).toNat ≤ 7 ∧
    (7 : BitVec 16).toNat ≤ 7 := by decide

/-- Hypotheses of `SelectorRowsThatRaise_steps`: the steps that consult a selector, at the edge of each range. -/
theorem witness_SelectorRowsThatRaise_steps :
    (onFrame [0x35] .ip 0).cur = 8 * 0 ∧ (onFrame [0x35] .ip 0).phase = .ip ∧ 0 < (onFrame [0x35] .ip 0).frameLen ∧
        Raises (selectIpver (BitVec.ofNat 4 (version (onFrame [0x35] .ip 0) 0))) (onFrame [0x35] .ip 0) .invalidIpHeader
        .badVersion ∧
    (onFrame [0x44] .ip 0).cur = 8 * 0 ∧ (onFrame [0x44] .ip 0).phase = .ip ∧ 0 < (onFrame [0x44] .ip 0).frameLen ∧
        version (onFrame [0x44] .ip 0) 0 = 4 ∧ Raises (selectIhl (BitVec.ofNat 4 (words (onFrame [0x44] .ip 0) 0))) (onFrame
        [0x44] .ip 0) .invalidIpHeader .headerLengthTooSmall ∧
    (onFrame [0x40] .ip 0).cur = 8 * 0 ∧ (onFrame [0x40] .ip 0).phase = .ip ∧ 0 < (onFrame [0x40] .ip 0).frameLen ∧
        version (onFrame [0x40] .ip 0) 0 = 4 ∧ Raises (selectIhl (BitVec.ofNat 4 (words (onFrame [0x40] .ip 0) 0))) (onFrame
        [0x40] .ip 0) .invalidIpHeader .headerLengthTooSmall ∧
    (onFrame (List.replicate 12 0 ++ [0x40]) .tcp 0).cur = 8 * 0 ∧ (onFrame (List.replicate 12 0 ++ [0x40]) .tcp 0).phase =
        .tcp ∧ 0 + 13 ≤ (onFrame (List.replicate 12 0 ++ [0x40]) .tcp 0).frameLen ∧
        Raises (selectTcpdo (BitVec.ofNat 4 (offsetWords (onFrame (List.replicate 12 0 ++ [0x40]) .tcp 0) 0))) (onFrame
        (List.replicate 12 0 ++ [0x40]) .tcp 0) .invalidTcpHeader .dataOffsetTooSmall ∧
    (onFrame (List.replicate 12 0 ++ [0x00]) .tcp 0).cur = 8 * 0 ∧ (onFrame (List.replicate 12 0 ++ [0x00]) .tcp 0).phase =
        .tcp ∧ 0 + 13 ≤ (onFrame (List.replicate 12 0 ++ [0x00]) .tcp 0).frameLen ∧
        Raises (selectTcpdo (BitVec.ofNat 4 (offsetWords (onFrame (List.replicate 12 0 ++ [0x00]) .tcp 0) 0))) (onFrame
        (List.replicate 12 0 ++ [0x00]) .tcp 0) .invalidTcpHeader .dataOffsetTooSmall ∧
    (onFrame [0, 0, 0, 0, 0, 7] .udp 0).cur = 8 * 0 ∧ (onFrame [0, 0, 0, 0, 0, 7] .udp 0).phase = .udp ∧ 0 + 6 ≤ (onFrame [0, 0,
        0, 0, 0, 7] .udp 0).frameLen ∧ Raises (selectUdplen (BitVec.ofNat 16 (num (onFrame [0, 0, 0, 0, 0,
        7] .udp 0) (0 + 4) 2))) (onFrame [0, 0, 0, 0, 0, 7] .udp 0) .invalidUdpPacket .lengthTooSmall := by
  (repeat' refine And.intro ?_ ?_) <;> first | decide +kernel | rfl

/-- Hypotheses of `ErrorsAriseOnlyInThePhaseSteps`: a step enters ERROR, START clears the registers. -/
theorem witness_ErrorsAriseOnlyInThePhaseSteps :
    (∀ bs, Instr.stepEth ≠ .decodePacket bs) ∧ (onFrame [] .eth 0).phase ≠ .error ∧
    nextIs (exec .stepEth (onFrame [] .eth 0)) (fun t => decide (t.phase = .error)) = true ∧
    nextIs (exec .start { onFrame [] .error 0 with errKind := .invalidEthernetFrame, errCause := .insufficientData })
      (fun t => decide (t.errKind ≠ .invalidEthernetFrame ∧ t.errCause ≠ .insufficientData)) = true :=
  ⟨fun _ h => (by cases h), by decide, by decide, by decide⟩

/-- Hypotheses of `AlignedIntegerReads`. -/
theorem witness_AlignedIntegerReads :
    (onFrame [0x01] .idle 8).cur % 8 = 0 ∧ 8 * (onFrame [0x01] .idle 8).frameLen - (onFrame [0x01] .idle 8).cur < 8 ∧
    (onFrame [0x01] .idle 0).cur % 8 = 0 ∧ 8 ≤ 8 * (onFrame [0x01] .idle 0).frameLen - (onFrame [0x01] .idle 0).cur ∧
    8 * (onFrame [0x01] .idle 0).frameLen - (onFrame [0x01] .idle 0).cur < 16 ∧
    (onFrame [0x01, 0x02] .idle 0).cur % 8 = 0 ∧ 16 ≤ 8 * (onFrame [0x01, 0x02] .idle 0).frameLen - (onFrame [0x01,
        0x02] .idle 0).cur ∧
    (onFrame [0x01, 0x02, 0x03, 0x04] .idle 0).cur % 8 = 0 ∧ 32 ≤ 8 * (onFrame [0x01, 0x02, 0x03,
        0x04] .idle 0).frameLen - (onFrame [0x01, 0x02, 0x03, 0x04] .idle 0).cur ∧
    8 * (onFrame [0x01, 0x02, 0x03] .idle 0).frameLen - (onFrame [0x01, 0x02, 0x03] .idle 0).cur < 32 ∧ (onFrame [0x01, 0x02,
        0x03] .idle 0).cur % 8 = 0 ∧
    (onFrame [0x01] .idle 4).cur % 8 ≠ 0 := by
  decide

/-- Hypotheses of `BitReads`. -/
theorem witness_BitReads :
    (onFrame [0xA5] .idle 7).cur + 1 ≤ 8 * (onFrame [0xA5] .idle 7).frameLen ∧
    (onFrame [0x01, 0x02, 0x03, 0x04] .idle 0).cur + 32 ≤ 8 * (onFrame [0x01, 0x02, 0x03, 0x04] .idle 0).frameLen ∧
    8 * (onFrame [0xA5] .idle 5).frameLen < (onFrame [0xA5] .idle 5).cur + 4 ∧
    8 * (onFrame [0xA5] .idle 8).frameLen < (onFrame [0xA5] .idle 8).cur + 1 := by
  decide

/-- Hypotheses of `ByteRuns`. -/
theorem witness_ByteRuns :
    (onFrame [0xAA, 0xBB] .idle 8).cur % 8 = 0 ∧ (onFrame [0xAA, 0xBB] .idle 8).cur + 8 * 1 ≤ 8 * (onFrame [0xAA,
        0xBB] .idle 8).frameLen ∧
    (onFrame [0xAA, 0xBB] .idle 16).cur + 8 * 0 ≤ 8 * (onFrame [0xAA, 0xBB] .idle 16).frameLen ∧ (onFrame [0xAA,
        0xBB] .idle 16).cur % 8 = 0 ∧
    8 * (onFrame [0xAA, 0xBB] .idle 8).frameLen < (onFrame [0xAA, 0xBB] .idle 8).cur + 8 * 2 ∧
    (onFrame [0xAA, 0xBB] .idle 9).cur % 8 ≠ 0 := by
  decide

/-- Hypotheses of `TakeRestTakesEveryRemainingByte`. -/
theorem witness_TakeRestTakesEveryRemainingByte :
    (onFrame [0xAA, 0xBB] .idle 8).cur % 8 = 0 ∧ (onFrame [0xAA, 0xBB] .idle 8).cur ≤ 8 * (onFrame [0xAA,
        0xBB] .idle 8).frameLen ∧
    (onFrame [0xAA, 0xBB] .idle 16).cur % 8 = 0 ∧ (onFrame [0xAA, 0xBB] .idle 16).cur ≤ 8 * (onFrame [0xAA,
        0xBB] .idle 16).frameLen ∧
    (onFrame [0xAA, 0xBB] .idle 9).cur % 8 ≠ 0 := by
  decide

/-- Hypotheses of `UndefinedBitCountIsRefused`. -/
theorem witness_UndefinedBitCountIsRefused :
    ((0 : Nat) = 0 ∨ 32 < 0) ∧
    ((33 : Nat) = 0 ∨ 32 < 33) := by
  decide

/-- Hypotheses of `ReadsCompose`. -/
theorem witness_ReadsCompose :
    0 % 8 = 0 ∧ 0 + 32 ≤ 8 * ({ fb := [], len := 4 } : Frame).len ∧
    16 % 8 = 0 ∧ 16 + 16 ≤ 8 * ({ fb := [], len := 4 } : Frame).len ∧
    24 % 8 = 0 ∧ 24 + 8 ≤ 8 * ({ fb := [], len := 4 } : Frame).len ∧
    1 ≤ 13 ∧ 1 ≤ 19 ∧ 13 + 19 ≤ 32 ∧ 0 + (13 + 19) ≤ 8 * ({ fb := [], len := 4 } : Frame).len ∧
    1 ≤ 2 ∧ 1 ≤ 1 ∧ 2 + 1 ≤ 32 ∧ 30 + 2 ≤ 8 * ({ fb := [], len := 4 } : Frame).len ∧
        8 * ({ fb := [], len := 4 } : Frame).len < 30 + (2 + 1) ∧
    24 % 8 = 0 ∧ 24 + 8 ≤ 8 * ({ fb := [], len := 4 } : Frame).len ∧ 8 * ({ fb := [], len := 4 } : Frame).len < 24 + 16 ∧
    8 % 8 = 0 ∧ 8 + 16 ≤ 8 * ({ fb := [], len := 4 } : Frame).len ∧ 8 * ({ fb := [], len := 4 } : Frame).len < 8 + 32 := by
  decide

/-- Hypotheses of `BytesBeyondTheFrameAreNeverRead`: the two memories differ at the first byte beyond the frame; one operation goes on
and one is refused. -/
theorem witness_BytesBeyondTheFrameAreNeverRead :
    (∀ a, a < (onFrame [7] .idle 0).frameLen → ((onFrame [7] .idle 0).fb.write 1 9).read a = (onFrame [7] .idle 0).fb.read a) ∧
    (∀ w, (onFrame [7] .idle 0).pay = some w → w.off + w.len ≤ (onFrame [7] .idle 0).frameLen) ∧
    nextIs (exec .rdU8 (onFrame [7] .idle 0)) (fun _ => true) = true ∧
    refusedBy (exec .stepEth (onFrame [7] .idle 0)) (.stepNotEnabled .eth) = true := by
  refine ⟨by decide, fun w h => ?_, by decide, by decide⟩
  cases h

/-- Hypotheses of `MacAndEthernetDecoders`. -/
theorem witness_MacAndEthernetDecoders :
    (onFrame (List.replicate 6 1) .idle 0).cur % 8 = 0 ∧ (onFrame (List.replicate 6 1) .idle 0).cur / 8 + 6 ≤ (onFrame
        (List.replicate 6 1) .idle 0).frameLen ∧
    (onFrame (List.replicate 5 1) .idle 0).cur % 8 = 0 ∧ (onFrame (List.replicate 5 1) .idle 0).frameLen < (onFrame
        (List.replicate 5 1) .idle 0).cur / 8 + 6 ∧
    (onFrame (List.replicate 14 1) .idle 0).cur % 8 = 0 ∧ (onFrame (List.replicate 14 1) .idle 0).cur / 8 + 14 ≤ (onFrame
        (List.replicate 14 1) .idle 0).frameLen ∧
    (onFrame (List.replicate 13 1) .idle 0).cur % 8 = 0 ∧ (onFrame (List.replicate 13 1) .idle 0).frameLen < (onFrame
        (List.replicate 13 1) .idle 0).cur / 8 + 14 ∧
    (onFrame (List.replicate 14 1) .idle 3).cur % 8 ≠ 0 := by
  decide

/-- Hypotheses of `ClassifiersAreTotal`. -/
theorem witness_ClassifiersAreTotal :
    (1500 : BitVec 16).toNat ≤ 1500 ∧
    (0x0800 : BitVec 16).toNat = 0x0800 ∧
    1500 < (1501 : BitVec 16).toNat ∧ (1501 : BitVec 16).toNat ≠ 0x0800 ∧
    (2 : Byte) ≠ 0x01 ∧ (2 : Byte) ≠ 0x06 ∧ (2 : Byte) ≠ 0x11 := by
  decide

/-- Hypotheses of `TypeOfServiceDecoder`. -/
theorem witness_TypeOfServiceDecoder :
    (onFrame (List.replicate 1 1) .idle 0).cur % 8 = 0 ∧ (onFrame (List.replicate 1 1) .idle 0).cur / 8 < (onFrame
        (List.replicate 1 1) .idle 0).frameLen ∧
    (onFrame (List.replicate 1 1) .idle 8).cur % 8 = 0 ∧ (onFrame (List.replicate 1 1) .idle 8).frameLen ≤ (onFrame
        (List.replicate 1 1) .idle 8).cur / 8 ∧
    (onFrame (List.replicate 1 1) .idle 3).cur % 8 ≠ 0 := by
  decide

-- Where a hypothesis names the byte address `s.cur / 8`, the witness writes its value.

/-- Hypotheses of `Ipv4DecoderGivesTheHeader`: IHL 5, 6 and 15. -/
theorem witness_Ipv4DecoderGivesTheHeader :
    (onFrame ipBytes .idle 0).cur % 8 = 0 ∧ version (onFrame ipBytes .idle 0) 0 = 4 ∧ 5 ≤ words (onFrame ipBytes .idle 0) 0 ∧
        (onFrame ipBytes .idle 0).cur / 8 + 4 * words (onFrame ipBytes .idle 0) 0 ≤ (onFrame ipBytes .idle 0).frameLen ∧
    (onFrame ip17Bytes .idle 0).cur % 8 = 0 ∧ version (onFrame ip17Bytes .idle 0) 0 = 4 ∧
        5 ≤ words (onFrame ip17Bytes .idle 0) 0 ∧ (onFrame ip17Bytes .idle 0).cur / 8 + 4 * words (onFrame ip17Bytes .idle 0) 0
        ≤ (onFrame ip17Bytes .idle 0).frameLen ∧
    (onFrame (0x4F :: List.replicate 59 0) .idle 0).cur % 8 = 0 ∧ version (onFrame (0x4F :: List.replicate 59 0) .idle 0) 0 =
        4 ∧ 5 ≤ words (onFrame (0x4F :: List.replicate 59 0) .idle 0) 0 ∧
        (onFrame (0x4F :: List.replicate 59 0) .idle 0).cur / 8 + 4 * words (onFrame (0x4F :: List.replicate 59 0) .idle 0) 0 ≤
        (onFrame (0x4F :: List.replicate 59 0) .idle 0).frameLen := by
  decide +kernel

/-- Hypotheses of `Ipv4DecoderFailures`. -/
theorem witness_Ipv4DecoderFailures :
    (onFrame [0x60] .idle 0).cur % 8 = 0 ∧ (onFrame [0x60] .idle 0).cur / 8 < (onFrame [0x60] .idle 0).frameLen ∧
        version (onFrame [0x60] .idle 0) 0 ≠ 4 ∧
    (onFrame [0x44] .idle 0).cur % 8 = 0 ∧ (onFrame [0x44] .idle 0).cur / 8 < (onFrame [0x44] .idle 0).frameLen ∧
        version (onFrame [0x44] .idle 0) 0 = 4 ∧ words (onFrame [0x44] .idle 0) 0 < 5 ∧
    (onFrame [0x45] .idle 8).cur % 8 = 0 ∧ (onFrame [0x45] .idle 8).frameLen ≤ (onFrame [0x45] .idle 8).cur / 8 ∧
    (onFrame (0x46 :: List.replicate 22 0) .idle 0).cur % 8 = 0 ∧
        (onFrame (0x46 :: List.replicate 22 0) .idle 0).cur / 8 < (onFrame (0x46 :: List.replicate 22 0) .idle 0).frameLen ∧
        version (onFrame (0x46 :: List.replicate 22 0) .idle 0) 0 = 4 ∧
        5 ≤ words (onFrame (0x46 :: List.replicate 22 0) .idle 0) 0 ∧
        (onFrame (0x46 :: List.replicate 22 0) .idle 0).frameLen < (onFrame (0x46 :: List.replicate 22 0) .idle 0).cur / 8 + 4 *
        words (onFrame (0x46 :: List.replicate 22 0) .idle 0) 0 ∧
    (onFrame [0x45] .idle 4).cur % 8 ≠ 0 := by
  decide +kernel

/-- Hypotheses of `IcmpDecoder`. -/
theorem witness_IcmpDecoder :
    (onFrame (List.replicate 4 1) .idle 0).cur % 8 = 0 ∧ (onFrame (List.replicate 4 1) .idle 0).cur / 8 + 4 ≤ (onFrame
        (List.replicate 4 1) .idle 0).frameLen ∧
    (onFrame (List.replicate 3 1) .idle 0).cur % 8 = 0 ∧ (onFrame (List.replicate 3 1) .idle 0).frameLen < (onFrame
        (List.replicate 3 1) .idle 0).cur / 8 + 4 ∧
    (onFrame (List.replicate 4 1) .idle 3).cur % 8 ≠ 0 := by
  decide

/-- Hypotheses of `TcpDecoder`: data offset 5 and 6, 4, no offset byte, an offset of 5 that does not fit. -/
theorem witness_TcpDecoder :
    (onFrame (tcpBytes.take 12 ++ 0x50 :: List.replicate 7 0) .idle 0).cur % 8 = 0 ∧
        5 ≤ offsetWords (onFrame (tcpBytes.take 12 ++ 0x50 :: List.replicate 7 0) .idle 0) 0 ∧
        (onFrame (tcpBytes.take 12 ++ 0x50 :: List.replicate 7 0) .idle 0).cur / 8 + 4 * offsetWords (onFrame (tcpBytes.take 12
        ++ 0x50 :: List.replicate 7 0) .idle 0) 0 ≤ (onFrame (tcpBytes.take 12 ++ 0x50 :: List.replicate 7 0) .idle 0).frameLen
        ∧
    (onFrame tcpBytes .idle 0).cur % 8 = 0 ∧ 5 ≤ offsetWords (onFrame tcpBytes .idle 0) 0 ∧
        (onFrame tcpBytes .idle 0).cur / 8 + 4 * offsetWords (onFrame tcpBytes .idle 0) 0 ≤ (onFrame tcpBytes .idle 0).frameLen
        ∧
    (onFrame (tcpBytes.take 12 ++ [0x40]) .idle 0).cur % 8 = 0 ∧
        (onFrame (tcpBytes.take 12 ++ [0x40]) .idle 0).cur / 8 + 13 ≤ (onFrame (tcpBytes.take 12 ++ [0x40]) .idle 0).frameLen ∧
        offsetWords (onFrame (tcpBytes.take 12 ++ [0x40]) .idle 0) 0 < 5 ∧
    (onFrame (tcpBytes.take 12) .idle 0).cur % 8 = 0 ∧ (onFrame (tcpBytes.take 12) .idle 0).frameLen < (onFrame (tcpBytes.take
        12) .idle 0).cur / 8 + 13 ∧
    (onFrame (tcpBytes.take 12 ++ [0x50]) .idle 0).cur % 8 = 0 ∧
        (onFrame (tcpBytes.take 12 ++ [0x50]) .idle 0).cur / 8 + 13 ≤ (onFrame (tcpBytes.take 12 ++ [0x50]) .idle 0).frameLen ∧
        5 ≤ offsetWords (onFrame (tcpBytes.take 12 ++ [0x50]) .idle 0) 0 ∧
        (onFrame (tcpBytes.take 12 ++ [0x50]) .idle 0).frameLen < (onFrame (tcpBytes.take 12 ++ [0x50]) .idle 0).cur / 8 + 4 *
        offsetWords (onFrame (tcpBytes.take 12 ++ [0x50]) .idle 0) 0 ∧
    (onFrame tcpBytes .idle 4).cur % 8 ≠ 0 := by
  decide +kernel

/-- Hypotheses of `UdpDecoder`: length 8 and 18, 7, no length, a length of 8 that does not fit. -/
theorem witness_UdpDecoder :
    (onFrame [0x99, 0xD0, 0x04, 0x3F, 0x00, 0x08, 0x72, 0x28] .idle 0).cur % 8 = 0 ∧ 8 ≤ num (onFrame [0x99, 0xD0, 0x04, 0x3F,
        0x00, 0x08, 0x72, 0x28] .idle 0) 4 2 ∧ (onFrame [0x99, 0xD0, 0x04, 0x3F, 0x00, 0x08, 0x72,
        0x28] .idle 0).cur / 8 + num (onFrame [0x99, 0xD0, 0x04, 0x3F, 0x00, 0x08, 0x72, 0x28] .idle 0) 4 2 ≤ (onFrame [0x99,
        0xD0, 0x04, 0x3F, 0x00, 0x08, 0x72, 0x28] .idle 0).frameLen ∧
    (onFrame udpBytes .idle 0).cur % 8 = 0 ∧ 8 ≤ num (onFrame udpBytes .idle 0) 4 2 ∧
        (onFrame udpBytes .idle 0).cur / 8 + num (onFrame udpBytes .idle 0) 4 2 ≤ (onFrame udpBytes .idle 0).frameLen ∧
    (onFrame [0x99, 0xD0, 0x04, 0x3F, 0x00, 0x07] .idle 0).cur % 8 = 0 ∧ (onFrame [0x99, 0xD0, 0x04, 0x3F, 0x00,
        0x07] .idle 0).cur / 8 + 6 ≤ (onFrame [0x99, 0xD0, 0x04, 0x3F, 0x00, 0x07] .idle 0).frameLen ∧ num (onFrame [0x99, 0xD0,
        0x04, 0x3F, 0x00, 0x07] .idle 0) 4 2 < 8 ∧
    (onFrame [0x99, 0xD0, 0x04, 0x3F, 0x00] .idle 0).cur % 8 = 0 ∧ (onFrame [0x99, 0xD0, 0x04, 0x3F,
        0x00] .idle 0).frameLen < (onFrame [0x99, 0xD0, 0x04, 0x3F, 0x00] .idle 0).cur / 8 + 6 ∧
    (onFrame [0x99, 0xD0, 0x04, 0x3F, 0x00, 0x08, 0x72] .idle 0).cur % 8 = 0 ∧ (onFrame [0x99, 0xD0, 0x04, 0x3F, 0x00, 0x08,
        0x72] .idle 0).cur / 8 + 6 ≤ (onFrame [0x99, 0xD0, 0x04, 0x3F, 0x00, 0x08, 0x72] .idle 0).frameLen ∧
        8 ≤ num (onFrame [0x99, 0xD0, 0x04, 0x3F, 0x00, 0x08, 0x72] .idle 0) 4 2 ∧ (onFrame [0x99, 0xD0, 0x04, 0x3F, 0x00, 0x08,
        0x72] .idle 0).frameLen < (onFrame [0x99, 0xD0, 0x04, 0x3F, 0x00, 0x08, 0x72] .idle 0).cur / 8 + num (onFrame [0x99,
        0xD0, 0x04, 0x3F, 0x00, 0x08, 0x72] .idle 0) 4 2 ∧
    (onFrame udpBytes .idle 4).cur % 8 ≠ 0 := by
  decide +kernel

/-- Hypotheses of `LayoutsGiveTheirFields`. -/
theorem witness_LayoutsGiveTheirFields :
    (4 : BitVec 4).toNat < 5 ∧ 5 ≤ (5 : BitVec 4).toNat ∧ 5 ≤ (15 : BitVec 4).toNat ∧
    (7 : BitVec 16).toNat < 8 ∧ 8 ≤ (8 : BitVec 16).toNat := by
  decide

/-- Hypotheses of `DecodersAgreeWithTheLayouts`: the six layouts, UDP with length 18 and 8. -/
theorem witness_DecodersAgreeWithTheLayouts :
    (onFrame ethBytes .idle 0).cur = 8 * 0 ∧ 0 + 14 ≤ (onFrame ethBytes .idle 0).frameLen ∧
    (onFrame [0x45, 0xB8] .idle 8).cur = 8 * 1 ∧ 1 + 1 ≤ (onFrame [0x45, 0xB8] .idle 8).frameLen ∧
    (onFrame (0 :: ipBytes) .idle 8).cur = 8 * 1 ∧ 1 + 4 * words (onFrame (0 :: ipBytes) .idle 8) 1 ≤ (onFrame (0 :: ipBytes)
        .idle 8).frameLen ∧ version (onFrame (0 :: ipBytes) .idle 8) 1 = 4 ∧ 5 ≤ words (onFrame (0 :: ipBytes) .idle 8) 1 ∧
    (onFrame (icmpBytes.take 4) .idle 0).cur = 8 * 0 ∧ 0 + 4 ≤ (onFrame (icmpBytes.take 4) .idle 0).frameLen ∧
    (onFrame tcpBytes .idle 0).cur = 8 * 0 ∧ 0 + 4 * offsetWords (onFrame tcpBytes .idle 0) 0 ≤ (onFrame tcpBytes .idle
        0).frameLen ∧ 5 ≤ offsetWords (onFrame tcpBytes .idle 0) 0 ∧
    (onFrame udpBytes .idle 0).cur = 8 * 0 ∧ 0 + num (onFrame udpBytes .idle 0) (0 + 4) 2 ≤ (onFrame udpBytes .idle 0).frameLen
        ∧ 8 ≤ num (onFrame udpBytes .idle 0) (0 + 4) 2 ∧
    0 + num (onFrame [0x99, 0xD0, 0x04, 0x3F, 0x00, 0x08, 0x72, 0x28] .idle 0) (0 + 4) 2 ≤ (onFrame [0x99, 0xD0, 0x04, 0x3F,
        0x00, 0x08, 0x72, 0x28] .idle 0).frameLen ∧ 8 ≤ num (onFrame [0x99, 0xD0, 0x04, 0x3F, 0x00, 0x08, 0x72,
        0x28] .idle 0) (0 + 4) 2 := by
  decide +kernel

/-- Hypotheses of `StepEthWritesTheEthernetGroup`. -/
theorem witness_StepEthWritesTheEthernetGroup :
    (onFrame (List.replicate 14 1) .eth 0).phase = .eth ∧ (onFrame (List.replicate 14 1) .eth 0).cur % 8 = 0 ∧
        (onFrame (List.replicate 14 1) .eth 0).cur / 8 + 14 ≤ (onFrame (List.replicate 14 1) .eth 0).frameLen ∧
    (onFrame (List.replicate 13 1) .eth 0).phase = .eth ∧ (onFrame (List.replicate 13 1) .eth 0).cur % 8 = 0 ∧
        (onFrame (List.replicate 13 1) .eth 0).frameLen < (onFrame (List.replicate 13 1) .eth 0).cur / 8 + 14 := by
  decide

/-- Hypotheses of `StepIpWritesTheIpv4Group`. -/
theorem witness_StepIpWritesTheIpv4Group :
    (onFrame [] .ip 0).phase = .ip ∧ (onFrame [] .ip 0).cur % 8 = 0 ∧ (onFrame [] .ip 0).frameLen ≤ (onFrame [] .ip 0).cur / 8 ∧
    (onFrame [0x60] .ip 0).phase = .ip ∧ (onFrame [0x60] .ip 0).cur % 8 = 0 ∧
        (onFrame [0x60] .ip 0).cur / 8 < (onFrame [0x60] .ip 0).frameLen ∧ version (onFrame [0x60] .ip 0) 0 ≠ 4 ∧
    (onFrame [0x44] .ip 0).phase = .ip ∧ (onFrame [0x44] .ip 0).cur % 8 = 0 ∧
        (onFrame [0x44] .ip 0).cur / 8 < (onFrame [0x44] .ip 0).frameLen ∧ version (onFrame [0x44] .ip 0) 0 = 4 ∧
        words (onFrame [0x44] .ip 0) 0 < 5 ∧
    (onFrame [0x45] .ip 0).phase = .ip ∧ (onFrame [0x45] .ip 0).cur % 8 = 0 ∧
        (onFrame [0x45] .ip 0).cur / 8 < (onFrame [0x45] .ip 0).frameLen ∧ version (onFrame [0x45] .ip 0) 0 = 4 ∧
        5 ≤ words (onFrame [0x45] .ip 0) 0 ∧ (onFrame [0x45] .ip 0).frameLen < (onFrame [0x45] .ip 0).cur / 8 + 4 * words
        (onFrame [0x45] .ip 0) 0 ∧
    (onFrame ipBytes .ip 0).phase = .ip ∧ (onFrame ipBytes .ip 0).cur % 8 = 0 ∧ version (onFrame ipBytes .ip 0) 0 = 4 ∧
        5 ≤ words (onFrame ipBytes .ip 0) 0 ∧ (onFrame ipBytes .ip 0).cur / 8 + 4 * words (onFrame ipBytes .ip 0) 0 ≤ (onFrame
        ipBytes .ip 0).frameLen := by
  decide +kernel

/-- Hypotheses of `StepDispatchFollowsTheTag`, one state for each of the four tags. -/
theorem witness_StepDispatchFollowsTheTag :
    (State.reset.placeDispatch 0x01).phase = .dispatch ∧
    (State.reset.placeDispatch 0x01).ip = some (placedIp 0x01) ∧ (placedIp 0x01).protoTag = .icmp ∧
    (State.reset.placeDispatch 0x06).ip = some (placedIp 0x06) ∧ (placedIp 0x06).protoTag = .tcp ∧
    (State.reset.placeDispatch 0x11).ip = some (placedIp 0x11) ∧ (placedIp 0x11).protoTag = .udp ∧
    (State.reset.placeDispatch 0x00).ip = some (placedIp 0x00) ∧ (placedIp 0x00).protoTag = .other := by decide

/-- Hypotheses of `StepIcmpCapturesTheData`. -/
theorem witness_StepIcmpCapturesTheData :
    (onFrame (List.replicate 4 1) .icmp 0).phase = .icmp ∧ (onFrame (List.replicate 4 1) .icmp 0).cur % 8 = 0 ∧
        (onFrame (List.replicate 4 1) .icmp 0).cur / 8 + 4 ≤ (onFrame (List.replicate 4 1) .icmp 0).frameLen ∧
    (onFrame (List.replicate 3 1) .icmp 0).phase = .icmp ∧ (onFrame (List.replicate 3 1) .icmp 0).cur % 8 = 0 ∧
        (onFrame (List.replicate 3 1) .icmp 0).frameLen < (onFrame (List.replicate 3 1) .icmp 0).cur / 8 + 4 := by
  decide

/-- Hypotheses of `StepTcpCapturesTheData`. -/
theorem witness_StepTcpCapturesTheData :
    (onFrame (tcpBytes.take 12 ++ 0x50 :: List.replicate 7 0) .tcp 0).phase = .tcp ∧
        (onFrame (tcpBytes.take 12 ++ 0x50 :: List.replicate 7 0) .tcp 0).cur % 8 = 0 ∧
        5 ≤ offsetWords (onFrame (tcpBytes.take 12 ++ 0x50 :: List.replicate 7 0) .tcp 0) 0 ∧
        (onFrame (tcpBytes.take 12 ++ 0x50 :: List.replicate 7 0) .tcp 0).cur / 8 + 4 * offsetWords (onFrame (tcpBytes.take 12
        ++ 0x50 :: List.replicate 7 0) .tcp 0) 0 ≤ (onFrame (tcpBytes.take 12 ++ 0x50 :: List.replicate 7 0) .tcp 0).frameLen ∧
    (onFrame (tcpBytes.take 12 ++ [0x40]) .tcp 0).phase = .tcp ∧ (onFrame (tcpBytes.take 12 ++ [0x40]) .tcp 0).cur % 8 = 0 ∧
        (onFrame (tcpBytes.take 12 ++ [0x40]) .tcp 0).cur / 8 + 13 ≤ (onFrame (tcpBytes.take 12 ++ [0x40]) .tcp 0).frameLen ∧
        offsetWords (onFrame (tcpBytes.take 12 ++ [0x40]) .tcp 0) 0 < 5 ∧
    (onFrame (tcpBytes.take 12) .tcp 0).phase = .tcp ∧ (onFrame (tcpBytes.take 12) .tcp 0).cur % 8 = 0 ∧
        (onFrame (tcpBytes.take 12) .tcp 0).frameLen < (onFrame (tcpBytes.take 12) .tcp 0).cur / 8 + 13 ∧
    (onFrame (tcpBytes.take 12 ++ [0x50]) .tcp 0).phase = .tcp ∧ (onFrame (tcpBytes.take 12 ++ [0x50]) .tcp 0).cur % 8 = 0 ∧
        (onFrame (tcpBytes.take 12 ++ [0x50]) .tcp 0).cur / 8 + 13 ≤ (onFrame (tcpBytes.take 12 ++ [0x50]) .tcp 0).frameLen ∧
        5 ≤ offsetWords (onFrame (tcpBytes.take 12 ++ [0x50]) .tcp 0) 0 ∧
        (onFrame (tcpBytes.take 12 ++ [0x50]) .tcp 0).frameLen < (onFrame (tcpBytes.take 12 ++ [0x50]) .tcp 0).cur / 8 + 4 *
        offsetWords (onFrame (tcpBytes.take 12 ++ [0x50]) .tcp 0) 0 := by
  decide +kernel

/-- Hypotheses of `StepUdpBoundsThePayload`. -/
theorem witness_StepUdpBoundsThePayload :
    (onFrame [0x99, 0xD0, 0x04, 0x3F, 0x00, 0x08, 0x72, 0x28] .udp 0).phase = .udp ∧ (onFrame [0x99, 0xD0, 0x04, 0x3F, 0x00,
        0x08, 0x72, 0x28] .udp 0).cur % 8 = 0 ∧ 8 ≤ num (onFrame [0x99, 0xD0, 0x04, 0x3F, 0x00, 0x08, 0x72, 0x28] .udp 0) 4 2 ∧
        (onFrame [0x99, 0xD0, 0x04, 0x3F, 0x00, 0x08, 0x72, 0x28] .udp 0).cur / 8 + num (onFrame [0x99, 0xD0, 0x04, 0x3F, 0x00,
        0x08, 0x72, 0x28] .udp 0) 4 2 ≤ (onFrame [0x99, 0xD0, 0x04, 0x3F, 0x00, 0x08, 0x72, 0x28] .udp 0).frameLen ∧
    (onFrame [0x99, 0xD0, 0x04, 0x3F, 0x00, 0x07] .udp 0).phase = .udp ∧ (onFrame [0x99, 0xD0, 0x04, 0x3F, 0x00,
        0x07] .udp 0).cur % 8 = 0 ∧ (onFrame [0x99, 0xD0, 0x04, 0x3F, 0x00, 0x07] .udp 0).cur / 8 + 6 ≤ (onFrame [0x99, 0xD0,
        0x04, 0x3F, 0x00, 0x07] .udp 0).frameLen ∧ num (onFrame [0x99, 0xD0, 0x04, 0x3F, 0x00, 0x07] .udp 0) 4 2 < 8 ∧
    (onFrame [0x99, 0xD0, 0x04, 0x3F, 0x00] .udp 0).phase = .udp ∧ (onFrame [0x99, 0xD0, 0x04, 0x3F, 0x00] .udp 0).cur % 8 = 0 ∧
        (onFrame [0x99, 0xD0, 0x04, 0x3F, 0x00] .udp 0).frameLen < (onFrame [0x99, 0xD0, 0x04, 0x3F, 0x00] .udp 0).cur / 8 + 6 ∧
    (onFrame [0x99, 0xD0, 0x04, 0x3F, 0x00, 0x08, 0x72] .udp 0).phase = .udp ∧ (onFrame [0x99, 0xD0, 0x04, 0x3F, 0x00, 0x08,
        0x72] .udp 0).cur % 8 = 0 ∧ (onFrame [0x99, 0xD0, 0x04, 0x3F, 0x00, 0x08, 0x72] .udp 0).cur / 8 + 6 ≤ (onFrame [0x99,
        0xD0, 0x04, 0x3F, 0x00, 0x08, 0x72] .udp 0).frameLen ∧ 8 ≤ num (onFrame [0x99, 0xD0, 0x04, 0x3F, 0x00, 0x08,
        0x72] .udp 0) 4 2 ∧ (onFrame [0x99, 0xD0, 0x04, 0x3F, 0x00, 0x08, 0x72] .udp 0).frameLen < (onFrame [0x99, 0xD0, 0x04,
        0x3F, 0x00, 0x08, 0x72] .udp 0).cur / 8 + num (onFrame [0x99, 0xD0, 0x04, 0x3F, 0x00, 0x08, 0x72] .udp 0) 4 2 := by
  decide +kernel

/-- Hypotheses of `PhaseStepsAreEnabledInTheirPhaseOnly`. -/
theorem witness_PhaseStepsAreEnabledInTheirPhaseOnly :
    State.reset.phase ≠ .eth ∧ (onFrame [1] .eth 4).cur % 8 ≠ 0 ∧ (onFrame [1] .eth 4).phase = .eth ∧
    State.reset.phase ≠ .ip ∧ (onFrame [1] .ip 4).cur % 8 ≠ 0 ∧ (onFrame [1] .ip 4).phase = .ip ∧
    State.reset.phase ≠ .dispatch ∧ (onFrame [1] .dispatch 4).cur % 8 ≠ 0 ∧ (onFrame [1] .dispatch 4).phase = .dispatch ∧
    State.reset.phase ≠ .icmp ∧ (onFrame [1] .icmp 4).cur % 8 ≠ 0 ∧ (onFrame [1] .icmp 4).phase = .icmp ∧
    State.reset.phase ≠ .tcp ∧ (onFrame [1] .tcp 4).cur % 8 ≠ 0 ∧ (onFrame [1] .tcp 4).phase = .tcp ∧
    State.reset.phase ≠ .udp ∧ (onFrame [1] .udp 4).cur % 8 ≠ 0 ∧ (onFrame [1] .udp 4).phase = .udp := by
  decide

/-- Hypotheses of `StartBeginsATransaction`. -/
theorem witness_StartBeginsATransaction :
    State.reset.phase = .idle ∧
    doneState.phase = .done ∧
    (onFrame [] .error 0).phase = .error ∧
    (onFrame [] .eth 0).busy = true ∧
    (onFrame [] .udp 0).busy = true := by
  decide +kernel

/-- Hypotheses of `LoadFrameLoadsTheFrame`: an admitted frame of one byte and the empty frame, a busy phase, a frame one byte too long. -/
theorem witness_LoadFrameLoadsTheFrame :
    State.reset.fb.wf = true ∧ State.reset.phase = .idle ∧ [(7 : Byte)].length ≤ Config.frameMax ∧
    ([] : List Byte).length ≤ Config.frameMax ∧ (onFrame [] .ip 0).fb.wf = true ∧ (onFrame [] .ip 0).busy = true ∧
    Config.frameMax < (List.replicate (Config.frameMax + 1) (0 : Byte)).length :=
  ⟨rfl, rfl, oneByteFits 7, Nat.zero_le _, rfl, rfl, by rw [List.length_replicate]; exact Nat.lt_succ_self _⟩

/-- A finished transaction with every transport group present, so that each clause of `ReadGivesTheResultRegisters` applies. -/
def allGroups : State :=
  { doneState with
    tcp := some { sport := 0, dport := 0, seq := 0, acknum := 0, doff := 20, urg := false, ack := false, psh := false, rst := false,
                  syn := true, fin := false, win := 0, csum := 0, urp := 0 },
    udp := some { sport := 1, dport := 2, len := 8, csum := 0 } }

/-- Hypotheses of `ReadGivesTheResultRegisters`. -/
theorem witness_ReadGivesTheResultRegisters :
    allGroups.phase = .done ∧
    allGroups.eth.isSome = true ∧
    allGroups.ip.isSome = true ∧
    allGroups.icmp.isSome = true ∧
    allGroups.tcp.isSome = true ∧
    allGroups.udp.isSome = true ∧
    allGroups.ctTag.isSome = true ∧
    allGroups.pay.isSome = true := by
  decide +kernel

/-- Hypotheses of `ReadGivesTheControlRegisters`: the payload window ends at the last byte of the frame. -/
theorem witness_ReadGivesTheControlRegisters :
    State.reset.phase = .idle ∧
    (onFrame [] .error 0).phase = .error ∧
    doneState.phase = .done ∧ doneState.pay = some { off := 38, len := 4 } ∧ doneState.ctTag ≠ some .other ∧
        38 + 4 ≤ doneState.frameLen := by
  decide +kernel

/-- A finished transaction of another protocol (P4). -/
def otherDone : State :=
  { onFrame [] .done 0 with eth := some placedEth, ip := some (placedIp 0x2F), ctTag := some .other }

/-- Hypotheses of `ReadOutsideItsAdmissionIsRefused`. -/
theorem witness_ReadOutsideItsAdmissionIsRefused :
    isResult .ethDst = true ∧ (onFrame [] .error 0).phase ≠ .done ∧
    isResult .payload = true ∧ State.reset.phase ≠ .done ∧
    (onFrame [] .dispatch 0).busy = true ∧
    otherDone.phase = .done ∧ otherDone.ctTag = some .other ∧
    isResult .payOff = true ∧ Reg.payOff ≠ .payload ∧ otherDone.peek .payOff = none := by
  decide

/-- Hypotheses of `PayloadWindowOutsideTheFrameFaults`: a window one byte too long; no reachable state has one. -/
theorem witness_PayloadWindowOutsideTheFrameFaults :
    (({ doneState with pay := some { off := 38, len := 5 } } : State)).phase = .done ∧
    doneState.ctTag ≠ some .other ∧
    doneState.frameLen < 38 + 5 := by
  decide +kernel

/-- An idle, empty, finished or failed state without a payload descriptor meets what the invariant says of the frame. -/
theorem inv_of_empty {s : State} (h1 : s.fb = []) (h2 : s.frameLen = 0) (h3 : s.cur = 0) (h4 : s.pay = none)
    (h8 : s.call = []) (h5 : s.groupsMatchPhase) (h6 : s.errorsMatchPhase) (h7 : s.tagsMatchValues) : s.Inv where
  fbWf := by rw [h1]; rfl
  fbInRange := by rw [h1]; simp
  lenInRange := by rw [h2]; exact Nat.zero_le _
  curInRange := by rw [h3]; exact Nat.zero_le _
  aligned := fun _ => by rw [h3]
  idleCursor := fun _ => h3
  groups := h5
  errors := h6
  tags := h7
  payload := by rw [h4]; simp
  noCall := h8

/-- A started transaction on the empty frame. -/
def started : State := onFrame [] .eth 0

/-- The invariant holds of it. -/
theorem started_inv : started.Inv :=
  inv_of_empty rfl rfl rfl rfl rfl ⟨rfl, rfl, rfl, rfl, rfl, rfl, rfl⟩ ⟨rfl, rfl⟩
    ⟨by simp [started, onFrame, State.load, State.clearResults, State.reset],
     by simp [started, onFrame, State.load, State.clearResults, State.reset],
     by simp [started, onFrame, State.load, State.clearResults, State.reset],
     by simp [started, onFrame, State.load, State.clearResults, State.reset],
     by simp [started, onFrame, State.load, State.clearResults, State.reset]⟩

/-- The invariant holds of a finished transaction of another protocol. -/
theorem otherDone_inv : otherDone.Inv :=
  inv_of_empty rfl rfl rfl rfl rfl
    (by simp [State.groupsMatchPhase, otherDone, onFrame, State.load, State.clearResults, State.reset])
    ⟨rfl, rfl⟩
    ⟨by simp [otherDone, placedEth],
     by
      intro g h
      obtain rfl : placedIp 0x2F = g := Option.some.inj h
      decide,
     by
      intro t h
      obtain rfl : ContentsTag.other = t := Option.some.inj h
      exact ⟨placedIp 0x2F, rfl, rfl⟩,
     by simp [otherDone, onFrame, State.load, State.clearResults, State.reset],
     by simp [otherDone, onFrame, State.load, State.clearResults, State.reset]⟩

/-- A transaction that waits for the dispatcher with protocol TCP, on the empty frame: no run reaches it, and the invariant holds. -/
def dispatching : State :=
  { onFrame [] .dispatch 0 with eth := some placedEth, ip := some (placedIp 0x06) }

/-- The invariant holds of it. -/
theorem dispatching_inv : dispatching.Inv :=
  inv_of_empty rfl rfl rfl rfl rfl
    (by simp [State.groupsMatchPhase, State.noTransport, dispatching, onFrame, State.load, State.clearResults, State.reset])
    ⟨rfl, rfl⟩
    ⟨by simp [dispatching, placedEth],
     by
      intro g h
      obtain rfl : placedIp 0x06 = g := Option.some.inj h
      decide,
     by simp [dispatching, onFrame, State.load, State.clearResults, State.reset],
     by simp [dispatching, onFrame, State.load, State.clearResults, State.reset],
     by simp [dispatching, onFrame, State.load, State.clearResults, State.reset]⟩

/-- Hypotheses of `BusyStepsMakeProgress`, in the first busy phase and in a later one. -/
theorem witness_BusyStepsMakeProgress :
    (started.Inv ∧ started.rst = false ∧ started.req = [] ∧ started.busy = true) ∧
    (dispatching.Inv ∧ dispatching.rst = false ∧ dispatching.req = [] ∧ dispatching.busy = true) :=
  ⟨⟨started_inv, rfl, rfl, rfl⟩, dispatching_inv, rfl, rfl, rfl⟩

/-- Hypotheses of `TransactionsEndWithinFourSteps`. -/
theorem witness_TransactionsEndWithinFourSteps :
    started.Inv ∧ started.rst = false ∧ started.req = [] ∧ started.busy = true :=
  witness_BusyStepsMakeProgress.1

/-- Hypotheses of `RequestsCannotDivertATransaction`: a dropped START before the step, and the step itself. -/
theorem witness_RequestsCannotDivertATransaction :
    ({ started with req := [0x1F] } : State).rst = false ∧ ({ started with req := [0x1F] } : State).call = [] ∧
    ({ started with req := [0x1F] } : State).busy = true ∧ step { started with req := [0x1F] } = .next started ∧
    step started = .next (failedState started .invalidEthernetFrame .insufficientData 0) :=
  ⟨rfl, rfl, rfl, rfl, rfl⟩

/-- Hypotheses of `StepKeepsTheInvariant`: the invariant holds and the step answers a next state. -/
theorem witness_StepKeepsTheInvariant :
    started.Inv ∧ step started = .next (failedState started .invalidEthernetFrame .insufficientData 0) :=
  ⟨started_inv, rfl⟩

/-- Hypotheses of `TransactionMovesKeepTheCursorAligned`. -/
theorem witness_TransactionMovesKeepTheCursorAligned :
    isTransactionMove .stepEth = true ∧ (onFrame ethBytes .eth 0).CursorAligned ∧
    nextIs (exec .stepEth (onFrame ethBytes .eth 0)) (fun t => decide (t.phase ≠ .error)) = true :=
  ⟨rfl, fun _ => rfl, by decide +kernel⟩

/-- Hypotheses of `PhaseMovesFollowTheTable`: a host command leaves a quiescent phase, a step a busy one. -/
theorem witness_PhaseMovesFollowTheTable :
    nextIs (exec .start State.reset) (fun t => decide (t.phase ≠ State.reset.phase)) = true ∧
    nextIs (exec .stepEth started) (fun t => decide (t.phase ≠ started.phase)) = true ∧
    State.reset.busy = false ∧ started.busy = true ∧ (∀ bs, Instr.start ≠ .decodePacket bs) :=
  ⟨by decide, by decide, rfl, rfl, fun _ h => by cases h⟩

/-- Hypotheses of `ErrorsAreLegalAndClearTheResult`. -/
theorem witness_ErrorsAreLegalAndClearTheResult :
    nextIs (exec .stepEth started) (fun t => decide (t.phase = .error)) = true ∧ started.phase ≠ .error := by decide

/-- Hypotheses of `OnlyLoadFrameWritesTheFrameBuffer`: one loaded byte changes both FB and FRAME_LEN. -/
theorem witness_OnlyLoadFrameWritesTheFrameBuffer :
    exec (.loadFrame [7]) State.reset = .next (State.reset.load [7]) ∧ (State.reset.load [7]).fb ≠ State.reset.fb ∧
    (State.reset.load [7]).frameLen ≠ State.reset.frameLen :=
  ⟨show execLoadFrame [7] State.reset = _ from if_pos ⟨rfl, oneByteFits 7⟩, by decide, by decide⟩

/-- Hypotheses of `OutcomeFollowsTheClosedForm`, on a frame of one byte, whose outcome is an error. -/
theorem witness_OutcomeFollowsTheClosedForm :
    State.reset.fb.wf = true ∧ State.reset.busy = false ∧ [(8 : Byte)].length ≤ Config.frameMax ∧
    closedForm [8] = .err .invalidEthernetFrame .insufficientData :=
  ⟨rfl, rfl, oneByteFits 8, rfl⟩

/-- Hypotheses of `DecodePacketIsLoadStartAndSteps`, on a frame of one byte and on the empty frame. -/
theorem witness_DecodePacketIsLoadStartAndSteps :
    State.reset.busy = false ∧ State.reset.rst = false ∧ State.reset.call = [] ∧ State.reset.req = [] ∧ [(8 : Byte)].length ≤ Config.frameMax ∧
    ([] : List Byte).length ≤ Config.frameMax :=
  ⟨rfl, rfl, rfl, rfl, oneByteFits 8, Nat.zero_le _⟩

/-- The same, under the assumption of 95 that `FRAME_MAX >= 97`: the frames of P2, P4 and V-IC3 are admitted and their outcomes, read
from 95, are what the closed form says. -/
theorem witness_OutcomeFollowsTheClosedForm_ok (h : 97 ≤ Config.frameMax) :
    (ethBytes ++ ip47Bytes).length ≤ Config.frameMax ∧ closedForm (ethBytes ++ ip47Bytes) = .ok .other ∧
    (ethBytes ++ ip6Bytes ++ tcpBytes ++ [0x68, 0x69]).length ≤ Config.frameMax ∧
    closedForm (ethBytes ++ ip6Bytes ++ tcpBytes ++ [0x68, 0x69]) = .ok (.tcp [0x68, 0x69]) ∧
    (ethBytes ++ ipBytes ++ icmpBytes).length ≤ Config.frameMax ∧
    closedForm (ethBytes ++ ipBytes ++ icmpBytes) = .ok (.icmp [0x1E, 0x60, 0, 0]) :=
  ⟨le_trans (by decide) h, by decide +kernel, le_trans (by decide) h, by decide +kernel, le_trans (by decide) h, by decide +kernel⟩

/-- Hypotheses of `OutcomeDependsOnTheFrameAlone`: two states that agree on the frame and differ beside it. -/
theorem witness_OutcomeDependsOnTheFrameAlone :
    doneState.busy = false ∧ (doneState.load (ethBytes ++ ipBytes ++ icmpBytes)).busy = false ∧ doneState.rst = false ∧
    doneState.call = [] ∧ doneState.req = [] ∧ doneState.frameLen = (doneState.load (ethBytes ++ ipBytes ++ icmpBytes)).frameLen ∧
    (∀ a, a < doneState.frameLen → doneState.fb.read a = (doneState.load (ethBytes ++ ipBytes ++ icmpBytes)).fb.read a) ∧
    doneState.phase ≠ (doneState.load (ethBytes ++ ipBytes ++ icmpBytes)).phase := by decide +kernel

/-- Hypotheses of `DoneStateReadsAsAPacket`. -/
theorem witness_DoneStateReadsAsAPacket : otherDone.Inv ∧ otherDone.phase = .done ∧ otherDone.ctTag = some .other :=
  ⟨otherDone_inv, rfl, rfl⟩

end Sys2Proof.Tests
end

section
/-! Nothing outside the frame's bytes steers a busy transaction (00_scope R3, 60_exceptions R239). In a busy phase every host command and
every requested phase step is a run of the parser's own steps (`isParserRun_of_exec_busy`), and the parser's steps commute with any change
of the pending requests (`runParser_setReq`); together they settle O58. The read of a payload window outside the frame (00_scope R14) is
O45. -/

namespace Sys2Proof.Machine

variable {α : Type} {s t : State}

/-! ### In a busy phase a command is dropped -/

theorem quiescent_eq_false_of_busy (h : s.busy = true) : s.phase.quiescent = false := by
  unfold State.busy at h
  cases hp : s.phase <;> simp_all [Phase.code, Phase.quiescent]

/-- A dropped `START` (R220, R223). -/
theorem execStart_busy (h : s.busy = true) : execStart s = .next s := by
  simp [execStart, quiescent_eq_false_of_busy h]

/-- A dropped `LOAD_FRAME` (R221, R223). -/
theorem execLoadFrame_busy (h : s.busy = true) (bs : List Byte) : execLoadFrame bs s = .next s := by
  simp [execLoadFrame, quiescent_eq_false_of_busy h]

/-! ### The parser's move does not look at the pending requests -/

theorem layerStep_setReq {ph : Phase} {k : ErrKind} {r : Res α} {put : α → State → State} (bs : List Byte)
    (hput : ∀ v u, put v (State.setReq bs u) = (put v u).setReq bs) (h : layerStep ph k r put s = .next t) :
    layerStep ph k r put (s.setReq bs) = .next (t.setReq bs) := by
  obtain ⟨hp, ⟨v, p, rfl, rfl⟩ | ⟨c, p, rfl, rfl⟩⟩ := layerStep_eq_next h
  · rw [layerStep_ok (s := s.setReq bs) hp, ← hput]
    rfl
  · exact layerStep_fail (s := s.setReq bs) hp k c p put

theorem execStepDispatch_setReq (bs : List Byte) (h : execStepDispatch s = .next t) :
    execStepDispatch (s.setReq bs) = .next (t.setReq bs) := by
  obtain ⟨hp, g, hg, rfl⟩ := execStepDispatch_eq_next h
  simp only [execStepDispatch, State.setReq_phase, State.setReq_ip, hp, hg, if_pos]
  rfl

/-- The parser's move is the same whatever requests are pending (R3, R105). -/
theorem parserStep_setReq (bs : List Byte) (h : parserStep s = .next t) :
    parserStep (s.setReq bs) = .next (t.setReq bs) := by
  unfold parserStep at h ⊢
  rw [State.setReq_phase]
  cases hp : s.phase <;> simp only [hp] at h ⊢
  case eth => exact layerStep_setReq bs (fun _ _ => rfl) h
  case ip => exact layerStep_setReq bs (fun _ _ => rfl) h
  case dispatch => exact execStepDispatch_setReq bs h
  case icmp => exact layerStep_setReq bs (fun _ _ => rfl) h
  case tcp => exact layerStep_setReq bs (fun _ _ => rfl) h
  case udp => exact layerStep_setReq bs (fun _ _ => rfl) h
  all_goals cases h; rfl

theorem runParser_setReq (bs : List Byte) {k : Nat} (h : runParser k s = .next t) :
    runParser k (s.setReq bs) = .next (t.setReq bs) := by
  induction k generalizing s with
  | zero => cases h; rfl
  | succ k ih =>
    rw [runParser_succ] at h ⊢
    obtain ⟨u, hu, hr⟩ := thenDo_eq_next.mp h
    exact thenDo_eq_next.mpr ⟨u.setReq bs, parserStep_setReq bs hu, ih hr⟩

/-! ### Every command in a busy phase is a run of the parser -/

theorem runParser_one (s : State) : runParser 1 s = parserStep s := by
  rw [runParser_succ]
  cases parserStep s <;> rfl

/-- `t` is the end of at most four of the parser's own steps from `s`, but for the result handed to the caller. -/
def IsParserRun (s t : State) : Prop := ∃ k u o, k ≤ 4 ∧ runParser k s = .next u ∧ t = u.setOut o

/-- No step: only the caller's result changes. -/
theorem isParserRun_setOut (s : State) (o : Out) : IsParserRun s (s.setOut o) := ⟨0, s, o, by decide, rfl, rfl⟩

/-- One step. -/
theorem isParserRun_of_parserStep (h : parserStep s = .next t) : IsParserRun s t :=
  ⟨1, t, t.out, by decide, (runParser_one s).trans h, rfl⟩

/-- A phase step that its own phase selects is the parser's move (R105, R214). -/
theorem isParserRun_of_layerStep {ph : Phase} {k : ErrKind} {r : Res α} {put : α → State → State}
    (hsel : s.phase = ph → parserStep s = layerStep ph k r put s) (h : layerStep ph k r put s = .next t) : IsParserRun s t :=
  isParserRun_of_parserStep ((hsel (layerStep_eq_next h).1).trans h)

theorem isParserRun_of_execStepDispatch (h : execStepDispatch s = .next t) : IsParserRun s t := by
  have hp : s.phase = .dispatch := (execStepDispatch_eq_next h).1
  exact isParserRun_of_parserStep (by simpa [parserStep, hp] using h)

/-- In a busy phase `DECODE_PACKET` drops its `LOAD_FRAME` and its `START` and finishes the running transaction (log entry 15). -/
theorem isParserRun_of_execDecodePacket (hb : s.busy = true) {bs : List Byte} (h : execDecodePacket bs s = .next t) :
    IsParserRun s t := by
  obtain ⟨s₁, s₂, s₃, o, hload, hstart, hrun, rfl⟩ := execDecodePacket_eq_next h
  rw [execLoadFrame_busy hb] at hload
  cases hload
  rw [execStart_busy hb] at hstart
  cases hstart
  exact ⟨4, s₃, o, le_rfl, hrun, rfl⟩

/-- In a busy phase every host command and every phase step that answers a next state is a run of the parser (R223, R264). -/
theorem isParserRun_of_exec_busy (hb : s.busy = true) {i : Instr} (hm : isTransactionMove i = true) (h : exec i s = .next t) :
    IsParserRun s t := by
  cases i
  case stepEth => exact isParserRun_of_layerStep (fun hp => by simp [parserStep, hp, execStepEth]) h
  case stepIp => exact isParserRun_of_layerStep (fun hp => by simp [parserStep, hp, execStepIp]) h
  case stepDispatch => exact isParserRun_of_execStepDispatch h
  case stepIcmp => exact isParserRun_of_layerStep (fun hp => by simp [parserStep, hp, execStepIcmp]) h
  case stepTcp => exact isParserRun_of_layerStep (fun hp => by simp [parserStep, hp, execStepTcp]) h
  case stepUdp => exact isParserRun_of_layerStep (fun hp => by simp [parserStep, hp, execStepUdp]) h
  case decodePacket bs => exact isParserRun_of_execDecodePacket hb h
  case start => cases (execStart_busy hb).symm.trans h; exact isParserRun_setOut s s.out
  case loadFrame bs => cases (execLoadFrame_busy hb bs).symm.trans h; exact isParserRun_setOut s s.out
  case read r => obtain ⟨o, rfl⟩ := execRead_eq_next h; exact isParserRun_setOut s o
  all_goals cases hm

/-- A busy step without reset and with an empty call bench is a run of the parser, in the state without the request it took. -/
theorem isParserRun_of_step_busy (hr : s.rst = false) (hc : s.call = []) (hb : s.busy = true) (h : step s = .next t) :
    ∃ rest, IsParserRun (s.setReq rest) t := by
  obtain ⟨hr', -⟩ | ⟨-, i, rest, -, hm, hx⟩ | ⟨-, -, hx⟩ := step_cases hc h
  · exact absurd (hr.symm.trans hr') Bool.false_ne_true
  · exact ⟨rest, isParserRun_of_exec_busy (s := s.setReq rest) hb hm hx⟩
  · exact ⟨s.req, isParserRun_of_parserStep hx⟩

/-! ### The payload window outside the frame -/

/-- `READ(PAYLOAD)` of a window that is admitted but reaches beyond the frame (R14; log entry 16). -/
theorem execRead_payload_outside {w : Run} (ha : s.readAdmitted .payload = true) (hw : s.pay = some w)
    (hout : s.frameLen < w.off + w.len) : execRead .payload s = .fault .memReadOutsideFrame := by
  simp [execRead, ha, State.peek, State.payInFrame, hw, hout]

theorem readAdmitted_payload_of_done (hp : s.phase = .done) (hc : s.ctTag ≠ some .other) :
    s.readAdmitted .payload = true := by
  simp [State.readAdmitted, State.isDone, hp, Phase.code, hc]

end Sys2Proof.Machine

namespace Sys2Proof.Claims

open Sys2Proof.Machine

/-- Settles O58: the step is a run of the parser, and the same run without requests differs from it in the requests and the caller's
result only. -/
theorem requestsCannotDivertATransaction : Obligations.RequestsCannotDivertATransaction := by
  intro s t hr hc hb h
  obtain ⟨rest, k, u, o, hk, hrun, rfl⟩ := isParserRun_of_step_busy hr hc hb h
  have hquiet : runParser k (s.setReq []) = .next (u.setReq []) := runParser_setReq (s := s.setReq rest) [] hrun
  exact ⟨k, u.setReq [], hk, (core_run_eq_runParser (s := s.setReq []) k hr hc rfl).trans hquiet, rfl⟩

/-- Settles O45: DONE with CT_TAG other than Other admits the read, and the window is not in the frame. -/
theorem payloadWindowOutsideTheFrameFaults : Obligations.PayloadWindowOutsideTheFrameFaults :=
  fun _ _ hp hw hc hout => execRead_payload_outside (readAdmitted_payload_of_done hp hc) hw hout

end Sys2Proof.Claims
end

section
/-! The state of WBP at the boundaries of a step (10_state). The invariant of R39 is proved clause by clause: each clause has one lemma that
says that every `Move` keeps it, by the cases of `Move`; `Move.inv` puts them together, and `exec_move_keeps` and `step_cases` carry the
result from moves to operations and to steps (O47, O48, O2). FRAME_LEN and FB change only by `State.load` (R21, O51); the result file of a
DONE state that meets the invariant reads as a Packet (R33, O57). -/

namespace Sys2Proof.Machine

variable {α : Type} {s t : State} {f : Frame} {p q : Nat}

/-! ### Status flags (R34) and reset (R38) -/

theorem statusFlags_count (s : State) : [s.isIdle, s.busy, s.isDone, s.isError].count true = 1 := by
  unfold State.isIdle State.busy State.isDone State.isError
  cases s.phase <;> decide

theorem quiescent_eq_not_busy (s : State) : s.phase.quiescent = !s.busy := by
  unfold State.busy
  cases s.phase <;> decide

/-- Result registers that are cleared hold no value (R24). -/
theorem peek_clearResults {r : Reg} (hr : Claims.isResult r = true) : s.clearResults.peek r = none := by
  cases r
  case phase | frameLen | cur | errKind | errCause => exact absurd hr (by decide)
  all_goals rfl

/-! ### The frame buffer is written by `LOAD_FRAME` alone (R21) -/

/-- A move writes the frame only as an admitted `LOAD_FRAME`. -/
theorem Move.frame_eq_or_load (hm : Move s t) :
    t.frame = s.frame ∨ ∃ bs, s.phase.quiescent = true ∧ bs.length ≤ Config.frameMax ∧ t = s.load bs := by
  cases hm
  case loaded bs hq hl => exact .inr ⟨bs, hq, hl, rfl⟩
  all_goals exact .inl rfl

theorem execStart_frame (h : execStart s = .next t) : t.frame = s.frame := by
  obtain ⟨-, rfl⟩ | ⟨-, rfl⟩ := execStart_eq_next h <;> rfl

theorem layerStep_frame {ph : Phase} {k : ErrKind} {r : Res α} {put : α → State → State}
    (h : layerStep ph k r put s = .next t) (hput : ∀ v u, (put v u).frame = u.frame) : t.frame = s.frame := by
  obtain ⟨-, ⟨v, p, -, rfl⟩ | ⟨c, p, -, rfl⟩⟩ := layerStep_eq_next h
  · exact hput v _
  · rfl

/-- In a quiescent phase, where a frame could be loaded, the parser does not move; in a busy one it loads none. -/
theorem parserStep_frame (h : parserStep s = .next t) : t.frame = s.frame := by
  obtain he | ⟨bs, hq, -, -⟩ := (parserStep_move h).frame_eq_or_load
  · exact he
  · have hrun : runParser 1 s = .next s := runParser_quiescent hq 1
    rw [runParser_one, h] at hrun
    cases hrun
    rfl

theorem runParser_frame {k : Nat} (h : runParser k s = .next t) : t.frame = s.frame := by
  induction k generalizing s with
  | zero => cases h; rfl
  | succ k ih =>
    rw [runParser_succ] at h
    obtain ⟨u, hu, hr⟩ := thenDo_eq_next.mp h
    exact (ih hr).trans (parserStep_frame hu)

/-- `DECODE_PACKET` writes the frame that its `LOAD_FRAME` writes (R216). -/
theorem execDecodePacket_frame {bs : List Byte} (h : execDecodePacket bs s = .next t) :
    ∃ u, execLoadFrame bs s = .next u ∧ t.frame = u.frame := by
  obtain ⟨s₁, s₂, s₃, o, hload, hstart, hrun, rfl⟩ := execDecodePacket_eq_next h
  exact ⟨s₁, hload, (runParser_frame hrun).trans (execStart_frame hstart)⟩

/-- No operation but `LOAD_FRAME` and `DECODE_PACKET` writes the frame. -/
theorem exec_frame {i : Instr} (hload : ∀ bs, i ≠ .loadFrame bs) (hdec : ∀ bs, i ≠ .decodePacket bs) (h : exec i s = .next t) :
    t.frame = s.frame := by
  cases hm : isTransactionMove i with
  | false =>
    obtain ⟨p, o, -, rfl⟩ := exec_part hm h
    rfl
  | true =>
    cases i
    case loadFrame bs => exact absurd rfl (hload bs)
    case decodePacket bs => exact absurd rfl (hdec bs)
    case stepEth => exact layerStep_frame h fun _ _ => rfl
    case stepIp => exact layerStep_frame h fun _ _ => rfl
    case stepIcmp => exact layerStep_frame h fun _ _ => rfl
    case stepTcp => exact layerStep_frame h fun _ _ => rfl
    case stepUdp => exact layerStep_frame h fun _ _ => rfl
    case stepDispatch => obtain ⟨-, g, -, rfl⟩ := execStepDispatch_eq_next h; rfl
    case start => exact execStart_frame h
    case read r => obtain ⟨o, rfl⟩ := execRead_eq_next h; rfl
    all_goals cases hm

/-- A `LOAD_FRAME` that changes the frame was admitted (R221). -/
theorem execLoadFrame_frame_ne {bs : List Byte} (h : execLoadFrame bs s = .next t) (hne : t.frame ≠ s.frame) :
    s.phase.quiescent = true ∧ bs.length ≤ Config.frameMax ∧ t.frame = (s.load bs).frame := by
  obtain ⟨⟨hq, hl⟩, rfl⟩ | rfl := execLoadFrame_eq_next h
  · exact ⟨hq, hl, rfl⟩
  · exact absurd rfl hne

/-- An operation that changes the frame has run an admitted `LOAD_FRAME`. -/
theorem exec_frame_ne {i : Instr} (h : exec i s = .next t) (hne : t.frame ≠ s.frame) :
    s.phase.quiescent = true ∧ ∃ bs, (i = .loadFrame bs ∨ i = .decodePacket bs) ∧ bs.length ≤ Config.frameMax ∧
      t.frame = (s.load bs).frame := by
  by_cases hload : ∃ bs, i = .loadFrame bs
  · obtain ⟨bs, rfl⟩ := hload
    obtain ⟨hq, hl, ht⟩ := execLoadFrame_frame_ne h hne
    exact ⟨hq, bs, .inl rfl, hl, ht⟩
  by_cases hdec : ∃ bs, i = .decodePacket bs
  · obtain ⟨bs, rfl⟩ := hdec
    obtain ⟨u, hu, hf⟩ := execDecodePacket_frame h
    rw [hf] at hne ⊢
    obtain ⟨hq, hl, ht⟩ := execLoadFrame_frame_ne hu hne
    exact ⟨hq, bs, .inr rfl, hl, ht⟩
  exact absurd (exec_frame (fun bs e => hload ⟨bs, e⟩) (fun bs e => hdec ⟨bs, e⟩) h) hne

/-! ### The memory clauses of the invariant -/

theorem Move.fb_wf (hm : Move s t) (h : s.fb.wf = true) : t.fb.wf = true := by
  obtain hf | ⟨bs, -, -, rfl⟩ := hm.frame_eq_or_load
  · rwa [show t.fb = s.fb from congrArg Frame.fb hf]
  · exact Memory.writeAll_wf 0 bs h

theorem Move.fb_inRange (hm : Move s t) (h : ∀ c ∈ s.fb, c.1 < Config.frameMax) : ∀ c ∈ t.fb, c.1 < Config.frameMax := by
  obtain hf | ⟨bs, -, hl, rfl⟩ := hm.frame_eq_or_load
  · rwa [show t.fb = s.fb from congrArg Frame.fb hf]
  · intro c hc
    obtain ⟨-, hlt⟩ | hc := Memory.mem_writeAll hc
    · omega
    · exact h c hc

theorem Move.frameLen_inRange (hm : Move s t) (h : s.frameLen ≤ Config.frameMax) : t.frameLen ≤ Config.frameMax := by
  obtain hf | ⟨bs, -, hl, rfl⟩ := hm.frame_eq_or_load
  · rwa [show t.frameLen = s.frameLen from congrArg Frame.len hf]
  · exact hl

/-! ### The cursor clauses (R39 a, b; R223) -/

theorem Res.Within.of_eq_ok {x : Res α} {v : α} (hx : x.Within f) (h : x = .ok v q) : q ≤ 8 * f.len := by
  subst h
  exact hx

theorem Move.cur_inRange (hm : Move s t) (h : s.cur ≤ 8 * s.frameLen) : t.cur ≤ 8 * t.frameLen := by
  cases hm
  case started | loaded => exact Nat.zero_le _
  case ether g p _ hr => exact (within_decodeEther h).of_eq_ok hr
  case ipv4 g p _ hr => exact (within_decodeIpv4 h).of_eq_ok hr
  case icmp x p _ hr => exact (within_withRest (within_decodeIcmp h)).of_eq_ok hr
  case tcp x p _ hr => exact (within_withRest (within_decodeTcp h)).of_eq_ok hr
  case udp x p _ hr => exact (within_decodeUdp h).of_eq_ok hr
  case raised hp _ => exact hp h
  all_goals exact h

/-- Every header and every payload ends on a byte boundary; only a failure leaves CUR inside a byte (R39 b, R235). -/
theorem Move.cursorAligned (hm : Move s t) (h : s.CursorAligned) : t.CursorAligned := by
  cases hm
  case started | loaded => exact fun _ => rfl
  case ether g p _ hr => obtain ⟨a, -, -, -, rfl⟩ := decodeEther_eq_ok hr; exact fun _ => Nat.mul_mod_right 8 _
  case ipv4 g p _ hr => obtain ⟨a, -, -, -, -, -, rfl⟩ := decodeIpv4_eq_ok hr; exact fun _ => Nat.mul_mod_right 8 _
  case contents g hp _ => exact fun _ => h (by simp [hp])
  case icmp x p _ hr => obtain ⟨a, -, -, -, -, rfl⟩ := withRest_eq_ok hr; exact fun _ => Nat.mul_mod_right 8 _
  case tcp x p _ hr => obtain ⟨a, -, -, -, -, rfl⟩ := withRest_eq_ok hr; exact fun _ => Nat.mul_mod_right 8 _
  case udp x p _ hr => obtain ⟨a, -, -, -, -, -, rfl⟩ := decodeUdp_eq_ok hr; exact fun _ => Nat.mul_mod_right 8 _
  case raised => exact fun hne => absurd rfl hne
  all_goals exact h

theorem phaseOf_ne_idle (c : ProtoTag) : phaseOf c ≠ .idle := by cases c <;> decide

theorem phaseOf_ne_error (c : ProtoTag) : phaseOf c ≠ .error := by cases c <;> decide

/-- IDLE is entered by `LOAD_FRAME` alone, which sets CUR to 0. -/
theorem Move.idle_cur (hm : Move s t) (h : s.phase = .idle → s.cur = 0) : t.phase = .idle → t.cur = 0 := by
  cases hm
  case result | dropped => exact h
  case loaded => exact fun _ => rfl
  case contents g _ _ => exact fun hi => absurd hi (phaseOf_ne_idle _)
  all_goals exact nofun

/-! ### The register groups (R39 c) -/

/-- Up to DONE no transport group holds a value. -/
theorem State.groupsMatchPhase.noTransport (h : s.groupsMatchPhase) (hp : s.phase ≠ .done) : s.noTransport := by
  unfold State.groupsMatchPhase at h
  cases hd : s.phase <;> simp only [hd] at h
  case done => exact absurd hd hp
  all_goals obtain ⟨-, -, -, hn⟩ := h; exact hn

theorem State.groupsMatchPhase.of_eth (h : s.groupsMatchPhase) (hp : s.phase = .eth) : s.ip = none ∧ s.ctTag = none := by
  rw [State.groupsMatchPhase, hp] at h
  obtain ⟨-, hi, hc, -⟩ := h
  exact ⟨hi, hc⟩

theorem State.groupsMatchPhase.of_ip (h : s.groupsMatchPhase) (hp : s.phase = .ip) : s.eth.isSome ∧ s.ctTag = none := by
  rw [State.groupsMatchPhase, hp] at h
  obtain ⟨he, -, hc, -⟩ := h
  exact ⟨he, hc⟩

theorem State.groupsMatchPhase.of_dispatch (h : s.groupsMatchPhase) (hp : s.phase = .dispatch) : s.eth.isSome ∧ s.ip.isSome := by
  rw [State.groupsMatchPhase, hp] at h
  obtain ⟨he, hi, -⟩ := h
  exact ⟨he, hi⟩

/-- In a transport phase CT_TAG names the phase. -/
theorem State.groupsMatchPhase.of_transport (h : s.groupsMatchPhase) {c : ProtoTag} (hc : c ≠ .other) (hp : s.phase = phaseOf c) :
    s.eth.isSome ∧ s.ip.isSome ∧ s.ctTag = some (contentsTagOf c) := by
  rw [State.groupsMatchPhase, hp] at h
  cases c
  case other => exact absurd rfl hc
  all_goals obtain ⟨he, hi, hc, -⟩ := h; exact ⟨he, hi, hc⟩

/-- The dispatcher sets CT_TAG and goes to the phase where it holds that value. -/
theorem groupsMatchPhase_putContents (c : ProtoTag) (he : s.eth.isSome) (hi : s.ip.isSome) (hn : s.noTransport) :
    (s.putContents c).groupsMatchPhase := by
  cases c
  case other =>
    obtain ⟨hicmp, htcp, hudp, hpay⟩ := hn
    exact ⟨he, hi, rfl, by simp [hicmp, htcp, hudp, hpay, contentsTagOf]⟩
  all_goals exact ⟨he, hi, rfl, hn⟩

theorem Move.groupsMatchPhase (hm : Move s t) (h : s.groupsMatchPhase) : t.groupsMatchPhase := by
  cases hm
  case result | dropped => exact h
  case started | loaded | raised => exact ⟨rfl, rfl, rfl, rfl, rfl, rfl, rfl⟩
  case ether g p hp _ => exact ⟨rfl, (h.of_eth hp).1, (h.of_eth hp).2, h.noTransport (by simp [hp])⟩
  case ipv4 g p hp _ => exact ⟨(h.of_ip hp).1, rfl, (h.of_ip hp).2, h.noTransport (by simp [hp])⟩
  case contents g hp _ =>
    obtain ⟨he, hi⟩ := h.of_dispatch hp
    exact groupsMatchPhase_putContents g.protoTag he hi (h.noTransport (by simp [hp]))
  case icmp x p hp _ =>
    obtain ⟨he, hi, hc⟩ := h.of_transport (c := .icmp) (by decide) hp
    obtain ⟨-, htcp, hudp, -⟩ := h.noTransport (by simp [hp])
    exact ⟨he, hi, by simp [hc], by simp [hc, htcp, hudp, contentsTagOf]⟩
  case tcp x p hp _ =>
    obtain ⟨he, hi, hc⟩ := h.of_transport (c := .tcp) (by decide) hp
    obtain ⟨hicmp, -, hudp, -⟩ := h.noTransport (by simp [hp])
    exact ⟨he, hi, by simp [hc], by simp [hc, hicmp, hudp, contentsTagOf]⟩
  case udp x p hp _ =>
    obtain ⟨he, hi, hc⟩ := h.of_transport (c := .udp) (by decide) hp
    obtain ⟨hicmp, htcp, -, -⟩ := h.noTransport (by simp [hp])
    exact ⟨he, hi, by simp [hc], by simp [hc, hicmp, htcp, contentsTagOf]⟩

/-! ### The error registers (R39 d, R233) -/

theorem errorsMatchPhase_of_ne (hp : s.phase ≠ .error) : s.errorsMatchPhase ↔ s.errKind = .none ∧ s.errCause = .none :=
  iff_of_eq (if_neg hp)

theorem errorsMatchPhase_of_error (hp : s.phase = .error) : s.errorsMatchPhase ↔ (s.errKind, s.errCause) ∈ legalPairs :=
  iff_of_eq (if_pos hp)

/-- A step that succeeds leaves the error registers alone. -/
theorem errorsMatchPhase_of_eq (h : s.errorsMatchPhase) (hs : s.phase ≠ .error) (ht : t.phase ≠ .error)
    (hk : t.errKind = s.errKind) (hc : t.errCause = s.errCause) : t.errorsMatchPhase := by
  rw [errorsMatchPhase_of_ne hs] at h
  rw [errorsMatchPhase_of_ne ht, hk, hc]
  exact h

theorem Move.errorsMatchPhase (hm : Move s t) (h : s.errorsMatchPhase) : t.errorsMatchPhase := by
  cases hm
  case result | dropped => exact h
  case started | loaded => exact (errorsMatchPhase_of_ne (by simp)).mpr ⟨rfl, rfl⟩
  case raised k c p hk _ _ => exact (errorsMatchPhase_of_error rfl).mpr hk
  case contents g hp _ => exact errorsMatchPhase_of_eq h (by simp [hp]) (phaseOf_ne_error _) rfl rfl
  case ether hp _ | ipv4 hp _ | icmp hp _ | tcp hp _ | udp hp _ => exact errorsMatchPhase_of_eq h (by simp [hp]) nofun rfl rfl

/-! ### The tags and the ranges (R26, R168) -/

theorem tagsMatchValues_clearResults (s : State) : s.clearResults.tagsMatchValues := ⟨nofun, nofun, nofun, nofun, nofun⟩

theorem decodeEther_tag {g : EthRegs} (h : decodeEther f p = .ok g q) : g.typeTag = etherTagOf g.typeVal := by
  obtain ⟨a, -, -, rfl, -⟩ := decodeEther_eq_ok h
  exact ethAt_tag a

theorem decodeIpv4_tag {g : Ipv4Regs} (h : decodeIpv4 f p = .ok g q) :
    g.protoTag = protoTagOf g.protoVal ∧ 20 ≤ g.hlen.toNat ∧ g.hlen.toNat ≤ 60 ∧ g.hlen.toNat % 4 = 0 ∧
      g.tos.raw.toNat = g.tos.prec.toNat * 32 + g.tos.d.toNat * 16 + g.tos.t.toNat * 8 + g.tos.r.toNat * 4 +
        g.tos.raw.toNat % 4 := by
  obtain ⟨a, -, -, hlo, -, rfl, -⟩ := decodeIpv4_eq_ok h
  obtain ⟨h20, h60, h4⟩ := headerBytes_range ((nibble_toNat (f.lo_lt a)).symm ▸ hlo)
  exact ⟨ipv4At_tag a, h20, h60, h4, tosOf_slices (f.byte (a + 1))⟩

theorem decodeTcp_doff {g : TcpRegs} (h : decodeTcp f p = .ok g q) :
    20 ≤ g.doff.toNat ∧ g.doff.toNat ≤ 60 ∧ g.doff.toNat % 4 = 0 := by
  obtain ⟨a, -, hhi, -, rfl, -⟩ := decodeTcp_eq_ok h
  exact headerBytes_range ((nibble_toNat (f.hi_lt (a + 12))).symm ▸ hhi)

theorem decodeUdp_len {x : UdpRegs × Run} (h : decodeUdp f p = .ok x q) :
    8 ≤ x.1.len.toNat ∧ x.2.len = x.1.len.toNat - 8 := by
  obtain ⟨a, -, hl, -, hg, hw, -⟩ := decodeUdp_eq_ok h
  have hlen : x.1.len.toNat = be (f.bytes (a + 4) 2) := by rw [hg]; exact half_toNat f (a + 4)
  exact ⟨hlen ▸ hl, by rw [hw, hlen]⟩

theorem Move.tagsMatchValues (hm : Move s t) (hg : s.groupsMatchPhase) (h : s.tagsMatchValues) : t.tagsMatchValues := by
  have hudp : s.phase ≠ .done → ∀ g, s.udp ≠ some g := fun hp g => by
    obtain ⟨-, -, hn, -⟩ := hg.noTransport hp
    simp [hn]
  obtain ⟨heth, hip, hct, htcp, hlen⟩ := id h
  cases hm
  case result | dropped => exact h
  case started | loaded | raised => exact tagsMatchValues_clearResults s
  case ether g p _ hr => exact ⟨fun _ hg => Option.some.inj hg ▸ decodeEther_tag hr, hip, hct, htcp, hlen⟩
  case ipv4 g p hp hr =>
    refine ⟨heth, fun _ hg => Option.some.inj hg ▸ decodeIpv4_tag hr, fun c hc => ?_, htcp, hlen⟩
    exact absurd ((hg.of_ip hp).2.symm.trans hc) nofun
  case contents g _ hi => exact ⟨heth, hip, fun _ hc => ⟨g, hi, (Option.some.inj hc).symm⟩, htcp, hlen⟩
  case icmp x p hp _ => exact ⟨heth, hip, hct, htcp, fun g _ hu => absurd hu (hudp (by simp [hp]) g)⟩
  case tcp x p hp hr =>
    obtain ⟨p', hr, -⟩ := withRest_eq_ok hr
    exact ⟨heth, hip, hct, fun _ hg => Option.some.inj hg ▸ decodeTcp_doff hr, fun g _ hu => absurd hu (hudp (by simp [hp]) g)⟩
  case udp x p _ hr =>
    exact ⟨heth, hip, hct, htcp, fun _ _ hg hw => Option.some.inj hg ▸ Option.some.inj hw ▸ decodeUdp_len hr⟩

/-! ### The payload window (R32) -/

theorem withRest_window {x : Res α} {v : α × Run} (h : withRest f x = .ok v q) : v.2.off + v.2.len ≤ f.len := by
  obtain ⟨p, -, -, hp, hv, -⟩ := withRest_eq_ok h
  rw [hv]
  dsimp only
  omega

theorem decodeUdp_window {x : UdpRegs × Run} (h : decodeUdp f p = .ok x q) : x.2.off + x.2.len ≤ f.len := by
  obtain ⟨a, -, h8, hl, -, hw, -⟩ := decodeUdp_eq_ok h
  rw [hw]
  dsimp only
  omega

theorem Move.payload_inFrame (hm : Move s t) (h : ∀ w, s.pay = some w → w.off + w.len ≤ s.frameLen) :
    ∀ w, t.pay = some w → w.off + w.len ≤ t.frameLen := by
  cases hm
  case started | loaded | raised => exact nofun
  case icmp hr | tcp hr => exact fun _ hw => Option.some.inj hw ▸ withRest_window hr
  case udp hr => exact fun _ hw => Option.some.inj hw ▸ decodeUdp_window hr
  all_goals exact h

/-! ### The invariant as a whole -/

/-- Every move of WBP keeps the invariant (R39). -/
theorem Move.inv (hm : Move s t) (h : s.Inv) : t.Inv where
  fbWf := hm.fb_wf h.fbWf
  fbInRange := hm.fb_inRange h.fbInRange
  lenInRange := hm.frameLen_inRange h.lenInRange
  curInRange := hm.cur_inRange h.curInRange
  aligned := hm.cursorAligned h.aligned
  idleCursor := hm.idle_cur h.idleCursor
  groups := hm.groupsMatchPhase h.groups
  errors := hm.errorsMatchPhase h.errors
  tags := hm.tagsMatchValues h.groups h.tags
  payload := hm.payload_inFrame h.payload
  noCall := by obtain ⟨-, -, hc⟩ := hm.model_fields; exact hc.trans h.noCall

/-- The pending requests are no part of WBP (log entry 4). -/
theorem State.Inv.setReq (h : s.Inv) (bs : List Byte) : (s.setReq bs).Inv :=
  ⟨h.fbWf, h.fbInRange, h.lenInRange, h.curInRange, h.aligned, h.idleCursor, h.groups, h.errors, h.tags, h.payload, h.noCall⟩

theorem reset_inv : State.reset.Inv where
  fbWf := reset_fb_wf
  fbInRange := nofun
  lenInRange := Nat.zero_le _
  curInRange := Nat.le_refl _
  aligned := fun _ => rfl
  idleCursor := fun _ => rfl
  groups := ⟨rfl, rfl, rfl, rfl, rfl, rfl, rfl⟩
  errors := (errorsMatchPhase_of_ne (by decide)).mpr ⟨rfl, rfl⟩
  tags := tagsMatchValues_clearResults State.reset
  payload := nofun
  noCall := rfl

/-- The reset event gives the state after reset, but for the bytes of FB and the pending requests (R260). -/
theorem State.Inv.takeReset (h : s.Inv) : s.takeReset.Inv :=
  { reset_inv with fbWf := h.fbWf, fbInRange := h.fbInRange }

/-! ### The result file of a DONE state (R33) -/

/-- The window's bytes, one by one. -/
theorem payload_eq_bytesAt {w : Run} (hw : s.pay = some w) : s.payload = some (Claims.bytesAt s w.off w.len) := by
  rw [State.payload, hw]
  exact congrArg some (s.frame.bytes_eq_map w.off w.len)

theorem contents_icmp {g : IcmpRegs} {w : Run} (hc : s.ctTag = some .icmp) (hg : s.icmp = some g) (hw : s.pay = some w) :
    s.contents = some (.icmp g (Claims.bytesAt s w.off w.len)) := by
  simp [State.contents, hc, hg, payload_eq_bytesAt hw]

theorem contents_tcp {g : TcpRegs} {w : Run} (hc : s.ctTag = some .tcp) (hg : s.tcp = some g) (hw : s.pay = some w) :
    s.contents = some (.tcp g (Claims.bytesAt s w.off w.len)) := by
  simp [State.contents, hc, hg, payload_eq_bytesAt hw]

theorem contents_udp {g : UdpRegs} {w : Run} (hc : s.ctTag = some .udp) (hg : s.udp = some g) (hw : s.pay = some w) :
    s.contents = some (.udp g (Claims.bytesAt s w.off w.len)) := by
  simp [State.contents, hc, hg, payload_eq_bytesAt hw]

theorem contents_other (hc : s.ctTag = some .other) : s.contents = some .other := by
  simp [State.contents, hc]

/-- In DONE the groups that R39 c says hold a value are those that R33 reads. -/
theorem State.groupsMatchPhase.of_done (h : s.groupsMatchPhase) (hp : s.phase = .done) :
    s.eth.isSome ∧ s.ip.isSome ∧ s.ctTag.isSome ∧ (s.icmp.isSome ↔ s.ctTag = some .icmp) ∧
      (s.tcp.isSome ↔ s.ctTag = some .tcp) ∧ (s.udp.isSome ↔ s.ctTag = some .udp) ∧ (s.pay.isSome ↔ s.ctTag ≠ some .other) := by
  rw [State.groupsMatchPhase, hp] at h
  exact h

/-- The contents variant of R33: the one that CT_TAG names, built from its group and the payload bytes. -/
def State.ContentsAre (s : State) (c : PacketContents) : Prop :=
  (∀ g w, s.icmp = some g → s.pay = some w → c = .icmp g (Claims.bytesAt s w.off w.len)) ∧
  (∀ g w, s.tcp = some g → s.pay = some w → c = .tcp g (Claims.bytesAt s w.off w.len)) ∧
  (∀ g w, s.udp = some g → s.pay = some w → c = .udp g (Claims.bytesAt s w.off w.len)) ∧
  (s.ctTag = some .other → c = .other)

theorem contents_isSome_of_done (hg : s.groupsMatchPhase) (hp : s.phase = .done) : ∃ c, s.contents = some c := by
  obtain ⟨-, -, hct, hicmp, htcp, hudp, hpay⟩ := hg.of_done hp
  obtain ⟨c, hc⟩ := Option.isSome_iff_exists.mp hct
  have window : c ≠ .other → ∃ w, s.pay = some w := fun hne =>
    Option.isSome_iff_exists.mp (hpay.mpr fun he => hne (Option.some.inj (hc.symm.trans he)))
  cases c with
  | icmp =>
    obtain ⟨g, hg⟩ := Option.isSome_iff_exists.mp (hicmp.mpr hc)
    obtain ⟨w, hw⟩ := window (by decide)
    exact ⟨_, contents_icmp hc hg hw⟩
  | tcp =>
    obtain ⟨g, hg⟩ := Option.isSome_iff_exists.mp (htcp.mpr hc)
    obtain ⟨w, hw⟩ := window (by decide)
    exact ⟨_, contents_tcp hc hg hw⟩
  | udp =>
    obtain ⟨g, hg⟩ := Option.isSome_iff_exists.mp (hudp.mpr hc)
    obtain ⟨w, hw⟩ := window (by decide)
    exact ⟨_, contents_udp hc hg hw⟩
  | other => exact ⟨_, contents_other hc⟩

theorem contentsAre_of_done (hg : s.groupsMatchPhase) (hp : s.phase = .done) {c : PacketContents} (hc : s.contents = some c) :
    s.ContentsAre c := by
  obtain ⟨-, -, -, hicmp, htcp, hudp, -⟩ := hg.of_done hp
  have eq_of {d} (hd : s.contents = some d) : c = d := Option.some.inj (hc.symm.trans hd)
  exact ⟨fun g w hg hw => eq_of (contents_icmp (hicmp.mp (by simp [hg])) hg hw),
    fun g w hg hw => eq_of (contents_tcp (htcp.mp (by simp [hg])) hg hw),
    fun g w hg hw => eq_of (contents_udp (hudp.mp (by simp [hg])) hg hw),
    fun ho => eq_of (contents_other ho)⟩

/-- The variant of the type/length value; the two tests of R153 exclude each other. -/
theorem etherType_eq {g : EthRegs} (h : g.typeTag = etherTagOf g.typeVal) :
    g.etherType = if g.typeVal = 0x0800 then .ip else if g.typeVal.toNat ≤ 1500 then .length g.typeVal else .other g.typeVal := by
  rw [EthRegs.etherType, h, etherTagOf]
  split_ifs with hl hip hip
  · rw [hip] at hl
    exact absurd hl (by decide)
  all_goals rfl

theorem protocol_eq {g : Ipv4Regs} (h : g.protoTag = protoTagOf g.protoVal) :
    g.protocol = if g.protoVal = 0x01 then .icmp else if g.protoVal = 0x06 then .tcp else if g.protoVal = 0x11 then .udp
      else .other g.protoVal := by
  rw [Ipv4Regs.protocol, h, protoTagOf]
  split_ifs <;> rfl

theorem packet_eq {e : EthRegs} {h : Ipv4Regs} {c : PacketContents} (he : s.eth = some e) (hi : s.ip = some h)
    (hc : s.contents = some c) :
    s.packet = some { destination := e.dst, source := e.src, etherType := e.etherType, ipHeader := h, protocol := h.protocol,
                      contents := c } := by
  simp [State.packet, he, hi, hc]

end Sys2Proof.Machine

namespace Sys2Proof.Claims

open Sys2Proof.Machine

/-- Settles O47: the reset event gives a state that meets the invariant, and every other step is made of moves, which keep it. -/
theorem stepKeepsTheInvariant : Obligations.StepKeepsTheInvariant := by
  intro s t h hs
  obtain ⟨-, rfl⟩ | ⟨-, i, rest, -, hm, hx⟩ | ⟨-, -, hx⟩ := step_cases h.noCall hs
  · exact h.takeReset
  · exact exec_move_keeps (fun _ _ hu hmove => hmove.inv hu) hm (h.setReq rest) hx
  · exact (parserStep_move hx).inv h

/-- Settles O48: every move keeps the cursor aligned outside ERROR. -/
theorem transactionMovesKeepTheCursorAligned : Obligations.TransactionMovesKeepTheCursorAligned :=
  fun _ _ _ hm hs hx => exec_move_keeps (fun _ _ hu hmove => hmove.cursorAligned hu) hm hs hx

/-- Settles O51: an operation that changes the frame has run an admitted LOAD_FRAME. -/
theorem onlyLoadFrameWritesTheFrameBuffer : Obligations.OnlyLoadFrameWritesTheFrameBuffer := by
  intro i s t hx hne
  have hframe : t.frame ≠ s.frame := fun hf => hne.elim (· (congrArg Frame.fb hf)) (· (congrArg Frame.len hf))
  obtain ⟨hq, bs, hi, hl, ht⟩ := exec_frame_ne hx hframe
  have hbusy : s.busy = false := by simpa [hq] using quiescent_eq_not_busy s
  exact ⟨hbusy, bs, hi, hl, congrArg Frame.fb ht, congrArg Frame.len ht⟩

/-- Settles O57: in DONE the groups that a Packet is read from hold values, and the tags name its variants. -/
theorem doneStateReadsAsAPacket : Obligations.DoneStateReadsAsAPacket := by
  intro s h hp
  obtain ⟨heth, hip, -⟩ := h.groups.of_done hp
  obtain ⟨htag, hproto, -⟩ := h.tags
  obtain ⟨e, he⟩ := Option.isSome_iff_exists.mp heth
  obtain ⟨g, hg⟩ := Option.isSome_iff_exists.mp hip
  obtain ⟨c, hc⟩ := contents_isSome_of_done h.groups hp
  exact ⟨e, g, _, he, hg, packet_eq he hg hc, rfl, rfl, rfl, etherType_eq (htag e he), protocol_eq (hproto g hg).1,
    contentsAre_of_done h.groups hp hc⟩

/-- Settles O1. -/
theorem resetStateHoldsTheStatedValues : Obligations.ResetStateHoldsTheStatedValues :=
  ⟨rfl, rfl, rfl, rfl, rfl, fun _ hr => peek_clearResults (s := State.reset) hr⟩

/-- Settles O2: every clause of the invariant at reset. -/
theorem resetStateMeetsTheInvariant : Obligations.ResetStateMeetsTheInvariant := reset_inv

/-- Settles O46: by the nine phases. -/
theorem statusFlagsAreExclusive : Obligations.StatusFlagsAreExclusive :=
  fun s => ⟨statusFlags_count s, quiescent_eq_not_busy s⟩

end Sys2Proof.Claims
end

section
/-! No operation looks at a byte at or above FRAME_LEN (20_memory R70; R21). Two states that differ only in such bytes have frames that agree
(`frame_agrees`), so every primitive and decoder answers the same on both (`Frame.Agrees`, Sys2Proof/Laws/Cursor.lean). `AnswersAlike`
carries that to the outcomes: one lemma for each shared way an operation ends, and `exec_alike` for all operations; it settles O22. -/

namespace Sys2Proof.Machine

variable {α : Type} {s : State} {m : Memory}

/-! ### Outcomes that differ in the frame buffer alone -/

/-- Two outcomes that answer alike: the same refusal, or next states that are equal but for the second one's frame buffer, which is `m`;
and the first is no fault. -/
def AnswersAlike (m : Memory) (x y : Outcome) : Prop :=
  (∀ t, x = .next t → y = .next { t with fb := m }) ∧ (∀ r, x = .refused r → y = .refused r) ∧ ∀ e, x ≠ .fault e

theorem AnswersAlike.next (t : State) : AnswersAlike m (.next t) (.next { t with fb := m }) :=
  ⟨fun _ ht => Host.Outcome.next.inj ht ▸ rfl, fun _ hr => (nomatch hr), fun _ he => (nomatch he)⟩

theorem AnswersAlike.refused (r : Refusal) : AnswersAlike m (.refused r) (.refused r) :=
  ⟨fun _ ht => (nomatch ht), fun _ hr => hr, fun _ he => (nomatch he)⟩

theorem AnswersAlike.ite {c : Prop} [Decidable c] {x x' y y' : Outcome} (hx : AnswersAlike m x x') (hy : AnswersAlike m y y') :
    AnswersAlike m (if c then x else y) (if c then x' else y') := by
  split
  · exact hx
  · exact hy

/-! ### Operations that read no byte of the frame -/

theorem answer_alike (o : Out) : AnswersAlike m (answer o s) (answer o { s with fb := m }) := .next _

theorem selectorRow_alike (b : Bool) (o : Out) : AnswersAlike m (selectorRow b o s) (selectorRow b o { s with fb := m }) :=
  .ite (answer_alike o) (.refused _)

theorem execStart_alike : AnswersAlike m (execStart s) (execStart { s with fb := m }) := .ite (.next _) (.next _)

theorem execStepDispatch_alike : AnswersAlike m (execStepDispatch s) (execStepDispatch { s with fb := m }) := by
  unfold execStepDispatch
  dsimp only
  refine .ite ?_ (.refused _)
  split
  · exact .refused _
  · exact .next _

/-! ### Operations that read the frame -/

/-- A cursor operation answers alike when it reads the same and hands over the same value. -/
theorem cursorOp_alike {toOut toOut' : α → Out} {r r' : Res α} (hr : r = r') (ho : ∀ v p, r = .ok v p → toOut v = toOut' v) :
    AnswersAlike m (cursorOp toOut r s) (cursorOp toOut' r' { s with fb := m }) := by
  subst hr
  cases r with
  | ok v p =>
    rw [cursorOp_ok, cursorOp_ok, ho v p rfl]
    exact .next _
  | fail c p => exact .next _
  | stop e => exact .refused e

/-- A phase step answers alike when it decodes the same and writes a group without touching the frame buffer. -/
theorem layerStep_alike {ph : Phase} {k : ErrKind} {r r' : Res α} {put : α → State → State} (hr : r = r')
    (hput : ∀ v u, put v { u with fb := m } = { put v u with fb := m }) :
    AnswersAlike m (layerStep ph k r put s) (layerStep ph k r' put { s with fb := m }) := by
  subst hr
  refine .ite ?_ (.refused _)
  cases r with
  | ok v p =>
    have hp : put v ({ s with fb := m }.setCur p) = { put v (s.setCur p) with fb := m } := hput v (s.setCur p)
    simp only [hp]
    exact .next _
  | fail c p => exact .next _
  | stop e => exact .refused e

theorem payInFrame_of_window (hw : ∀ w, s.pay = some w → w.off + w.len ≤ s.frameLen) : s.payInFrame = true := by
  unfold State.payInFrame
  split
  · rfl
  · exact decide_eq_true (hw _ (by assumption))

/-- With the payload window in the frame, `READ` hands over what the register holds or is refused (R222, R24). -/
theorem execRead_of_payInFrame (hin : s.payInFrame = true) (r : Reg) :
    execRead r s = if s.readAdmitted r then (s.peek r).elim (.refused (.holdsNoValue r)) (fun o => answer o s)
      else .refused (.readNotAdmitted r) := by
  unfold execRead
  congr 1
  cases s.peek r with
  | none => rfl
  | some o => exact if_neg fun hf => Bool.false_ne_true (hf.2.symm.trans hin)

section
variable (h : ∀ a, a < s.frameLen → m.read a = s.fb.read a)
include h

theorem frame_agrees : s.frame.Agrees ({ s with fb := m } : State).frame := ⟨rfl, fun a ha => (h a ha).symm⟩

/-- A byte run inside the frame is handed over with the same bytes. -/
theorem runOut_agrees {w : Run} (hw : w.off + w.len ≤ s.frameLen) :
    runOut s.frame w = runOut ({ s with fb := m } : State).frame w :=
  congrArg (Out.run w) ((frame_agrees h).bytes hw)

variable (hw : ∀ w, s.pay = some w → w.off + w.len ≤ s.frameLen)
include hw

/-- Of all registers only PAYLOAD is read from the frame buffer, and its window lies inside the frame (R32). -/
theorem peek_agrees (r : Reg) : ({ s with fb := m } : State).peek r = s.peek r := by
  cases r
  case payload =>
    cases hp : s.pay with
    | none => simp only [State.peek, hp, Option.map_none]
    | some w => simp only [State.peek, hp, Option.map_some, (frame_agrees h).bytes (hw w hp)]
  all_goals rfl

theorem execRead_alike (r : Reg) : AnswersAlike m (execRead r s) (execRead r { s with fb := m }) := by
  have hin : s.payInFrame = true := payInFrame_of_window hw
  rw [execRead_of_payInFrame hin, execRead_of_payInFrame (s := { s with fb := m }) hin, peek_agrees h hw]
  refine .ite ?_ (.refused _)
  cases s.peek r with
  | none => exact .refused _
  | some o => exact answer_alike o

/-- Every operation other than `DECODE_PACKET` and `LOAD_FRAME` answers alike on frame buffers with the same valid bytes (R70). -/
theorem exec_alike {i : Instr} (hdec : ∀ bs, i ≠ .decodePacket bs) (hload : ∀ bs, i ≠ .loadFrame bs) :
    AnswersAlike m (exec i s) (exec i { s with fb := m }) := by
  have ha := frame_agrees h
  cases i
  case decodePacket bs => exact absurd rfl (hdec bs)
  case loadFrame bs => exact absurd rfl (hload bs)
  case start => exact execStart_alike
  case read r => exact execRead_alike h hw r
  case stepEth => exact layerStep_alike ha.decodeEther fun _ _ => rfl
  case stepIp => exact layerStep_alike ha.decodeIpv4 fun _ _ => rfl
  case stepDispatch => exact execStepDispatch_alike
  case stepIcmp => exact layerStep_alike ((ha.withRest _).trans (congrArg _ ha.decodeIcmp)) fun _ _ => rfl
  case stepTcp => exact layerStep_alike ((ha.withRest _).trans (congrArg _ ha.decodeTcp)) fun _ _ => rfl
  case stepUdp => exact layerStep_alike ha.decodeUdp fun _ _ => rfl
  case rdU8 => exact cursorOp_alike ha.rdU8 fun _ _ _ => rfl
  case rdU16 => exact cursorOp_alike ha.rdU16 fun _ _ _ => rfl
  case rdU32 => exact cursorOp_alike ha.rdU32 fun _ _ _ => rfl
  case rdBits n => exact cursorOp_alike ha.rdBits fun _ _ _ => rfl
  case rdBit => exact cursorOp_alike ha.rdBit fun _ _ _ => rfl
  case take n => exact cursorOp_alike ha.take fun _ _ hr => runOut_agrees h (take_eq_ok hr).2
  case skip n => exact cursorOp_alike ha.skip fun _ _ _ => rfl
  case takeRest => exact cursorOp_alike ha.takeRest fun _ _ hr => runOut_agrees h (takeRest_eq_ok hr)
  case decodeMac => exact cursorOp_alike ha.decodeMac fun _ _ _ => rfl
  case decodeEther => exact cursorOp_alike ha.decodeEther fun _ _ _ => rfl
  case decodeTos => exact cursorOp_alike ha.decodeTos fun _ _ _ => rfl
  case decodeIpv4 => exact cursorOp_alike ha.decodeIpv4 fun _ _ _ => rfl
  case decodeIcmp => exact cursorOp_alike ha.decodeIcmp fun _ _ _ => rfl
  case decodeTcp => exact cursorOp_alike ha.decodeTcp fun _ _ _ => rfl
  case decodeUdp => exact cursorOp_alike ha.decodeUdp fun _ _ _ => rfl
  case classifyEtype _ | classifyProto _ | layoutEth _ | layoutTos _ | layoutIcmp _ => exact answer_alike _
  case etypeIp | etypeLength7 | ipver4 | ihlSmall4 | protoIcmp | protoTcp | protoUdp | tcpdoSmall4 => exact answer_alike _
  case layoutIpv4 _ | layoutTcp _ | layoutUdp _ => exact .ite (answer_alike _) (answer_alike _)
  all_goals exact selectorRow_alike _ _

end

end Sys2Proof.Machine

namespace Sys2Proof.Claims

open Sys2Proof.Machine

/-- Settles O22: its three clauses are `AnswersAlike`. -/
theorem bytesBeyondTheFrameAreNeverRead : Obligations.BytesBeyondTheFrameAreNeverRead :=
  fun _ _ _ hm hw hdec hload => exec_alike hm hw hdec hload

end Sys2Proof.Claims
end

section
/-! The decoder and the encoder are inverse to each other (30_encoding R90 to R106; the tag byte is log entry 1). `decode` and `encode` both
start with the tag byte, so each direction is a statement about `decodeOperands`: `decodeOperands_operands` runs over the operations and
settles O8, `encodes_of_decodeOperands` runs over the tags and settles O9. Behind each stands one `↔` per shape of operand and, for every
selector, that its rows partition the field's values. -/

-- The model's tests before this section keep many threads waiting for the kernel, and each holds a large stack under the check's memory
-- limit. Elaborated in order, the lemmas here start only when those tests are done, and ask for no further thread beside them.
set_option Elab.async false

namespace Sys2Proof

variable {i : Instr} {bs rest : List Byte}

/-! ### The tag byte -/

theorem decode_tagByte (t : OpTag) (bs : List Byte) : decode (t.byte :: bs) = decodeOperands t bs := by
  cases t <;> rfl

theorem OpTag.number_of_lookup {k : Nat} {t : OpTag} (h : OpTag.all[k]? = some t) : t.number = k := by
  obtain ⟨hk, rfl⟩ := List.getElem?_eq_some_iff.mp h
  exact List.Nodup.idxOf_getElem (by decide) k hk

/-- What decodes begins with the tag byte of some tag, whose operand bytes decode. -/
theorem decode_eq_ok (h : decode bs = .ok i rest) :
    ∃ (t : OpTag) (ops : List Byte), bs = t.byte :: ops ∧ decodeOperands t ops = .ok i rest := by
  cases bs with
  | nil => cases h
  | cons b ops =>
    simp only [decode] at h
    split at h
    · cases h
    · rename_i t ht
      refine ⟨t, ops, ?_, h⟩
      rw [OpTag.byte, OpTag.number_of_lookup ht, BitVec.ofNat_toNat, BitVec.setWidth_eq]

/-! ### The shapes of operands -/

theorem two_pow_eq {n k : Nat} (hn : n = 8 * k) : 2 ^ n = 256 ^ k := by rw [hn, Nat.pow_mul]

/-- An operand that fills its bytes. -/
theorem withOperand_word {n k : Nat} (v : BitVec n) (rest : List Byte) (f : Nat → List Byte → Decoded)
    (hn : n = 8 * k := by rfl) : withOperand k (toBe k v.toNat ++ rest) f = f v.toNat rest :=
  withOperand_toBe (two_pow_eq hn ▸ v.isLt) rest f

theorem withOperand_word_eq_ok {n k : Nat} (hn : n = 8 * k) {f : Nat → List Byte → Decoded}
    (h : withOperand k bs f = .ok i rest) : ∃ (v : BitVec n) (r : List Byte), bs = toBe k v.toNat ++ r ∧ f v.toNat r = .ok i rest := by
  obtain ⟨x, r, hx, rfl, hf⟩ := withOperand_eq_ok h
  have hv : (BitVec.ofNat n x).toNat = x := by rw [BitVec.toNat_ofNat, Nat.mod_eq_of_lt (two_pow_eq hn ▸ hx)]
  exact ⟨BitVec.ofNat n x, r, by rw [hv], by rw [hv, hf]⟩

/-- The whole operand is one bit vector that the operation is made from. -/
theorem word_eq_ok_iff {n k : Nat} (f : BitVec n → Instr) (hn : n = 8 * k := by rfl) :
    withOperand k bs (fun x r => .ok (f (BitVec.ofNat n x)) r) = .ok i rest ↔
      ∃ v : BitVec n, bs = toBe k v.toNat ++ rest ∧ f v = i := by
  constructor
  · intro h
    obtain ⟨v, r, rfl, hf⟩ := withOperand_word_eq_ok hn h
    rw [BitVec.ofNat_toNat, BitVec.setWidth_eq] at hf
    cases hf
    exact ⟨v, rfl, rfl⟩
  · rintro ⟨v, rfl, rfl⟩
    rw [withOperand_word (hn := hn), BitVec.ofNat_toNat, BitVec.setWidth_eq]

/-- A one-byte operand that holds a 4-bit field. -/
theorem withNibble_eq_ok_iff (f : BitVec 4 → Instr) :
    withNibble bs f = .ok i rest ↔ ∃ v : BitVec 4, bs = toBe 1 v.toNat ++ rest ∧ f v = i := by
  unfold withNibble
  constructor
  · intro h
    obtain ⟨x, r, -, rfl, hf⟩ := withOperand_eq_ok h
    split at hf
    · rename_i hx
      cases hf
      exact ⟨BitVec.ofNat 4 x, by rw [BitVec.toNat_ofNat, Nat.mod_eq_of_lt hx], rfl⟩
    · cases hf
  · rintro ⟨v, rfl, rfl⟩
    have hv : v.toNat < 16 := v.isLt
    rw [withOperand_toBe (by omega), if_pos hv, BitVec.ofNat_toNat, BitVec.setWidth_eq]

/-! ### Rows of a selector: each value is encoded by its own row, and a well-formed row is the selected one (R106) -/

/-- The operation is well formed and is written with this tag and these operand bytes. -/
def Instr.Encodes (i : Instr) (t : OpTag) (ops : List Byte) : Prop := i.wf = true ∧ i.tag = t ∧ i.operands = ops

theorem selectEtype_encodes (v : BitVec 16) : (selectEtype v).Encodes .selEtype (toBe 2 v.toNat) := by
  unfold selectEtype
  rcases etype_cases v with ⟨hv, hr⟩ | ⟨-, hr⟩ | ⟨-, -, hr⟩ | ⟨-, -, hr⟩ | ⟨-, -, hr⟩ | ⟨-, -, hr⟩ | ⟨-, -, hr⟩ |
    ⟨-, -, hr⟩ | ⟨hv, hr⟩ | ⟨-, -, hr⟩
  · rw [hr, hv]; exact ⟨rfl, rfl, rfl⟩
  iterate 7 · rw [hr]; exact ⟨beq_iff_eq.mpr hr, rfl, rfl⟩
  · rw [hr, hv]; exact ⟨rfl, rfl, rfl⟩
  · rw [hr]; exact ⟨beq_iff_eq.mpr hr, rfl, rfl⟩

theorem etypeRow_selected (hw : i.wf = true) (ht : i.tag = .selEtype) :
    ∃ v : BitVec 16, i.operands = toBe 2 v.toNat ∧ selectEtype v = i := by
  cases i
  case etypeIp => exact ⟨0x0800, rfl, by decide⟩
  case etypeLength7 => exact ⟨0x05DC, rfl, by decide⟩
  case etypeLength0 v | etypeLength1 v | etypeLength2 v | etypeLength3 v | etypeLength4 v | etypeLength5 v | etypeLength6 v |
      etypeOther v =>
    exact ⟨v, rfl, by rw [selectEtype, eq_of_beq hw]; rfl⟩
  all_goals cases ht

theorem selectIpver_encodes (v : BitVec 4) : (selectIpver v).Encodes .selIpver (toBe 1 v.toNat) := by
  unfold selectIpver
  have hr := ipver_firstHit v
  split_ifs at hr with hv
  · rw [hr, hv]; exact ⟨rfl, rfl, rfl⟩
  · rw [hr]; exact ⟨beq_iff_eq.mpr hr, rfl, rfl⟩

theorem ipverRow_selected (hw : i.wf = true) (ht : i.tag = .selIpver) :
    ∃ v : BitVec 4, i.operands = toBe 1 v.toNat ∧ selectIpver v = i := by
  cases i
  case ipver4 => exact ⟨4, rfl, by decide⟩
  case ipverBad v => exact ⟨v, rfl, by rw [selectIpver, eq_of_beq hw]; rfl⟩
  all_goals cases ht

theorem selectIhl_encodes (v : BitVec 4) : (selectIhl v).Encodes .selIhl (toBe 1 v.toNat) := by
  unfold selectIhl
  have hr := minWords_firstHit v
  split_ifs at hr with h3 h4
  · rw [hr]; exact ⟨beq_iff_eq.mpr hr, rfl, rfl⟩
  · rw [hr, h4]; exact ⟨rfl, rfl, rfl⟩
  · rw [hr]; exact ⟨beq_iff_eq.mpr hr, rfl, rfl⟩

theorem ihlRow_selected (hw : i.wf = true) (ht : i.tag = .selIhl) :
    ∃ v : BitVec 4, i.operands = toBe 1 v.toNat ∧ selectIhl v = i := by
  cases i
  case ihlSmall4 => exact ⟨4, rfl, by decide⟩
  case ihlSmall03 v | ihlOk v => exact ⟨v, rfl, by rw [selectIhl, eq_of_beq hw]; rfl⟩
  all_goals cases ht

theorem selectTcpdo_encodes (v : BitVec 4) : (selectTcpdo v).Encodes .selTcpdo (toBe 1 v.toNat) := by
  unfold selectTcpdo
  have hr := minWords_firstHit v
  split_ifs at hr with h3 h4
  · rw [hr]; exact ⟨beq_iff_eq.mpr hr, rfl, rfl⟩
  · rw [hr, h4]; exact ⟨rfl, rfl, rfl⟩
  · rw [hr]; exact ⟨beq_iff_eq.mpr hr, rfl, rfl⟩

theorem tcpdoRow_selected (hw : i.wf = true) (ht : i.tag = .selTcpdo) :
    ∃ v : BitVec 4, i.operands = toBe 1 v.toNat ∧ selectTcpdo v = i := by
  cases i
  case tcpdoSmall4 => exact ⟨4, rfl, by decide⟩
  case tcpdoSmall03 v | tcpdoOk v => exact ⟨v, rfl, by rw [selectTcpdo, eq_of_beq hw]; rfl⟩
  all_goals cases ht

theorem selectProto_encodes (n : Byte) : (selectProto n).Encodes .selProto (toBe 1 n.toNat) := by
  unfold selectProto
  have hr := proto_firstHit n
  split_ifs at hr with h1 h2 h3
  · rw [hr, h1]; exact ⟨rfl, rfl, rfl⟩
  · rw [hr, h2]; exact ⟨rfl, rfl, rfl⟩
  · rw [hr, h3]; exact ⟨rfl, rfl, rfl⟩
  · rw [hr]; exact ⟨beq_iff_eq.mpr hr, rfl, rfl⟩

theorem protoRow_selected (hw : i.wf = true) (ht : i.tag = .selProto) :
    ∃ n : Byte, i.operands = toBe 1 n.toNat ∧ selectProto n = i := by
  cases i
  case protoIcmp => exact ⟨0x01, rfl, by decide⟩
  case protoTcp => exact ⟨0x06, rfl, by decide⟩
  case protoUdp => exact ⟨0x11, rfl, by decide⟩
  case protoOther n => exact ⟨n, rfl, by rw [selectProto, eq_of_beq hw]; rfl⟩
  all_goals cases ht

theorem selectUdplen_encodes (v : BitVec 16) : (selectUdplen v).Encodes .selUdplen (toBe 2 v.toNat) := by
  unfold selectUdplen
  have hr := udplen_firstHit v
  split_ifs at hr
  · rw [hr]; exact ⟨beq_iff_eq.mpr hr, rfl, rfl⟩
  · rw [hr]; exact ⟨beq_iff_eq.mpr hr, rfl, rfl⟩

theorem udplenRow_selected (hw : i.wf = true) (ht : i.tag = .selUdplen) :
    ∃ v : BitVec 16, i.operands = toBe 2 v.toNat ∧ selectUdplen v = i := by
  cases i
  case udplenSmall v | udplenOk v => exact ⟨v, rfl, by rw [selectUdplen, eq_of_beq hw]; rfl⟩
  all_goals cases ht

/-! ### PHASE codes (R105) and register numbers -/

/-- A PHASE code that selects a step is the operand of that step. -/
theorem selectStep_encodes {code : BitVec 4} (h : selectStep code = some i) : i.Encodes .phaseStep (toBe 1 code.toNat) := by
  unfold selectStep at h
  split at h
  case h_7 => cases h
  all_goals rename_i hc; rw [hc]; cases h; exact ⟨rfl, rfl, rfl⟩

theorem phaseStep_eq_ok (h : decodeOperands .phaseStep bs = .ok i rest) :
    ∃ code : BitVec 4, bs = toBe 1 code.toNat ++ rest ∧ selectStep code = some i := by
  unfold decodeOperands at h
  obtain ⟨x, r, -, rfl, hf⟩ := withOperand_eq_ok h
  split at hf
  · rename_i hx
    split at hf
    · rename_i j hj
      cases hf
      exact ⟨BitVec.ofNat 4 x, by rw [BitVec.toNat_ofNat, Nat.mod_eq_of_lt hx], hj⟩
    · cases hf
  · cases hf

theorem Reg.number_lt (r : Reg) : r.number < 51 := by cases r <;> decide

theorem Reg.lookup_number (r : Reg) : Reg.all[r.number]? = some r := by cases r <;> rfl

theorem Reg.number_of_lookup {k : Nat} {r : Reg} (h : Reg.all[k]? = some r) : r.number = k := by
  obtain ⟨hk, rfl⟩ := List.getElem?_eq_some_iff.mp h
  exact List.Nodup.idxOf_getElem (by decide) k hk

/-! ### Decoding what was encoded -/

theorem lengthFits_iff {n : Nat} : lengthFits n = true ↔ n < 256 ^ 4 := decide_eq_true_iff

/-- The operand bytes of a well-formed operation decode to it under its tag. -/
theorem decodeOperands_operands (hw : i.wf = true) (rest : List Byte) :
    decodeOperands i.tag (i.operands ++ rest) = .ok i rest := by
  cases i <;> simp only [Instr.tag, decodeOperands]
  case etypeIp | etypeLength0 | etypeLength1 | etypeLength2 | etypeLength3 | etypeLength4 | etypeLength5 | etypeLength6 |
      etypeLength7 | etypeOther =>
    obtain ⟨v, ho, hs⟩ := etypeRow_selected hw rfl
    exact (word_eq_ok_iff selectEtype).mpr ⟨v, by rw [ho], hs⟩
  case ipver4 | ipverBad =>
    obtain ⟨v, ho, hs⟩ := ipverRow_selected hw rfl
    exact (withNibble_eq_ok_iff selectIpver).mpr ⟨v, by rw [ho], hs⟩
  case ihlSmall03 | ihlSmall4 | ihlOk =>
    obtain ⟨v, ho, hs⟩ := ihlRow_selected hw rfl
    exact (withNibble_eq_ok_iff selectIhl).mpr ⟨v, by rw [ho], hs⟩
  case protoIcmp | protoTcp | protoUdp | protoOther =>
    obtain ⟨n, ho, hs⟩ := protoRow_selected hw rfl
    exact (word_eq_ok_iff selectProto).mpr ⟨n, by rw [ho], hs⟩
  case tcpdoSmall03 | tcpdoSmall4 | tcpdoOk =>
    obtain ⟨v, ho, hs⟩ := tcpdoRow_selected hw rfl
    exact (withNibble_eq_ok_iff selectTcpdo).mpr ⟨v, by rw [ho], hs⟩
  case udplenSmall | udplenOk =>
    obtain ⟨v, ho, hs⟩ := udplenRow_selected hw rfl
    exact (word_eq_ok_iff selectUdplen).mpr ⟨v, by rw [ho], hs⟩
  case layoutEth w =>
    exact (word_eq_ok_iff fun v => .layoutEth (EthWord.ofBits v)).mpr ⟨w.toBits, rfl, by rw [w.ofBits_toBits]⟩
  case layoutTos w =>
    exact (word_eq_ok_iff fun v => .layoutTos (TosWord.ofBits v)).mpr ⟨w.toBits, rfl, by rw [w.ofBits_toBits]⟩
  case layoutIcmp w =>
    exact (word_eq_ok_iff fun v => .layoutIcmp (IcmpWord.ofBits v)).mpr ⟨w.toBits, rfl, by rw [w.ofBits_toBits]⟩
  case layoutTcp w =>
    exact (word_eq_ok_iff fun v => .layoutTcp (TcpWord.ofBits v)).mpr ⟨w.toBits, rfl, by rw [w.ofBits_toBits]⟩
  case layoutUdp w =>
    exact (word_eq_ok_iff fun v => .layoutUdp (UdpWord.ofBits v)).mpr ⟨w.toBits, rfl, by rw [w.ofBits_toBits]⟩
  case layoutIpv4 w =>
    refine (withOperand_word w.toBits rest _).trans ?_
    rw [BitVec.ofNat_toNat, BitVec.setWidth_eq, if_pos w.toBits_version, w.ofBits_toBits]
  case classifyEtype v => exact (word_eq_ok_iff .classifyEtype).mpr ⟨v, rfl, rfl⟩
  case classifyProto n => exact (word_eq_ok_iff .classifyProto).mpr ⟨n, rfl, rfl⟩
  case rdBits n =>
    have hn : 1 ≤ n ∧ n ≤ 32 := of_decide_eq_true hw
    exact (withOperand_toBe (by omega) rest _).trans (if_pos hn)
  case take n | skip n => exact withOperand_toBe (lengthFits_iff.mp hw) rest _
  case decodePacket xs | loadFrame xs =>
    rw [Instr.operands, List.append_assoc]
    exact withBytes_toBe (lengthFits_iff.mp hw) rest _
  case read r =>
    have hr := r.number_lt
    refine (withOperand_toBe (by omega) rest _).trans ?_
    rw [r.lookup_number]
  all_goals rfl

/-! ### Encoding what was decoded -/

/-- What decodes under a tag is well formed, and its operand bytes are the bytes that were read. -/
theorem encodes_of_decodeOperands {t : OpTag} (h : decodeOperands t bs = .ok i rest) :
    ∃ ops, i.Encodes t ops ∧ bs = ops ++ rest := by
  cases t <;> simp only [decodeOperands] at h
  case selEtype =>
    obtain ⟨v, rfl, rfl⟩ := (word_eq_ok_iff selectEtype).mp h
    exact ⟨_, selectEtype_encodes v, rfl⟩
  case selIpver =>
    obtain ⟨v, rfl, rfl⟩ := (withNibble_eq_ok_iff selectIpver).mp h
    exact ⟨_, selectIpver_encodes v, rfl⟩
  case selIhl =>
    obtain ⟨v, rfl, rfl⟩ := (withNibble_eq_ok_iff selectIhl).mp h
    exact ⟨_, selectIhl_encodes v, rfl⟩
  case selProto =>
    obtain ⟨n, rfl, rfl⟩ := (word_eq_ok_iff selectProto).mp h
    exact ⟨_, selectProto_encodes n, rfl⟩
  case selTcpdo =>
    obtain ⟨v, rfl, rfl⟩ := (withNibble_eq_ok_iff selectTcpdo).mp h
    exact ⟨_, selectTcpdo_encodes v, rfl⟩
  case selUdplen =>
    obtain ⟨v, rfl, rfl⟩ := (word_eq_ok_iff selectUdplen).mp h
    exact ⟨_, selectUdplen_encodes v, rfl⟩
  case fmtEth =>
    obtain ⟨w, rfl, rfl⟩ := (word_eq_ok_iff fun v => .layoutEth (EthWord.ofBits v)).mp h
    exact ⟨_, ⟨rfl, rfl, by rw [Instr.operands, EthWord.toBits_ofBits]⟩, rfl⟩
  case fmtTos =>
    obtain ⟨w, rfl, rfl⟩ := (word_eq_ok_iff fun v => .layoutTos (TosWord.ofBits v)).mp h
    exact ⟨_, ⟨rfl, rfl, by rw [Instr.operands, TosWord.toBits_ofBits]⟩, rfl⟩
  case fmtIcmp =>
    obtain ⟨w, rfl, rfl⟩ := (word_eq_ok_iff fun v => .layoutIcmp (IcmpWord.ofBits v)).mp h
    exact ⟨_, ⟨rfl, rfl, by rw [Instr.operands, IcmpWord.toBits_ofBits]⟩, rfl⟩
  case fmtTcp =>
    obtain ⟨w, rfl, rfl⟩ := (word_eq_ok_iff fun v => .layoutTcp (TcpWord.ofBits v)).mp h
    exact ⟨_, ⟨rfl, rfl, by rw [Instr.operands, TcpWord.toBits_ofBits]⟩, rfl⟩
  case fmtUdp =>
    obtain ⟨w, rfl, rfl⟩ := (word_eq_ok_iff fun v => .layoutUdp (UdpWord.ofBits v)).mp h
    exact ⟨_, ⟨rfl, rfl, by rw [Instr.operands, UdpWord.toBits_ofBits]⟩, rfl⟩
  case fmtIpv4 =>
    obtain ⟨w, r, rfl, hf⟩ := withOperand_word_eq_ok (n := 160) rfl h
    rw [BitVec.ofNat_toNat, BitVec.setWidth_eq] at hf
    split at hf
    · rename_i hver
      cases hf
      exact ⟨_, ⟨rfl, rfl, by rw [Instr.operands, Ipv4Word.toBits_ofBits w hver]⟩, rfl⟩
    · cases hf
  case phaseStep =>
    obtain ⟨code, rfl, hs⟩ := phaseStep_eq_ok h
    exact ⟨_, selectStep_encodes hs, rfl⟩
  case rdBits =>
    obtain ⟨n, r, -, rfl, hf⟩ := withOperand_eq_ok h
    split at hf
    · rename_i hn
      cases hf
      exact ⟨_, ⟨decide_eq_true hn, rfl, rfl⟩, rfl⟩
    · cases hf
  case take | skip =>
    obtain ⟨n, r, hn, rfl, hf⟩ := withOperand_eq_ok h
    cases hf
    exact ⟨_, ⟨lengthFits_iff.mpr hn, rfl, rfl⟩, rfl⟩
  case classifyEtype =>
    obtain ⟨v, rfl, rfl⟩ := (word_eq_ok_iff .classifyEtype).mp h
    exact ⟨_, ⟨rfl, rfl, rfl⟩, rfl⟩
  case classifyProto =>
    obtain ⟨n, rfl, rfl⟩ := (word_eq_ok_iff .classifyProto).mp h
    exact ⟨_, ⟨rfl, rfl, rfl⟩, rfl⟩
  case decodePacket | loadFrame =>
    obtain ⟨xs, hl, rfl, rfl⟩ := withBytes_eq_ok h
    exact ⟨_, ⟨lengthFits_iff.mpr hl, rfl, rfl⟩, (List.append_assoc _ _ _).symm⟩
  case read =>
    obtain ⟨k, r, -, rfl, hf⟩ := withOperand_eq_ok h
    split at hf
    · rename_i reg hreg
      cases hf
      exact ⟨_, ⟨rfl, rfl, by rw [Instr.operands, Reg.number_of_lookup hreg]⟩, rfl⟩
    · cases hf
  all_goals cases h; exact ⟨[], ⟨rfl, rfl, rfl⟩, rfl⟩

end Sys2Proof

namespace Sys2Proof.Claims

/-- Settles O8: the tag byte leads to the operation's own operand decoder, which reads the operand bytes back. -/
theorem decodeInvertsEncode : Obligations.DecodeInvertsEncode :=
  fun i rest hw => (decode_tagByte i.tag (i.operands ++ rest)).trans (decodeOperands_operands hw rest)

/-- Settles O9: the bytes are a tag byte and operand bytes, and what they decode to is written with both. -/
theorem encodeInvertsDecode : Obligations.EncodeInvertsDecode := by
  intro bs i rest h
  obtain ⟨t, bs', rfl, hd⟩ := decode_eq_ok h
  obtain ⟨ops, ⟨hw, rfl, rfl⟩, rfl⟩ := encodes_of_decodeOperands hd
  exact ⟨hw, rfl⟩

/-- The bytes of a well-formed operation decode to it. -/
theorem decode_of_eq_encode {i : Instr} {bs : List Byte} (hw : i.wf = true) (hb : bs = encode i) : decode bs = .ok i [] := by
  simpa [hb] using decodeInvertsEncode i [] hw

/-- Settles O7: each word is the encoding of its operation, which decodes to it (O8). -/
theorem wordsOfTheTableDecode : Obligations.WordsOfTheTableDecode := by
  refine ⟨?_, ?_, ?_, ?_, ?_, ?_, ?_, ?_, ?_, ?_, ?_, ?_, ?_, ?_⟩
  all_goals exact decode_of_eq_encode (by decide) (by decide)

end Sys2Proof.Claims
end

section
/-! The rows of the selectors (30_encoding R98 to R101). A selected row hands its outcome to its caller (`selectorRow_selected`), so what is
left for each row is the range of its values, read off `etype_cases` and the `firstHit` lemmas. What the row that a value selects hands over
is said once for each selector (`exec_selectEtype` and its like): the agreement with the classifiers (O14) follows, and, with the
decoders' failures, that a phase step raises the pair of the selected row (O13). -/

namespace Sys2Proof

/-! ### The ranges of the rows -/

theorem ipver_bad_iff (v : BitVec 4) : (firstHit ipverRows v == 1) = true ↔ v ≠ 4 := by
  rw [beq_iff_eq, ipver_firstHit]
  split_ifs with h
  · exact iff_of_false (by decide) (not_not.mpr h)
  · exact iff_of_true rfl h

theorem minWords_small_iff (v : BitVec 4) : (firstHit minWordsRows v == 0) = true ↔ v.toNat ≤ 3 := by
  have hr := minWords_firstHit v
  rw [beq_iff_eq]
  split_ifs at hr <;> omega

theorem minWords_ok_iff (v : BitVec 4) : (firstHit minWordsRows v == 2) = true ↔ 5 ≤ v.toNat := by
  have hr := minWords_firstHit v
  rw [beq_iff_eq]
  split_ifs at hr <;> omega

theorem udplen_small_iff (v : BitVec 16) : (firstHit udplenRows v == 0) = true ↔ v.toNat ≤ 7 := by
  have hr := udplen_firstHit v
  rw [beq_iff_eq]
  split_ifs at hr <;> omega

theorem udplen_ok_iff (v : BitVec 16) : (firstHit udplenRows v == 1) = true ↔ 8 ≤ v.toNat := by
  have hr := udplen_firstHit v
  rw [beq_iff_eq]
  split_ifs at hr <;> omega

theorem proto_other_iff (n : Byte) : (firstHit protoRows n == 3) = true ↔ n ≠ 0x01 ∧ n ≠ 0x06 ∧ n ≠ 0x11 := by
  rw [beq_iff_eq, proto_firstHit]
  split_ifs with h1 h2 h3 <;> simp_all

theorem selectProto_eq (n : Byte) : selectProto n =
    if n = 0x01 then .protoIcmp else if n = 0x06 then .protoTcp else if n = 0x11 then .protoUdp else .protoOther n := by
  rw [selectProto, proto_firstHit]
  split_ifs <;> rfl

end Sys2Proof

namespace Sys2Proof.Machine

variable {α : Type} {s : State} {k : ErrKind} {c : ErrCause}

/-! ### What a selected row hands over -/

theorem selectorRow_selected {b : Bool} (h : b = true) (o : Out) (s : State) :
    selectorRow b o s = .next { s with out := o } := if_pos h

/-- A header length in words as bytes (R97). -/
theorem headerBytes_eq (w : BitVec 4) : headerBytes w = BitVec.ofNat 6 (4 * w.toNat) := by
  revert w
  decide

/-- A UDP length less its header (R97). -/
theorem payloadBytes_eq {v : BitVec 16} (h : 8 ≤ v.toNat) : v - 8 = BitVec.ofNat 16 (v.toNat - 8) := by
  have hle : 8 ≤ v := h
  apply BitVec.eq_of_toNat_eq
  rw [BitVec.toNat_sub_of_le hle, BitVec.toNat_ofNat, Nat.mod_eq_of_lt (by omega)]
  rfl

/-! ### The row that a value selects -/

theorem exec_selectEtype (v : BitVec 16) (s : State) :
    exec (selectEtype v) s = .next { s with out := .etherTag (etherTagOf v) } := by
  unfold selectEtype etherTagOf
  rcases etype_cases v with ⟨hv, hr⟩ | ⟨hv, hr⟩ | ⟨-, hv, hr⟩ | ⟨-, hv, hr⟩ | ⟨-, hv, hr⟩ | ⟨-, hv, hr⟩ | ⟨-, hv, hr⟩ |
    ⟨-, hv, hr⟩ | ⟨hv, hr⟩ | ⟨hv, hne, hr⟩
  · obtain rfl : v = 0x800 := BitVec.eq_of_toNat_eq hv
    rw [hr, if_neg (by decide), if_pos rfl]
    rfl
  iterate 7 · rw [hr, if_pos (by omega)]; exact selectorRow_selected (beq_iff_eq.mpr hr) _ s
  · rw [hr, if_pos (by omega)]; rfl
  · rw [hr, if_neg (by omega), if_neg fun h => hne (congrArg BitVec.toNat h)]
    exact selectorRow_selected (beq_iff_eq.mpr hr) _ s

theorem exec_selectProto (n : Byte) (s : State) :
    exec (selectProto n) s = .next { s with out := .protoRow (protoTagOf n) (phaseOf (protoTagOf n)) } := by
  have hr := proto_other_iff n
  rw [selectProto_eq, protoTagOf]
  split_ifs with h1 h2 h3
  iterate 3 · rfl
  · exact selectorRow_selected (hr.mpr ⟨h1, h2, h3⟩) _ s

theorem exec_selectIpver (v : BitVec 4) (s : State) :
    exec (selectIpver v) s = .next { s with out := if v ≠ 4 then .errorRow .invalidIpHeader .badVersion else .proceed } := by
  unfold selectIpver
  have hr := ipver_firstHit v
  split_ifs at hr with hv
  · rw [hr, if_neg (not_not.mpr hv)]; rfl
  · rw [hr, if_pos hv]; exact selectorRow_selected (beq_iff_eq.mpr hr) _ s

theorem exec_selectIhl (v : BitVec 4) (s : State) :
    exec (selectIhl v) s = .next { s with
      out := if v.toNat < 5 then .errorRow .invalidIpHeader .headerLengthTooSmall else .headerLen (headerBytes v) } := by
  unfold selectIhl
  have hr := minWords_firstHit v
  split_ifs at hr
  · rw [hr, if_pos (by omega)]; exact selectorRow_selected (beq_iff_eq.mpr hr) _ s
  · rw [hr, if_pos (by omega)]; rfl
  · rw [hr, if_neg (by omega)]; exact selectorRow_selected (beq_iff_eq.mpr hr) _ s

theorem exec_selectTcpdo (v : BitVec 4) (s : State) :
    exec (selectTcpdo v) s = .next { s with
      out := if v.toNat < 5 then .errorRow .invalidTcpHeader .dataOffsetTooSmall else .headerLen (headerBytes v) } := by
  unfold selectTcpdo
  have hr := minWords_firstHit v
  split_ifs at hr
  · rw [hr, if_pos (by omega)]; exact selectorRow_selected (beq_iff_eq.mpr hr) _ s
  · rw [hr, if_pos (by omega)]; rfl
  · rw [hr, if_neg (by omega)]; exact selectorRow_selected (beq_iff_eq.mpr hr) _ s

theorem exec_selectUdplen (v : BitVec 16) (s : State) :
    exec (selectUdplen v) s = .next { s with
      out := if v.toNat < 8 then .errorRow .invalidUdpPacket .lengthTooSmall else .payloadLen (v - 8) } := by
  unfold selectUdplen
  have hr := udplen_firstHit v
  split_ifs at hr with hv
  · rw [hr, if_pos hv]; exact selectorRow_selected (beq_iff_eq.mpr hr) _ s
  · rw [hr, if_neg hv]; exact selectorRow_selected (beq_iff_eq.mpr hr) _ s

/-! ### The rows whose outcome is an error, and the step that raises it (R230, R236) -/

/-- The caller is handed an error only where the row is the failing one, and then its pair. -/
theorem errorRow_eq_of_ite {p : Prop} [Decidable p] {k' : ErrKind} {c' : ErrCause} {o : Out} (ho : o ≠ .errorRow k c)
    (h : (.next { s with out := if p then .errorRow k' c' else o } : Outcome) = .next { s with out := .errorRow k c }) :
    p ∧ k = k' ∧ c = c' := by
  have hout : (if p then .errorRow k' c' else o) = Out.errorRow k c := congrArg State.out (Host.Outcome.next.inj h)
  split_ifs at hout with hp
  · cases hout; exact ⟨hp, rfl, rfl⟩
  · exact absurd hout ho

/-- A phase step whose decoder fails raises its kind with the decoder's cause, CUR where the decoder left it. -/
theorem layerStep_failedState {ph : Phase} {r : Res α} {p : Nat} (h : s.phase = ph) (hr : r = .fail c p)
    (put : α → State → State) : layerStep ph k r put s = .next (Claims.failedState s k c p) := by
  rw [hr, layerStep_fail h]
  rfl

/-! The header fields in the terms of the statements are those of the decoders' closed forms. -/

theorem version_eq_hi (s : State) (a : Nat) : Claims.version s a = s.frame.hi a := rfl

theorem words_eq_lo (s : State) (a : Nat) : Claims.words s a = s.frame.lo a := rfl

theorem offsetWords_eq_hi (s : State) (a : Nat) : Claims.offsetWords s a = s.frame.hi (a + 12) := rfl

theorem num_eq_be (s : State) (a n : Nat) : Claims.num s a n = be (s.frame.bytes a n) := by
  induction n with
  | zero => rfl
  | succ n ih => rw [Claims.num, ih, s.frame.be_bytes_succ]; rfl

theorem execStepIp_raises_version {a : Nat} (hc : s.cur = 8 * a) (hp : s.phase = .ip) (ha : a < s.frameLen)
    (h : exec (selectIpver (BitVec.ofNat 4 (Claims.version s a))) s = .next { s with out := .errorRow k c }) :
    exec .stepIp s = .next (Claims.failedState s k c (s.cur + 4)) := by
  rw [exec_selectIpver, version_eq_hi] at h
  obtain ⟨hv, rfl, rfl⟩ := errorRow_eq_of_ite (by simp) h
  have hne : s.frame.hi a ≠ 4 := fun e => hv (congrArg (BitVec.ofNat 4) e)
  exact layerStep_failedState hp (by rw [hc, decodeIpv4_badVersion ha hne]) _

theorem execStepIp_raises_ihl {a : Nat} (hc : s.cur = 8 * a) (hp : s.phase = .ip) (ha : a < s.frameLen)
    (hv : Claims.version s a = 4)
    (h : exec (selectIhl (BitVec.ofNat 4 (Claims.words s a))) s = .next { s with out := .errorRow k c }) :
    exec .stepIp s = .next (Claims.failedState s k c (s.cur + 8)) := by
  rw [version_eq_hi] at hv
  rw [exec_selectIhl, words_eq_lo, nibble_toNat (s.frame.lo_lt a)] at h
  obtain ⟨hlt, rfl, rfl⟩ := errorRow_eq_of_ite (by simp) h
  exact layerStep_failedState hp (by rw [hc, decodeIpv4_small ha hv hlt, Nat.mul_add]) _

theorem execStepTcp_raises_dataOffset {a : Nat} (hc : s.cur = 8 * a) (hp : s.phase = .tcp) (ha : a + 13 ≤ s.frameLen)
    (h : exec (selectTcpdo (BitVec.ofNat 4 (Claims.offsetWords s a))) s = .next { s with out := .errorRow k c }) :
    exec .stepTcp s = .next (Claims.failedState s k c (s.cur + 100)) := by
  rw [exec_selectTcpdo, offsetWords_eq_hi, nibble_toNat (s.frame.hi_lt (a + 12))] at h
  obtain ⟨hlt, rfl, rfl⟩ := errorRow_eq_of_ite (by simp) h
  exact layerStep_failedState hp (by rw [hc, decodeTcp_small ha hlt, withRest_fail]) _

theorem execStepUdp_raises_length {a : Nat} (hc : s.cur = 8 * a) (hp : s.phase = .udp) (ha : a + 6 ≤ s.frameLen)
    (h : exec (selectUdplen (BitVec.ofNat 16 (Claims.num s (a + 4) 2))) s = .next { s with out := .errorRow k c }) :
    exec .stepUdp s = .next (Claims.failedState s k c (s.cur + 48)) := by
  rw [exec_selectUdplen, num_eq_be, half_toNat] at h
  obtain ⟨hlt, rfl, rfl⟩ := errorRow_eq_of_ite (by simp) h
  exact layerStep_failedState hp (by rw [hc, decodeUdp_small ha hlt, Nat.mul_add]) _

end Sys2Proof.Machine

namespace Sys2Proof.Claims

open Sys2Proof.Machine

/-- Settles O10: the ranges are the intervals of `etype_cases`. -/
theorem etherTypeRowsGiveTheirClass : Obligations.EtherTypeRowsGiveTheirClass := by
  refine ⟨fun s => rfl, fun s v => ⟨?_, fun h => selectorRow_selected h _ s⟩, fun s v => ⟨?_, fun h => selectorRow_selected h _ s⟩,
    fun s v => ⟨?_, fun h => selectorRow_selected h _ s⟩, fun s v => ⟨?_, fun h => selectorRow_selected h _ s⟩,
    fun s v => ⟨?_, fun h => selectorRow_selected h _ s⟩, fun s v => ⟨?_, fun h => selectorRow_selected h _ s⟩,
    fun s v => ⟨?_, fun h => selectorRow_selected h _ s⟩, fun s => rfl, fun s v => ⟨?_, fun h => selectorRow_selected h _ s⟩⟩
  all_goals
    have hcases := etype_cases v
    simp only [Instr.wf, beq_iff_eq, ne_eq, ← BitVec.toNat_inj, BitVec.reduceToNat]
    omega

/-- Settles O11. -/
theorem protocolRowsGiveTheirClassAndPhase : Obligations.ProtocolRowsGiveTheirClassAndPhase := by
  refine fun s => ⟨rfl, rfl, rfl, fun n hw => ?_, selectProto_eq⟩
  obtain ⟨h1, h6, h17⟩ := (proto_other_iff n).mp hw
  exact ⟨h1, h6, h17, selectorRow_selected hw _ s⟩

/-- Settles O12. -/
theorem selectorRowsThatContinue : Obligations.SelectorRowsThatContinue := by
  refine fun s => ⟨rfl, minWords_ok_iff, fun v hw => ?_, minWords_ok_iff, fun v hw => ?_, udplen_ok_iff, fun v hw => ?_⟩
  · rw [← headerBytes_eq]; exact selectorRow_selected hw _ s
  · rw [← headerBytes_eq]; exact selectorRow_selected hw _ s
  · rw [← payloadBytes_eq ((udplen_ok_iff v).mp hw)]; exact selectorRow_selected hw _ s

/-- Settles O13: the ranges of the error rows, and for each selector that the decoder of its layer fails with the cause of the row that
the field selects. -/
theorem selectorRowsThatRaise : Obligations.SelectorRowsThatRaise := fun s =>
  ⟨fun v => ⟨ipver_bad_iff v, fun h => selectorRow_selected ((ipver_bad_iff v).mpr h) _ s⟩,
    fun v => ⟨minWords_small_iff v, fun h => selectorRow_selected ((minWords_small_iff v).mpr h) _ s⟩, rfl,
    fun v => ⟨minWords_small_iff v, fun h => selectorRow_selected ((minWords_small_iff v).mpr h) _ s⟩, rfl,
    fun v => ⟨udplen_small_iff v, fun h => selectorRow_selected ((udplen_small_iff v).mpr h) _ s⟩,
    fun _ _ _ hc => ⟨execStepIp_raises_version hc, execStepIp_raises_ihl hc, execStepTcp_raises_dataOffset hc,
      execStepUdp_raises_length hc⟩⟩

/-- Settles O14: both classifiers give the class that the selected row gives. -/
theorem selectorsAgreeWithTheClassifiers : Obligations.SelectorsAgreeWithTheClassifiers := by
  refine fun s => ⟨fun v => exec_selectEtype v s, fun n => ⟨protoTagOf n, phaseOf (protoTagOf n), rfl, exec_selectProto n s, ?_⟩⟩
  cases protoTagOf n <;> decide

end Sys2Proof.Claims
end

section
/-! The layouts (30_encoding R91 to R97). A layout hands over the values that its fields go to (O31). Those of the number that a header's
bytes stand for are the values that the header's decoder reads one after the other at the cursor (O32): both are the closed form of the
header at byte `a` (Sys2Proof/Laws/Decoders.lean), the layout by one lemma for each format, the decoder by `decodeEther_at` and its like. -/

namespace Sys2Proof.Machine

variable {α : Type} {s : State} {f : Frame}

/-! ### The whole byte of a type-of-service layout (R93) -/

theorem tosWord_toBits_eq (w : TosWord) : w.toBits =
    BitVec.ofNat 8 (w.prec.toNat * 32 + w.d.toNat * 16 + w.t.toNat * 8 + w.r.toNat * 4 + w.rsv.toNat) := by
  obtain ⟨prec, d, t, r, rsv⟩ := w
  revert prec d t r rsv
  decide

/-! ### Layouts of the number that the bytes of a header stand for -/

/-- A field that is one byte. -/
theorem Frame.field_byte (f : Frame) (a : Nat) {n N x z q : Nat} (hn : n = x + 1 + z) (hq : q = 8 * z) (hN : N = 8 * n) :
    (BitVec.ofNat N (be (f.bytes a n))).extractLsb' q 8 = f.byte (a + x) := by
  rw [f.field a (y := 1) hn hq rfl hN, f.be_one]

theorem ethRegsOf_ofBits (f : Frame) (a : Nat) :
    ethRegsOf (EthWord.ofBits (BitVec.ofNat 112 (be (f.bytes a 14)))) = f.ethAt a := by
  simp only [ethRegsOf, EthWord.ofBits, Frame.ethAt]
  rw [f.field a (x := 0) (y := 6) (z := 8) rfl rfl rfl rfl, f.field a (x := 6) (y := 6) (z := 2) rfl rfl rfl rfl,
    f.field a (x := 12) (y := 2) (z := 0) rfl rfl rfl rfl]
  rfl

theorem tosRegsOf_ofBits (b : Byte) : tosRegsOf (TosWord.ofBits b) = tosOf b := by
  rw [tosRegsOf, TosWord.toBits_ofBits, tosOf]
  congr 1
  exact congrArg (BitVec.ofNat 3) (Nat.shiftRight_eq_div_pow b.toNat 5)

/-- The fragment offset: the low five bits of one byte and the next byte (R92). -/
theorem Frame.field_fragoff (f : Frame) (a : Nat) :
    (BitVec.ofNat 160 (be (f.bytes a 20))).extractLsb' 96 13 =
      BitVec.ofNat 13 ((f.byte (a + 6)).toNat % 32 * 256 + (f.byte (a + 7)).toNat) := by
  have hrun := congrArg BitVec.toNat (f.be_slice a (n := 20) (x := 6) (y := 2) (z := 12) rfl)
  have hbe : be (f.bytes (a + 6) 2) = (f.byte (a + 6)).toNat * 256 + (f.byte (a + 7)).toNat := by
    rw [f.be_bytes_succ, f.be_bytes_succ]; simp [Frame.bytes]
  rw [extract_ofNat _ (by decide)]
  apply BitVec.eq_of_toNat_eq
  rw [hbe] at hrun
  simp only [BitVec.toNat_ofNat, Nat.reduceMul, Nat.reducePow] at hrun ⊢
  omega

theorem ipv4Word_ihl (f : Frame) (a : Nat) :
    (Ipv4Word.ofBits (BitVec.ofNat 160 (be (f.bytes a 20)))).ihl = BitVec.ofNat 4 (f.lo a) := by
  rw [Ipv4Word.ofBits, f.field_bits a (x := 0) (z := 19) (j := 0) rfl (by decide) rfl rfl, Frame.lo, ← ofNat_mod, Nat.pow_zero,
    Nat.div_one]
  rfl

theorem ipv4RegsOf_ofBits (f : Frame) (a : Nat) :
    ipv4RegsOf (Ipv4Word.ofBits (BitVec.ofNat 160 (be (f.bytes a 20)))) = f.ipv4At a := by
  rw [ipv4RegsOf, ipv4Word_ihl]
  simp only [Ipv4Word.ofBits, Frame.ipv4At]
  rw [f.field_byte a (x := 1) (z := 18) rfl rfl rfl, tosRegsOf_ofBits, f.field a (x := 2) (y := 2) (z := 16) rfl rfl rfl rfl,
    f.field a (x := 4) (y := 2) (z := 14) rfl rfl rfl rfl, f.field_bit a (x := 6) (z := 13) (j := 6) rfl (by decide) rfl rfl,
    f.field_bit a (x := 6) (z := 13) (j := 5) rfl (by decide) rfl rfl, f.field_fragoff,
    f.field_byte a (x := 8) (z := 11) rfl rfl rfl, f.field_byte a (x := 9) (z := 10) rfl rfl rfl,
    f.field a (x := 10) (y := 2) (z := 8) rfl rfl rfl rfl, f.field a (x := 12) (y := 4) (z := 4) rfl rfl rfl rfl,
    f.field a (x := 16) (y := 4) (z := 0) rfl rfl rfl rfl]

theorem icmpWord_at (f : Frame) (a : Nat) : IcmpWord.ofBits (BitVec.ofNat 32 (be (f.bytes a 4))) =
    { type := (f.icmpAt a).type, code := (f.icmpAt a).code, csum := (f.icmpAt a).csum } := by
  rw [IcmpWord.ofBits, f.field_byte a (x := 0) (z := 3) rfl rfl rfl, f.field_byte a (x := 1) (z := 2) rfl rfl rfl,
    f.field a (x := 2) (y := 2) (z := 0) rfl rfl rfl rfl]
  rfl

theorem tcpWord_doff (f : Frame) (a : Nat) :
    (TcpWord.ofBits (BitVec.ofNat 160 (be (f.bytes a 20)))).doff = BitVec.ofNat 4 (f.hi (a + 12)) := by
  rw [TcpWord.ofBits, f.field_bits a (x := 12) (z := 7) (j := 4) rfl (by decide) rfl rfl]
  rfl

theorem tcpRegsOf_ofBits (f : Frame) (a : Nat) :
    tcpRegsOf (TcpWord.ofBits (BitVec.ofNat 160 (be (f.bytes a 20)))) = f.tcpAt a := by
  rw [tcpRegsOf, tcpWord_doff]
  simp only [TcpWord.ofBits, Frame.tcpAt]
  rw [f.field a (x := 0) (y := 2) (z := 18) rfl rfl rfl rfl, f.field a (x := 2) (y := 2) (z := 16) rfl rfl rfl rfl,
    f.field a (x := 4) (y := 4) (z := 12) rfl rfl rfl rfl, f.field a (x := 8) (y := 4) (z := 8) rfl rfl rfl rfl,
    f.field_bit a (x := 13) (z := 6) (j := 5) rfl (by decide) rfl rfl,
    f.field_bit a (x := 13) (z := 6) (j := 4) rfl (by decide) rfl rfl,
    f.field_bit a (x := 13) (z := 6) (j := 3) rfl (by decide) rfl rfl,
    f.field_bit a (x := 13) (z := 6) (j := 2) rfl (by decide) rfl rfl,
    f.field_bit a (x := 13) (z := 6) (j := 1) rfl (by decide) rfl rfl,
    f.field_bit a (x := 13) (z := 6) (j := 0) rfl (by decide) rfl rfl,
    f.field a (x := 14) (y := 2) (z := 4) rfl rfl rfl rfl, f.field a (x := 16) (y := 2) (z := 2) rfl rfl rfl rfl,
    f.field a (x := 18) (y := 2) (z := 0) rfl rfl rfl rfl]
  rfl

theorem udpWord_at (f : Frame) (a : Nat) : UdpWord.ofBits (BitVec.ofNat 64 (be (f.bytes a 8))) =
    { sport := (f.udpAt a).sport, dport := (f.udpAt a).dport, len := (f.udpAt a).len, csum := (f.udpAt a).csum } := by
  rw [UdpWord.ofBits, f.field a (x := 0) (y := 2) (z := 6) rfl rfl rfl rfl, f.field a (x := 2) (y := 2) (z := 4) rfl rfl rfl rfl,
    f.field a (x := 4) (y := 2) (z := 2) rfl rfl rfl rfl, f.field a (x := 6) (y := 2) (z := 0) rfl rfl rfl rfl]
  rfl

theorem udpAt_len (f : Frame) (a : Nat) : (f.udpAt a).len.toNat = be (f.bytes (a + 4) 2) := half_toNat f (a + 4)

/-- The payload length of the layout is that of the decoder's run (R97). -/
theorem udpAt_payloadLen {a : Nat} (h : 8 ≤ be (f.bytes (a + 4) 2)) :
    be (f.bytes (a + 4) 2) - 8 = ((f.udpAt a).len - 8).toNat := by
  have hle : 8 ≤ (f.udpAt a).len := by rw [← udpAt_len] at h; exact h
  rw [BitVec.toNat_sub_of_le hle, udpAt_len]
  rfl

/-! ### The layouts with a minimum length (R101) -/

theorem exec_layoutIpv4 {w : Ipv4Word} (h : 5 ≤ w.ihl.toNat) (s : State) :
    exec (.layoutIpv4 w) s = .next { s with out := .ipv4 (ipv4RegsOf w) } := if_neg (by omega)

theorem exec_layoutTcp {w : TcpWord} (h : 5 ≤ w.doff.toNat) (s : State) :
    exec (.layoutTcp w) s = .next { s with out := .tcp (tcpRegsOf w) } := if_neg (by omega)

theorem exec_layoutUdp {w : UdpWord} (h : 8 ≤ w.len.toNat) (s : State) :
    exec (.layoutUdp w) s = .next { s with
      out := .udpFixed { sport := w.sport, dport := w.dport, len := w.len, csum := w.csum } (w.len - 8) } := if_neg (by omega)

/-! ### The decoder by itself -/

/-- A cursor operation that answers a value, as a record update. -/
theorem cursorOp_eq_update {toOut : α → Out} {r : Res α} {v : α} {p q : Nat} (hr : r = .ok v p) (hq : p = q) :
    cursorOp toOut r s = .next { s with cur := q, out := toOut v } := by
  subst hr hq
  rfl

end Sys2Proof.Machine

namespace Sys2Proof.Claims

open Sys2Proof.Machine

/-- Settles O31. -/
theorem layoutsGiveTheirFields : Obligations.LayoutsGiveTheirFields := by
  refine fun s => ⟨fun _ => rfl, fun w => ?_, fun _ h => if_pos h, fun w h => ?_, fun _ => rfl, fun _ h => if_pos h, fun w h => ?_,
    fun _ h => if_pos h, fun w h => ?_⟩
  · rw [← tosWord_toBits_eq]; rfl
  · rw [← headerBytes_eq]; exact exec_layoutIpv4 h s
  · rw [← headerBytes_eq]; exact exec_layoutTcp h s
  · rw [exec_layoutUdp h, payloadBytes_eq h]

/-- Settles O32: layout and decoder both give the header in closed form. -/
theorem decodersAgreeWithTheLayouts : Obligations.DecodersAgreeWithTheLayouts := by
  intro s a hc
  simp only [num_eq_be, version_eq_hi, words_eq_lo, offsetWords_eq_hi]
  refine ⟨fun h => ⟨.ether (s.frame.ethAt a), ?_, ?_⟩, fun h => ⟨.tos (tosOf (s.frame.byte a)), ?_, ?_⟩,
    fun h hv hw => ⟨.ipv4 (s.frame.ipv4At a), ?_, ?_⟩, fun h => ⟨.icmp (s.frame.icmpAt a), ?_, ?_⟩,
    fun h ho => ⟨.tcp (s.frame.tcpAt a), ?_, ?_⟩, fun h hl => ⟨s.frame.udpAt a, (s.frame.udpAt a).len - 8, ?_, ?_⟩⟩
  · rw [← ethRegsOf_ofBits]; rfl
  · exact cursorOp_eq_update (by rw [hc, decodeEther_at h]) (by omega)
  · rw [s.frame.be_one, ← tosRegsOf_ofBits]; rfl
  · exact cursorOp_eq_update (by rw [hc, decodeTos_at h]) (by omega)
  · have hihl := congrArg BitVec.toNat (ipv4Word_ihl s.frame a)
    rw [nibble_toNat (s.frame.lo_lt a)] at hihl
    rw [exec_layoutIpv4 (by omega), ipv4RegsOf_ofBits]
  · exact cursorOp_eq_update (by rw [hc, decodeIpv4_at hv hw h]) (by omega)
  · rw [icmpWord_at]; rfl
  · exact cursorOp_eq_update (by rw [hc, decodeIcmp_at h]) (by omega)
  · have hdoff := congrArg BitVec.toNat (tcpWord_doff s.frame a)
    rw [nibble_toNat (s.frame.hi_lt (a + 12))] at hdoff
    rw [exec_layoutTcp (by omega), tcpRegsOf_ofBits]
  · exact cursorOp_eq_update (by rw [hc, decodeTcp_at ho h]) (by omega)
  · rw [udpWord_at, exec_layoutUdp (by rw [udpAt_len]; exact hl)]
  · rw [← udpAt_payloadLen hl]
    have hd := decodeUdp_at hl h
    rw [← hc] at hd
    exact cursorOp_eq_update hd (by omega)

end Sys2Proof.Claims
end

section
/-! The step (30_encoding R105; 44_dispatch R214; 20_memory R67). With nothing pending a step is the parser's move (`step_parser`), so PHASE
alone selects it (O4); bytes that are no operation are refused (O6); a phase step is refused outside its phase, and a decoding one at a
cursor that is not on a byte boundary (O39). -/

namespace Sys2Proof.Machine

variable {s : State}

/-- Bytes on the call bench that are no operation. -/
theorem step_call_undecodable (h : s.rst = false) (hp : s.phase = .idle) (hq : s.call ≠ []) {e : DecodeError}
    (hd : decode s.call = .bad e) : step s = .refused (.undecodable e) := by
  simp [step, fetch, fetchCall, h, hq, hd, hp]

/-- A phase step whose decoder refuses the cursor is refused in its own phase (R67). -/
theorem layerStep_unaligned {α : Type} {ph : Phase} {k : ErrKind} {r : Res α} {put : α → State → State} (hp : s.phase = ph)
    (hr : r = .stop .unalignedCursor) : layerStep ph k r put s = .refused .unalignedCursor := by
  rw [hr, layerStep_stop hp]

end Sys2Proof.Machine

namespace Sys2Proof.Claims

open Sys2Proof.Machine

/-- Settles O4: the step is the parser's move, which looks at PHASE. -/
theorem stepRunsTheStepThatPhaseSelects : Obligations.StepRunsTheStepThatPhaseSelects := by
  intro s hr hc hq
  rw [step_parser hr hc hq, parserStep]
  cases s.phase <;> simp [Phase.code] <;> rfl

/-- Settles O6. -/
theorem undecodableRequestIsRefused : Obligations.UndecodableRequestIsRefused :=
  fun _ _ hr => ⟨fun hc hq hd => step_undecodable hr hc hq hd, fun hp hq hd => step_call_undecodable hr hp hq hd⟩

/-- Settles O39. -/
theorem phaseStepsAreEnabledInTheirPhaseOnly : Obligations.PhaseStepsAreEnabledInTheirPhaseOnly := by
  refine fun s => ⟨fun hp => layerStep_not hp _ _ _, fun hp => layerStep_not hp _ _ _, fun hp => if_neg hp,
    fun hp => layerStep_not hp _ _ _, fun hp => layerStep_not hp _ _ _, fun hp => layerStep_not hp _ _ _,
    fun hc => ⟨fun hp => ?_, fun hp => ?_, fun hp => ?_, fun hp => ?_, fun hp => ?_⟩⟩
  · exact layerStep_unaligned hp (decodeEther_unaligned hc)
  · exact layerStep_unaligned hp (decodeIpv4_unaligned hc)
  · exact layerStep_unaligned hp (by rw [decodeIcmp_unaligned hc, withRest_stop])
  · exact layerStep_unaligned hp (by rw [decodeTcp_unaligned hc, withRest_stop])
  · exact layerStep_unaligned hp (decodeUdp_unaligned hc)

end Sys2Proof.Claims
end

section
/-! The cursor primitives by themselves (40_bitcursor R130 to R142). Each answers its value and moves CUR, fails with CUR unchanged
(`cursorOp_short`), or is refused; Sys2Proof/Laws/Cursor.lean says which. Here their values are put in the terms of the statements: bytes
as powers of 256, stream bits as powers of 2 (`Frame.bits_eq_sum`). The composition laws (R142) are those of the values,
`Frame.bits_add` and `Frame.be_bytes_add`, and `rdU16_eq_rdBits` and its like. -/

namespace Sys2Proof.Machine

variable {α : Type} {s : State} {f : Frame} {p n : Nat}

/-! ### A cursor operation that gives no value -/

/-- A failure that leaves the cursor where it was changes the caller's result alone (R131). -/
theorem cursorOp_short {toOut : α → Out} {r : Res α} {c : ErrCause} (hr : r = .fail c s.cur) :
    cursorOp toOut r s = .next { s with out := .failed c } := by
  rw [hr, cursorOp_fail]
  rfl

theorem cursorOp_refused {toOut : α → Out} {r : Res α} {e : Refusal} (hr : r = .stop e) : cursorOp toOut r s = .refused e := by
  rw [hr, cursorOp_stop]

theorem rdBits_undefined (hn : ¬(1 ≤ n ∧ n ≤ 32)) : rdBits f p n = .stop (.bitCountUndefined n) := if_neg hn

/-! ### Values -/

theorem Frame.be_two (f : Frame) (a : Nat) : be (f.bytes a 2) = (f.byte a).toNat * 256 + (f.byte (a + 1)).toNat := by
  rw [f.be_bytes_succ, f.be_bytes_succ]
  simp [Frame.bytes]

theorem Frame.be_bytes_add (f : Frame) (a m n : Nat) :
    be (f.bytes a (m + n)) = be (f.bytes a m) * 256 ^ n + be (f.bytes (a + m) n) := by
  rw [f.bytes_add, be_append, f.bytes_length]

theorem Frame.be_four (f : Frame) (a : Nat) : be (f.bytes a 4) =
    (f.byte a).toNat * 2 ^ 24 + (f.byte (a + 1)).toNat * 2 ^ 16 + (f.byte (a + 2)).toNat * 2 ^ 8 + (f.byte (a + 3)).toNat := by
  rw [f.be_bytes_add a 2 2, f.be_two, f.be_two]
  ring

/-- Four bytes fit 32 bits; for two bytes see `half_toNat`. -/
theorem word_toNat (f : Frame) (a : Nat) : (BitVec.ofNat 32 (be (f.bytes a 4))).toNat = be (f.bytes a 4) := by
  rw [BitVec.toNat_ofNat]
  exact Nat.mod_eq_of_lt (f.be_bytes_lt a 4)

theorem Frame.ofNat_bits_toNat (f : Frame) (p n : Nat) : (BitVec.ofNat n (f.bits p n)).toNat = f.bits p n := by
  rw [BitVec.toNat_ofNat, Nat.mod_eq_of_lt (f.bits_lt p n)]

/-- The two parts of a run of stream bits (R142). -/
theorem Frame.bits_split (f : Frame) (p a b : Nat) :
    f.bits p (a + b) / 2 ^ b = f.bits p a ∧ f.bits p (a + b) % 2 ^ b = f.bits (p + a) b :=
  (Nat.div_mod_unique (by positivity)).mpr ⟨by rw [f.bits_add]; ring, f.bits_lt _ _⟩

/-- At an aligned cursor the bits are those of whole bytes (R142). -/
theorem Frame.bits_aligned (f : Frame) (ha : p % 8 = 0) (n : Nat) : f.bits p (8 * n) = be (f.bytes (p / 8) n) := by
  rw [← f.bits_bytes, Nat.mul_div_cancel' (Nat.dvd_of_mod_eq_zero ha)]

/-- The first stream bit is the most significant (R63). -/
theorem Frame.bits_eq_sum (f : Frame) (p n : Nat) :
    f.bits p n = ∑ i ∈ Finset.range n, (f.sbit (p + i)).toNat * 2 ^ (n - 1 - i) := by
  induction n with
  | zero => rfl
  | succ n ih =>
    have hstep : ∀ i ∈ Finset.range n,
        (f.sbit (p + i)).toNat * 2 ^ (n + 1 - 1 - i) = 2 * ((f.sbit (p + i)).toNat * 2 ^ (n - 1 - i)) := by
      intro i hi
      rw [Finset.mem_range] at hi
      rw [show n + 1 - 1 - i = n - 1 - i + 1 by omega, Nat.pow_succ]
      ring
    rw [Frame.bits, ih, Finset.sum_range_succ, Finset.sum_congr rfl hstep, ← Finset.mul_sum]
    simp

theorem streamBit_eq_sbit (s : State) (p : Nat) : Claims.streamBit s p = s.frame.sbit p :=
  (Nat.testBit_eq_decide_div_mod_eq).symm

/-! ### The primitives run by themselves, with enough input -/

theorem exec_rdU8 (ha : s.cur % 8 = 0) (h : s.cur + 8 ≤ 8 * s.frameLen) :
    exec .rdU8 s = .next { s with cur := s.cur + 8, out := .word 8 (s.frame.byte (s.cur / 8)) } :=
  cursorOp_eq_update (rdU8_ok ha h) rfl

theorem exec_rdU16 (ha : s.cur % 8 = 0) (h : s.cur + 16 ≤ 8 * s.frameLen) :
    exec .rdU16 s = .next { s with
      cur := s.cur + 16, out := .word 16 (BitVec.ofNat 16 (be (s.frame.bytes (s.cur / 8) 2))) } :=
  cursorOp_eq_update (rdU16_ok ha h) rfl

theorem exec_rdU32 (ha : s.cur % 8 = 0) (h : s.cur + 32 ≤ 8 * s.frameLen) :
    exec .rdU32 s = .next { s with
      cur := s.cur + 32, out := .word 32 (BitVec.ofNat 32 (be (s.frame.bytes (s.cur / 8) 4))) } :=
  cursorOp_eq_update (rdU32_ok ha h) rfl

theorem exec_rdBits (hn : 1 ≤ n ∧ n ≤ 32) (h : s.cur + n ≤ 8 * s.frameLen) :
    exec (.rdBits n) s = .next { s with cur := s.cur + n, out := .word n (BitVec.ofNat n (s.frame.bits s.cur n)) } :=
  cursorOp_eq_update (rdBits_ok hn h) rfl

theorem exec_rdBit (h : s.cur + 1 ≤ 8 * s.frameLen) :
    exec .rdBit s = .next { s with cur := s.cur + 1, out := .word 1 (BitVec.ofBool (s.frame.sbit s.cur)) } :=
  cursorOp_eq_update (rdBit_ok h) rfl

theorem exec_take (ha : s.cur % 8 = 0) (h : s.cur + 8 * n ≤ 8 * s.frameLen) :
    exec (.take n) s = .next { s with
      cur := s.cur + 8 * n, out := .run { off := s.cur / 8, len := n } (s.frame.bytes (s.cur / 8) n) } :=
  cursorOp_eq_update (take_ok ha h) rfl

theorem exec_skip (ha : s.cur % 8 = 0) (h : s.cur + 8 * n ≤ 8 * s.frameLen) :
    exec (.skip n) s = .next { s with cur := s.cur + 8 * n, out := .nothing } :=
  cursorOp_eq_update (skip_ok ha h) rfl

theorem exec_takeRest (ha : s.cur % 8 = 0) (h : s.cur ≤ 8 * s.frameLen) :
    exec .takeRest s = .next { s with
      cur := 8 * s.frameLen,
      out := .run { off := s.cur / 8, len := s.frameLen - s.cur / 8 } (s.frame.bytes (s.cur / 8) (s.frameLen - s.cur / 8)) } :=
  cursorOp_eq_update (takeRest_ok ha h) rfl

/-! ### An aligned integer read is a bit read of its width (R142), in value and in failure -/

theorem rdU8_eq_rdBits (ha : p % 8 = 0) : rdU8 f p = rdBits f p 8 := by
  rw [rdU8, aligned_of ha, rdBits, if_pos (by decide), ← f.be_one, ← f.bits_aligned ha 1]

theorem rdU16_eq_rdBits (ha : p % 8 = 0) : rdU16 f p = rdBits f p 16 := by
  rw [rdU16, aligned_of ha, rdBits, if_pos (by decide), ← f.bits_aligned ha 2]

theorem rdU32_eq_rdBits (ha : p % 8 = 0) : rdU32 f p = rdBits f p 32 := by
  rw [rdU32, aligned_of ha, rdBits, if_pos (by decide), ← f.bits_aligned ha 4]

end Sys2Proof.Machine

namespace Sys2Proof.Claims

open Sys2Proof.Machine

/-- Settles O16: the bytes of the run one by one. -/
theorem alignedIntegerReads : Obligations.AlignedIntegerReads := by
  rintro s _ _ _ rfl rfl rfl
  refine ⟨fun ha h => ?_, fun ha h => cursorOp_short (rdU8_short ha (show 8 * s.frameLen < s.cur + 8 by omega)), fun ha h => ?_,
    fun ha h => cursorOp_short (rdU16_short ha (show 8 * s.frameLen < s.cur + 16 by omega)), fun ha h => ?_,
    fun ha h => cursorOp_short (rdU32_short ha (show 8 * s.frameLen < s.cur + 32 by omega)),
    fun ha => ⟨cursorOp_refused (aligned_not ha _), cursorOp_refused (aligned_not ha _), cursorOp_refused (aligned_not ha _)⟩⟩
  · rw [exec_rdU8 ha (by omega), BitVec.ofNat_toNat, BitVec.setWidth_eq]
  · rw [exec_rdU16 ha (by omega), Frame.be_two]
  · rw [exec_rdU32 ha (by omega), Frame.be_four]

/-- Settles O17. -/
theorem bitReads : Obligations.BitReads := by
  intro s
  simp only [streamBit_eq_sbit, ← Frame.bits_eq_sum]
  exact ⟨fun n h1 h32 h => exec_rdBits ⟨h1, h32⟩ h, fun n h1 h32 h => cursorOp_short (rdBits_short ⟨h1, h32⟩ h), exec_rdBit,
    fun h => cursorOp_short (rdBit_short h)⟩

/-- Settles O18. -/
theorem byteRuns : Obligations.ByteRuns := by
  intro s n
  refine ⟨fun ha h => ⟨?_, exec_skip ha h⟩,
    fun ha h => ⟨cursorOp_short (take_short ha h), cursorOp_short (skip_short ha h)⟩,
    fun ha => ⟨cursorOp_refused (aligned_not ha _), cursorOp_refused (aligned_not ha _)⟩⟩
  rw [exec_take ha h, Frame.bytes_eq_map]
  rfl

/-- Settles O19: the remaining bytes end at the end of the frame. -/
theorem takeRestTakesEveryRemainingByte : Obligations.TakeRestTakesEveryRemainingByte := by
  refine fun s => ⟨fun ha h => ?_, fun ha => cursorOp_refused (aligned_not ha _)⟩
  have hend : s.cur + 8 * (s.frameLen - s.cur / 8) = 8 * s.frameLen := by omega
  refine ⟨?_, ?_⟩
  · rw [exec_takeRest ha h, exec_take ha hend.le, hend]
  · rw [exec_takeRest ha h, Frame.bytes_eq_map]
    rfl

/-- Settles O20. -/
theorem undefinedBitCountIsRefused : Obligations.UndefinedBitCountIsRefused :=
  fun _ _ hn => cursorOp_refused (rdBits_undefined (by omega))

/-- Settles O21: the laws of the values, and the failure of the second part. -/
theorem readsCompose : Obligations.ReadsCompose := by
  refine fun f p => ⟨fun ha h => ?_, fun ha h => ?_, fun ha _ => rdU8_eq_rdBits ha, fun ha _ => rdU16_eq_rdBits ha,
    fun ha _ => rdU32_eq_rdBits ha, fun a b h1 h2 h32 h => ?_, fun a b h1 h2 h32 ha hs => ?_, fun ha h hs => ?_,
    fun ha h hs => ?_⟩
  · have hnext : (p + 8) / 8 = p / 8 + 1 := by omega
    refine ⟨_, _, _, rdU8_ok ha (by omega), rdU8_ok (by omega) (by omega), rdU16_ok ha h, ?_⟩
    rw [half_toNat, f.be_two, hnext]
  · have hnext : (p + 16) / 8 = p / 8 + 2 := by omega
    refine ⟨_, _, _, rdU16_ok ha (by omega), rdU16_ok (by omega) (by omega), rdU32_ok ha h, ?_⟩
    rw [word_toNat, half_toNat, half_toNat, f.be_bytes_add _ 2 2, hnext, show 256 ^ 2 = 65536 from rfl]
  · have hab := rdBits_ok (f := f) (p := p) (n := a + b) ⟨by omega, h32⟩ h
    rw [← Nat.add_assoc] at hab
    refine ⟨_, _, _, rdBits_ok (by omega) (by omega), rdBits_ok (by omega) (by omega), hab, ?_⟩
    rw [f.ofNat_bits_toNat, f.ofNat_bits_toNat, f.ofNat_bits_toNat]
    exact f.bits_split p a b
  · exact ⟨_, rdBits_ok (by omega) ha, rdBits_short (by omega) (by omega), rdBits_short (by omega) hs⟩
  · exact ⟨_, rdU8_ok ha h, rdU8_short (by omega) (by omega), rdU16_short ha hs⟩
  · exact ⟨_, rdU16_ok ha h, rdU16_short (by omega) (by omega), rdU32_short ha hs⟩

end Sys2Proof.Claims
end

section
/-! The Ethernet decoders run by themselves and the two classifiers (41_ethernet R151 to R154; 42_ipv4 R172). Both decoders are cursor
operations whose closed forms (`decodeMac_at`, `decodeEther_at`, `decodeEther_short`) are put in the terms of O23. A classifier answers the
class of its operand (`exec_classifyEtype`, `exec_classifyProto`), so O24 is the case analysis of the two class functions. -/

namespace Sys2Proof.Machine

variable {α : Type} {s : State} {a : Nat}

/-! ### The header and the stop positions in the terms of the statements -/

/-- The class is determined by the value as a number (R153). -/
theorem etherTagOf_eq_ite_toNat (v : BitVec 16) :
    etherTagOf v = if v.toNat ≤ 1500 then .length else if v.toNat = 0x0800 then .ip else .other := by
  simp only [etherTagOf, BitVec.toNat_eq]
  rfl

theorem claims_ethAt_eq (s : State) (a : Nat) : Claims.ethAt s a = s.frame.ethAt a := by
  simp only [Claims.ethAt, Frame.ethAt, num_eq_be, etherTagOf_eq_ite_toNat, half_toNat]

/-- Where `DECODE_ETHER` stops, by the bytes that remain (R235). -/
theorem ethStop_remaining (n a : Nat) :
    Claims.ethStop (n - a) = if n < a + 6 then 0 else if n < a + 12 then 48 else 96 := by
  have hdst : n - a ≤ 5 ↔ n < a + 6 := by omega
  have hsrc : n - a ≤ 11 ↔ n < a + 12 := by omega
  simp only [Claims.ethStop, hdst, hsrc]

/-! ### The decoders run by themselves at byte `a` -/

/-- A cursor operation that fails, as a record update; `cursorOp_short` is the case of a cursor that has not moved. -/
theorem cursorOp_fail_eq_update {toOut : α → Out} {r : Res α} {c : ErrCause} {p : Nat} (hr : r = .fail c p) :
    cursorOp toOut r s = .next { s with cur := p, out := .failed c } := by
  rw [hr, cursorOp_fail]
  rfl

theorem exec_decodeMac (hc : s.cur = 8 * a) (h : a + 6 ≤ s.frameLen) :
    exec .decodeMac s = .next { s with cur := s.cur + 48, out := .word 48 (BitVec.ofNat 48 (Claims.num s a 6)) } := by
  rw [num_eq_be]
  exact cursorOp_eq_update (by rw [hc, decodeMac_at h]) (by omega)

theorem exec_decodeMac_short (hc : s.cur = 8 * a) (h : s.frameLen < a + 6) :
    exec .decodeMac s = .next { s with out := .failed .insufficientData } :=
  cursorOp_short (by rw [hc, decodeMac_short h])

theorem exec_decodeEther (hc : s.cur = 8 * a) (h : a + 14 ≤ s.frameLen) :
    exec .decodeEther s = .next { s with cur := s.cur + 112, out := .ether (Claims.ethAt s a) } := by
  rw [claims_ethAt_eq]
  exact cursorOp_eq_update (by rw [hc, decodeEther_at h]) (by omega)

theorem exec_decodeEther_short (hc : s.cur = 8 * a) (h : s.frameLen < a + 14) :
    exec .decodeEther s = .next { s with
      cur := s.cur + Claims.ethStop (s.frameLen - a), out := .failed .insufficientData } :=
  cursorOp_fail_eq_update (by rw [hc, decodeEther_short h, ethStop_remaining, State.frame_len])

/-! ### The classifiers hand over the class of their operand and nothing else (R153, R172) -/

theorem exec_classifyEtype (v : BitVec 16) (s : State) :
    exec (.classifyEtype v) s = .next { s with out := .etherTag (etherTagOf v) } := rfl

theorem exec_classifyProto (n : Byte) (s : State) :
    exec (.classifyProto n) s = .next { s with out := .protoTag (protoTagOf n) } := rfl

theorem protoTagOf_other {n : Byte} (h1 : n ≠ 0x01) (h6 : n ≠ 0x06) (h17 : n ≠ 0x11) : protoTagOf n = .other := by
  rw [protoTagOf, if_neg h1, if_neg h6, if_neg h17]

end Sys2Proof.Machine

namespace Sys2Proof.Claims

open Sys2Proof.Machine

/-- Settles O23: an aligned cursor is at byte `cur / 8`. -/
theorem macAndEthernetDecoders : Obligations.MacAndEthernetDecoders := by
  intro s
  have hcur : s.cur % 8 = 0 → s.cur = 8 * (s.cur / 8) := by omega
  exact ⟨fun ha => exec_decodeMac (hcur ha), fun ha => exec_decodeMac_short (hcur ha), fun ha => exec_decodeEther (hcur ha),
    fun ha => exec_decodeEther_short (hcur ha),
    fun ha => ⟨cursorOp_refused (decodeMac_unaligned ha), cursorOp_refused (decodeEther_unaligned ha)⟩⟩

/-- Settles O24: the tests of R153 and R172 one by one. -/
theorem classifiersAreTotal : Obligations.ClassifiersAreTotal := by
  refine fun s => ⟨fun v hv => ?_, fun v hv => ?_, fun v hv hne => ?_, rfl, rfl, rfl, fun n h1 h6 h17 => ?_⟩
  · rw [exec_classifyEtype, etherTagOf_eq_ite_toNat, if_pos hv]
  · rw [exec_classifyEtype, etherTagOf_eq_ite_toNat, if_neg (by omega), if_pos hv]
  · rw [exec_classifyEtype, etherTagOf_eq_ite_toNat, if_neg (by omega), if_neg hne]
  · rw [exec_classifyProto, protoTagOf_other h1 h6 h17]

end Sys2Proof.Claims
end

section
/-! The type-of-service and IPv4 decoders run by themselves (42_ipv4 R167 to R171; 60_exceptions R235). Both are cursor operations; their
closed forms (`decodeTos_at`, `decodeIpv4_at`, `decodeIpv4_badVersion`, `decodeIpv4_small`, `decodeIpv4_short`) are put in the terms of O25
to O27: the values of a byte and of a header by their positions (`tosAt_eq`, `claims_ipv4At_eq`), the stop position by the bytes that
remain (`ipv4Stop_remaining`). -/

namespace Sys2Proof.Machine

variable {s : State} {a : Nat}

/-! ### Bits and classes as numbers -/

theorem getLsbD_eq_decide (b : Byte) (i : Nat) : b.getLsbD i = decide (b.toNat / 2 ^ i % 2 = 1) :=
  Nat.testBit_eq_decide_div_mod_eq

theorem bitOf_eq_getLsbD (s : State) (a i : Nat) : Claims.bitOf s a i = (s.frame.byte a).getLsbD i :=
  (getLsbD_eq_decide _ i).symm

/-- The class is determined by the protocol number (R172). -/
theorem protoTagOf_eq_protoClass (n : Byte) : protoTagOf n = Claims.protoClass n.toNat := by
  simp only [protoTagOf, Claims.protoClass, BitVec.toNat_eq]
  rfl

/-! ### The header and the stop positions in the terms of the statements -/

theorem tosAt_eq (b : Byte) : Claims.tosAt b = tosOf b := by
  simp only [Claims.tosAt, tosOf, getLsbD_eq_decide, Nat.reducePow]

/-- The slices and the two low bits make up the byte (R93). -/
theorem toNat_eq_tosOf (b : Byte) : b.toNat =
    (tosOf b).prec.toNat * 32 + (tosOf b).d.toNat * 16 + (tosOf b).t.toNat * 8 + (tosOf b).r.toNat * 4 + b.toNat % 4 := by
  have hbit (i : Nat) : (b.getLsbD i).toNat = b.toNat / 2 ^ i % 2 := Nat.toNat_testBit b.toNat i
  have hlt := b.isLt
  simp only [tosOf, hbit, BitVec.toNat_ofNat]
  omega

theorem claims_ipv4At_eq (s : State) (a : Nat) : Claims.ipv4At s a = s.frame.ipv4At a := by
  have hlen : headerBytes (BitVec.ofNat 4 (s.frame.lo a)) = BitVec.ofNat 6 (4 * s.frame.lo a) := by
    rw [headerBytes_eq, nibble_toNat (s.frame.lo_lt a)]
  simp only [Claims.ipv4At, Frame.ipv4At, hlen, words_eq_lo, tosAt_eq, num_eq_be, bitOf_eq_getLsbD, protoTagOf_eq_protoClass]
  rfl

/-- Where `DECODE_IPV4` stops behind a good first byte, by the bytes that remain (R235). -/
theorem ipv4Stop_remaining {n : Nat} (h : a < n) : Claims.ipv4Stop (n - a) =
    if n < a + 2 then 8 else if n < a + 4 then 16 else if n < a + 6 then 32 else if n < a + 7 then 48
    else if n < a + 8 then 51 else if n < a + 9 then 64 else if n < a + 10 then 72
    else if n < a + 12 then 80 else if n < a + 16 then 96 else if n < a + 20 then 128 else 160 := by
  rw [Claims.ipv4Stop, if_neg (by omega)]
  -- The tests of the two tables agree one by one, each given that those before it fail.
  iterate 10 refine ite_congr (propext (by omega)) (fun _ => rfl) fun _ => ?_
  rfl

/-! ### The decoders run by themselves at byte `a` -/

theorem exec_decodeTos (hc : s.cur = 8 * a) (h : a < s.frameLen) :
    exec .decodeTos s = .next { s with cur := s.cur + 8, out := .tos (Claims.tosAt (s.fb.read a)) } := by
  rw [tosAt_eq]
  exact cursorOp_eq_update (by rw [hc, decodeTos_at h]; rfl) (by omega)

theorem exec_decodeTos_short (hc : s.cur = 8 * a) (h : s.frameLen ≤ a) :
    exec .decodeTos s = .next { s with out := .failed .insufficientData } :=
  cursorOp_short (by rw [hc, decodeTos_short (Nat.lt_succ_of_le h)])

theorem exec_decodeIpv4 (hc : s.cur = 8 * a) (hv : Claims.version s a = 4) (hw : 5 ≤ Claims.words s a)
    (h : a + 4 * Claims.words s a ≤ s.frameLen) :
    exec .decodeIpv4 s = .next { s with cur := s.cur + 32 * Claims.words s a, out := .ipv4 (Claims.ipv4At s a) } := by
  rw [claims_ipv4At_eq]
  rw [version_eq_hi] at hv
  rw [words_eq_lo] at hw h ⊢
  exact cursorOp_eq_update (by rw [hc, decodeIpv4_at hv hw h]) (by omega)

theorem exec_decodeIpv4_badVersion (hc : s.cur = 8 * a) (h : a < s.frameLen) (hv : Claims.version s a ≠ 4) :
    exec .decodeIpv4 s = .next { s with cur := s.cur + 4, out := .failed .badVersion } := by
  rw [version_eq_hi] at hv
  exact cursorOp_fail_eq_update (by rw [hc, decodeIpv4_badVersion h hv])

theorem exec_decodeIpv4_small (hc : s.cur = 8 * a) (h : a < s.frameLen) (hv : Claims.version s a = 4)
    (hw : Claims.words s a < 5) :
    exec .decodeIpv4 s = .next { s with cur := s.cur + 8, out := .failed .headerLengthTooSmall } := by
  rw [version_eq_hi] at hv
  rw [words_eq_lo] at hw
  exact cursorOp_fail_eq_update (by rw [hc, decodeIpv4_small h hv hw, Nat.mul_add])

theorem exec_decodeIpv4_empty (hc : s.cur = 8 * a) (h : s.frameLen ≤ a) :
    exec .decodeIpv4 s = .next { s with out := .failed .insufficientData } :=
  cursorOp_short (by rw [hc, decodeIpv4_empty (Nat.lt_succ_of_le h)])

theorem exec_decodeIpv4_short (hc : s.cur = 8 * a) (ha : a < s.frameLen) (hv : Claims.version s a = 4)
    (hw : 5 ≤ Claims.words s a) (h : s.frameLen < a + 4 * Claims.words s a) :
    exec .decodeIpv4 s = .next { s with
      cur := s.cur + Claims.ipv4Stop (s.frameLen - a), out := .failed .insufficientData } := by
  rw [version_eq_hi] at hv
  rw [words_eq_lo] at hw h
  exact cursorOp_fail_eq_update (by rw [hc, decodeIpv4_short hv hw ha h, ipv4Stop_remaining ha, State.frame_len])

end Sys2Proof.Machine

namespace Sys2Proof.Claims

open Sys2Proof.Machine

/-- Settles O25. -/
theorem typeOfServiceDecoder : Obligations.TypeOfServiceDecoder := by
  intro s
  have hcur : s.cur % 8 = 0 → s.cur = 8 * (s.cur / 8) := by omega
  refine ⟨fun ha => exec_decodeTos (hcur ha), fun ha => exec_decodeTos_short (hcur ha),
    fun ha => cursorOp_refused (decodeTos_unaligned ha), fun b => ?_⟩
  rw [tosAt_eq]
  exact toNat_eq_tosOf b

/-- Settles O26. -/
theorem ipv4DecoderGivesTheHeader : Obligations.Ipv4DecoderGivesTheHeader :=
  fun s ha => exec_decodeIpv4 (show s.cur = 8 * (s.cur / 8) by omega)

/-- Settles O27: the four failures of `DECODE_IPV4` in the order of R171, and its precondition. -/
theorem ipv4DecoderFailures : Obligations.Ipv4DecoderFailures := by
  intro s
  have hcur : s.cur % 8 = 0 → s.cur = 8 * (s.cur / 8) := by omega
  exact ⟨fun ha => exec_decodeIpv4_badVersion (hcur ha), fun ha => exec_decodeIpv4_small (hcur ha),
    fun ha => exec_decodeIpv4_empty (hcur ha), fun ha => exec_decodeIpv4_short (hcur ha),
    fun ha => cursorOp_refused (decodeIpv4_unaligned ha)⟩

end Sys2Proof.Claims
end

section
/-! The transport decoders run by themselves and the transport steps (43_transport R185 to R197; 60_exceptions R235). A decoder's closed
forms (Sys2Proof/Laws/Decoders.lean) are put once in the terms of the statements: the header by its byte positions (`claims_icmpAt_eq`,
`claims_tcpAt_eq`, `claims_udpAt_eq`), the stop position by the bytes that remain (`icmpStop_remaining` and its like). Each of these
results serves twice: as a cursor operation (O28 to O30) and as the outcome of the phase step (O36 to O38), for ICMP and TCP with the rest
of the frame as data (`withRest_at`). -/

namespace Sys2Proof.Machine

variable {α : Type} {s : State} {a : Nat}

/-! ### The headers in the terms of the statements -/

theorem claims_icmpAt_eq (s : State) (a : Nat) : Claims.icmpAt s a = s.frame.icmpAt a := by
  simp only [Claims.icmpAt, Frame.icmpAt, num_eq_be]
  rfl

theorem claims_tcpAt_eq (s : State) (a : Nat) : Claims.tcpAt s a = s.frame.tcpAt a := by
  have hlen : headerBytes (BitVec.ofNat 4 (s.frame.hi (a + 12))) = BitVec.ofNat 6 (4 * s.frame.hi (a + 12)) := by
    rw [headerBytes_eq, nibble_toNat (s.frame.hi_lt (a + 12))]
  simp only [Claims.tcpAt, Frame.tcpAt, hlen, offsetWords_eq_hi, num_eq_be, bitOf_eq_getLsbD]

theorem claims_udpAt_eq (s : State) (a : Nat) : Claims.udpAt s a = s.frame.udpAt a := by
  simp only [Claims.udpAt, Frame.udpAt, num_eq_be]

/-! ### The stop positions by the bytes that remain (R235)

The tests of the two tables agree one by one, each given that those before it fail. -/

theorem icmpStop_remaining (n a : Nat) :
    Claims.icmpStop (n - a) = if n < a + 1 then 0 else if n < a + 2 then 8 else 16 := by
  rw [Claims.icmpStop]
  iterate 2 refine ite_congr (propext (by omega)) (fun _ => rfl) fun _ => ?_
  rfl

/-- Before the data offset. -/
theorem tcpStop_remaining_lt {n : Nat} (h : n < a + 13) : Claims.tcpStop (n - a) =
    if n < a + 2 then 0 else if n < a + 4 then 16 else if n < a + 8 then 32 else if n < a + 12 then 64 else 96 := by
  rw [Claims.tcpStop]
  iterate 4 refine ite_congr (propext (by omega)) (fun _ => rfl) fun _ => ?_
  exact if_pos (by omega)

/-- Behind the data offset. -/
theorem tcpStop_remaining_ge {n : Nat} (h : a + 13 ≤ n) : Claims.tcpStop (n - a) =
    if n < a + 14 then 103 else if n < a + 16 then 112 else if n < a + 18 then 128 else if n < a + 20 then 144 else 160 := by
  rw [Claims.tcpStop, if_neg (by omega), if_neg (by omega), if_neg (by omega), if_neg (by omega), if_neg (by omega)]
  iterate 4 refine ite_congr (propext (by omega)) (fun _ => rfl) fun _ => ?_
  rfl

/-- Before the length. -/
theorem udpStop_remaining_lt {n : Nat} (h : n < a + 6) :
    Claims.udpStop (n - a) = if n < a + 2 then 0 else if n < a + 4 then 16 else 32 := by
  rw [Claims.udpStop]
  iterate 2 refine ite_congr (propext (by omega)) (fun _ => rfl) fun _ => ?_
  exact if_pos (by omega)

/-- Behind the length. -/
theorem udpStop_remaining_ge {n : Nat} (h : a + 6 ≤ n) : Claims.udpStop (n - a) = if n < a + 8 then 48 else 64 := by
  rw [Claims.udpStop, if_neg (by omega), if_neg (by omega), if_neg (by omega)]
  exact ite_congr (propext (by omega)) (fun _ => rfl) fun _ => rfl

/-! ### What the decoders answer at byte `a` -/

section

variable (hc : s.cur = 8 * a)
include hc

theorem decodeIcmp_whole (h : a + 4 ≤ s.frameLen) :
    decodeIcmp s.frame s.cur = .ok (Claims.icmpAt s a) (8 * (a + 4)) := by
  rw [hc, decodeIcmp_at h, claims_icmpAt_eq]

theorem decodeIcmp_cut (h : s.frameLen < a + 4) :
    decodeIcmp s.frame s.cur = .fail .insufficientData (s.cur + Claims.icmpStop (s.frameLen - a)) := by
  rw [hc, decodeIcmp_short h, icmpStop_remaining, State.frame_len]

theorem decodeTcp_whole (ho : 5 ≤ Claims.offsetWords s a) (h : a + 4 * Claims.offsetWords s a ≤ s.frameLen) :
    decodeTcp s.frame s.cur = .ok (Claims.tcpAt s a) (8 * (a + 4 * Claims.offsetWords s a)) := by
  rw [offsetWords_eq_hi] at ho h ⊢
  rw [hc, decodeTcp_at ho h, claims_tcpAt_eq]

theorem decodeTcp_smallOffset (h : a + 13 ≤ s.frameLen) (ho : Claims.offsetWords s a < 5) :
    decodeTcp s.frame s.cur = .fail .dataOffsetTooSmall (s.cur + 100) := by
  rw [offsetWords_eq_hi] at ho
  rw [hc, decodeTcp_small h ho]

theorem decodeTcp_cut_beforeOffset (h : s.frameLen < a + 13) :
    decodeTcp s.frame s.cur = .fail .insufficientData (s.cur + Claims.tcpStop (s.frameLen - a)) := by
  rw [hc, decodeTcp_empty h, tcpStop_remaining_lt h, State.frame_len]

theorem decodeTcp_cut_behindOffset (h13 : a + 13 ≤ s.frameLen) (ho : 5 ≤ Claims.offsetWords s a)
    (h : s.frameLen < a + 4 * Claims.offsetWords s a) :
    decodeTcp s.frame s.cur = .fail .insufficientData (s.cur + Claims.tcpStop (s.frameLen - a)) := by
  rw [offsetWords_eq_hi] at ho h
  rw [hc, decodeTcp_short h13 ho h, tcpStop_remaining_ge h13, State.frame_len]

theorem decodeUdp_whole (hl : 8 ≤ Claims.num s (a + 4) 2) (h : a + Claims.num s (a + 4) 2 ≤ s.frameLen) :
    decodeUdp s.frame s.cur = .ok (Claims.udpAt s a, { off := a + 8, len := Claims.num s (a + 4) 2 - 8 })
      (8 * (a + Claims.num s (a + 4) 2)) := by
  rw [num_eq_be] at hl h ⊢
  rw [hc, decodeUdp_at hl h, claims_udpAt_eq]

theorem decodeUdp_smallLength (h : a + 6 ≤ s.frameLen) (hl : Claims.num s (a + 4) 2 < 8) :
    decodeUdp s.frame s.cur = .fail .lengthTooSmall (s.cur + 48) := by
  rw [num_eq_be] at hl
  rw [hc, decodeUdp_small h hl, Nat.mul_add]

theorem decodeUdp_cut_beforeLength (h : s.frameLen < a + 6) :
    decodeUdp s.frame s.cur = .fail .insufficientData (s.cur + Claims.udpStop (s.frameLen - a)) := by
  rw [hc, decodeUdp_empty h, udpStop_remaining_lt h, State.frame_len]

theorem decodeUdp_cut_behindLength (h6 : a + 6 ≤ s.frameLen) (hl : 8 ≤ Claims.num s (a + 4) 2)
    (h : s.frameLen < a + Claims.num s (a + 4) 2) :
    decodeUdp s.frame s.cur = .fail .insufficientData (s.cur + Claims.udpStop (s.frameLen - a)) := by
  rw [num_eq_be] at hl h
  rw [hc, decodeUdp_short h6 hl h, udpStop_remaining_ge h6, State.frame_len]

end

/-! ### The phase steps -/

/-- The data behind a header that ends at byte `a` (R186, R191). -/
theorem withRest_at {f : Frame} {x : Res α} {v : α} (hx : x = .ok v (8 * a)) (h : a ≤ f.len) :
    withRest f x = .ok (v, { off := a, len := f.len - a }) (8 * f.len) := by
  rw [hx, withRest, Res.ok_andThen, takeRest_at h, Res.ok_andThen]

/-- A header decoder that fails leaves no data to take. -/
theorem withRest_eq_fail {f : Frame} {x : Res α} {c : ErrCause} {p : Nat} (hx : x = .fail c p) : withRest f x = .fail c p := by
  rw [hx, withRest_fail]

/-- A phase step whose decoder answers writes what it answers, CUR where the decoder left it. -/
theorem layerStep_eq_put {ph : Phase} {k : ErrKind} {r : Res α} {v : α} {p q : Nat} (h : s.phase = ph) (hr : r = .ok v p)
    (hq : p = q) (put : α → State → State) : layerStep ph k r put s = .next (put v (s.setCur q)) := by
  rw [hr, hq, layerStep_ok h]

end Sys2Proof.Machine

namespace Sys2Proof.Claims

open Sys2Proof.Machine

/-- Settles O28. -/
theorem icmpDecoder : Obligations.IcmpDecoder := by
  intro s
  have hcur : s.cur % 8 = 0 → s.cur = 8 * (s.cur / 8) := by omega
  exact ⟨fun ha h => cursorOp_eq_update (decodeIcmp_whole (hcur ha) h) (by omega),
    fun ha h => cursorOp_fail_eq_update (decodeIcmp_cut (hcur ha) h),
    fun ha => cursorOp_refused (decodeIcmp_unaligned ha)⟩

/-- Settles O29: a whole header, the three failures of `DECODE_TCP`, and its precondition. -/
theorem tcpDecoder : Obligations.TcpDecoder := by
  intro s
  have hcur : s.cur % 8 = 0 → s.cur = 8 * (s.cur / 8) := by omega
  exact ⟨fun ha ho h => cursorOp_eq_update (decodeTcp_whole (hcur ha) ho h) (by omega),
    fun ha h ho => cursorOp_fail_eq_update (decodeTcp_smallOffset (hcur ha) h ho),
    fun ha h => cursorOp_fail_eq_update (decodeTcp_cut_beforeOffset (hcur ha) h),
    fun ha h13 ho h => cursorOp_fail_eq_update (decodeTcp_cut_behindOffset (hcur ha) h13 ho h),
    fun ha => cursorOp_refused (decodeTcp_unaligned ha)⟩

/-- Settles O30: a whole header with its payload, the three failures of `DECODE_UDP`, and its precondition. -/
theorem udpDecoder : Obligations.UdpDecoder := by
  intro s
  have hcur : s.cur % 8 = 0 → s.cur = 8 * (s.cur / 8) := by omega
  exact ⟨fun ha hl h => cursorOp_eq_update (decodeUdp_whole (hcur ha) hl h) (by omega),
    fun ha h hl => cursorOp_fail_eq_update (decodeUdp_smallLength (hcur ha) h hl),
    fun ha h => cursorOp_fail_eq_update (decodeUdp_cut_beforeLength (hcur ha) h),
    fun ha h6 hl h => cursorOp_fail_eq_update (decodeUdp_cut_behindLength (hcur ha) h6 hl h),
    fun ha => cursorOp_refused (decodeUdp_unaligned ha)⟩

/-- Settles O36: the data are the rest of the frame behind the header. -/
theorem stepIcmpCapturesTheData : Obligations.StepIcmpCapturesTheData := by
  intro s hp ha
  have hcur : s.cur = 8 * (s.cur / 8) := by omega
  exact ⟨fun h => layerStep_eq_put hp (withRest_at (decodeIcmp_whole hcur h) h) rfl _,
    fun h => layerStep_failedState hp (withRest_eq_fail (decodeIcmp_cut hcur h)) _⟩

/-- Settles O37: the data are the rest of the frame behind the header and its options. -/
theorem stepTcpCapturesTheData : Obligations.StepTcpCapturesTheData := by
  intro s hp ha
  have hcur : s.cur = 8 * (s.cur / 8) := by omega
  exact ⟨fun ho h => layerStep_eq_put hp (withRest_at (decodeTcp_whole hcur ho h) h) rfl _,
    fun h ho => layerStep_failedState hp (withRest_eq_fail (decodeTcp_smallOffset hcur h ho)) _,
    fun h => layerStep_failedState hp (withRest_eq_fail (decodeTcp_cut_beforeOffset hcur h)) _,
    fun h13 ho h => layerStep_failedState hp (withRest_eq_fail (decodeTcp_cut_behindOffset hcur h13 ho h)) _⟩

/-- Settles O38: the payload is the run that the decoder takes by the header's own length. -/
theorem stepUdpBoundsThePayload : Obligations.StepUdpBoundsThePayload := by
  intro s hp ha
  have hcur : s.cur = 8 * (s.cur / 8) := by omega
  have hend : 8 * (s.cur / 8 + num s (s.cur / 8 + 4) 2) = s.cur + 8 * num s (s.cur / 8 + 4) 2 := by omega
  exact ⟨fun hl h => layerStep_eq_put hp (decodeUdp_whole hcur hl h) hend _,
    fun h hl => layerStep_failedState hp (decodeUdp_smallLength hcur h hl) _,
    fun h => layerStep_failedState hp (decodeUdp_cut_beforeLength hcur h) _,
    fun h6 hl h => layerStep_failedState hp (decodeUdp_cut_behindLength hcur h6 hl h) _⟩

end Sys2Proof.Claims
end

section
/-! The phase steps of the Ethernet and IPv4 layers and the dispatcher, and who moves PHASE (44_dispatch R207 to R214). The closed forms of
`DECODE_ETHER` and `DECODE_IPV4` are put in the terms of the statements, as those of the transport decoders are above, and give the two
layer steps (O33, O34). PHASE changes as the table says (`Effect.phaseMove_of_ne`), and only by the operation that the table names
(`mover_of_phase_ne`); together they settle O49. -/

namespace Sys2Proof.Machine

variable {α : Type} {s t : State} {a : Nat} {i : Instr}

/-! ### What the decoders answer at byte `a` -/

section

variable (hc : s.cur = 8 * a)
include hc

theorem decodeEther_whole (h : a + 14 ≤ s.frameLen) :
    decodeEther s.frame s.cur = .ok (Claims.ethAt s a) (8 * (a + 14)) := by
  rw [hc, decodeEther_at h, claims_ethAt_eq]

theorem decodeEther_cut (h : s.frameLen < a + 14) :
    decodeEther s.frame s.cur = .fail .insufficientData (s.cur + Claims.ethStop (s.frameLen - a)) := by
  rw [hc, decodeEther_short h, ethStop_remaining, State.frame_len]

theorem decodeIpv4_whole (hv : Claims.version s a = 4) (hw : 5 ≤ Claims.words s a) (h : a + 4 * Claims.words s a ≤ s.frameLen) :
    decodeIpv4 s.frame s.cur = .ok (Claims.ipv4At s a) (8 * (a + 4 * Claims.words s a)) := by
  rw [version_eq_hi] at hv
  rw [words_eq_lo] at hw h ⊢
  rw [hc, decodeIpv4_at hv hw h, claims_ipv4At_eq]

theorem decodeIpv4_noByte (h : s.frameLen ≤ a) : decodeIpv4 s.frame s.cur = .fail .insufficientData s.cur := by
  rw [hc, decodeIpv4_empty (Nat.lt_succ_of_le h)]

theorem decodeIpv4_otherVersion (h : a < s.frameLen) (hv : Claims.version s a ≠ 4) :
    decodeIpv4 s.frame s.cur = .fail .badVersion (s.cur + 4) := by
  rw [version_eq_hi] at hv
  rw [hc, decodeIpv4_badVersion h hv]

theorem decodeIpv4_smallLength (h : a < s.frameLen) (hv : Claims.version s a = 4) (hw : Claims.words s a < 5) :
    decodeIpv4 s.frame s.cur = .fail .headerLengthTooSmall (s.cur + 8) := by
  rw [version_eq_hi] at hv
  rw [words_eq_lo] at hw
  rw [hc, decodeIpv4_small h hv hw, Nat.mul_add]

theorem decodeIpv4_cut (h : a < s.frameLen) (hv : Claims.version s a = 4) (hw : 5 ≤ Claims.words s a)
    (hl : s.frameLen < a + 4 * Claims.words s a) :
    decodeIpv4 s.frame s.cur = .fail .insufficientData (s.cur + Claims.ipv4Stop (s.frameLen - a)) := by
  rw [version_eq_hi] at hv
  rw [words_eq_lo] at hw hl
  rw [hc, decodeIpv4_short hv hw h hl, ipv4Stop_remaining h, State.frame_len]

end

/-! ### The dispatcher (R207) -/

theorem execStepDispatch_eq {g : Ipv4Regs} (hp : s.phase = .dispatch) (hg : s.ip = some g) :
    execStepDispatch s = .next (s.putContents g.protoTag) := by
  simp [execStepDispatch, hp, hg]

/-! ### The transition relation of PHASE (R214) -/

theorem phaseMove_eth_of_quiescent {p : Phase} (h : p.quiescent = true) : phaseMove p .eth = true := by
  revert h
  cases p <;> decide

theorem phaseMove_idle_of_quiescent {p : Phase} (h : p.quiescent = true) : phaseMove p .idle = true := by
  revert h
  cases p <;> decide

theorem phaseMove_dispatch_phaseOf (c : ProtoTag) : phaseMove .dispatch (phaseOf c) = true := by
  cases c <;> rfl

theorem phaseMove_error_of_raiser : ∀ x ∈ raisers, phaseMove x.1 .error = true := by decide

/-- A move that changes PHASE makes a transition of the table. -/
theorem Move.phaseMove_of_ne (hm : Move s t) (hne : t.phase ≠ s.phase) : phaseMove s.phase t.phase = true := by
  cases hm
  case result | dropped => exact absurd rfl hne
  case started hq => exact phaseMove_eth_of_quiescent hq
  case loaded hq _ => exact phaseMove_idle_of_quiescent hq
  case ether hp _ | ipv4 hp _ | icmp hp _ | tcp hp _ | udp hp _ => rw [hp]; rfl
  case contents g hp _ => rw [hp]; exact phaseMove_dispatch_phaseOf g.protoTag
  case raised hr => exact phaseMove_error_of_raiser _ hr

theorem Effect.phaseMove_of_ne (he : Effect s t) (hne : t.phase ≠ s.phase) : phaseMove s.phase t.phase = true := by
  cases he with
  | move hm => exact hm.phaseMove_of_ne hne
  | cursor => exact absurd rfl hne

theorem quiescent_of_not_busy (hb : s.busy = false) : s.phase.quiescent = true := by
  rw [quiescent_eq_not_busy, hb]
  rfl

/-- Only the step of a busy phase leaves it. -/
theorem busy_of_movesFrom (h : Claims.movesFrom s.phase i = true) : s.busy = true := by
  have hq := quiescent_eq_not_busy s
  cases hp : s.phase <;> simp_all [Phase.quiescent, Claims.movesFrom]

/-- A phase step runs in its own phase. -/
theorem movesFrom_of_layerStep {ph : Phase} {k : ErrKind} {r : Res α} {put : α → State → State}
    (hi : Claims.movesFrom ph i = true) (h : layerStep ph k r put s = .next t) : Claims.movesFrom s.phase i = true := by
  obtain ⟨hp, -⟩ := layerStep_eq_next h
  rwa [hp]

/-- An operation that changes PHASE is an admitted `START` or `LOAD_FRAME`, or the step of the phase it leaves. -/
theorem mover_of_phase_ne (hi : ∀ bs, i ≠ .decodePacket bs) (h : exec i s = .next t) (hne : t.phase ≠ s.phase) :
    (i = .start ∨ ∃ bs, i = .loadFrame bs) ∧ s.phase.quiescent = true ∨ Claims.movesFrom s.phase i = true := by
  cases hm : isTransactionMove i with
  | false =>
    obtain ⟨p, o, -, rfl⟩ := exec_part hm h
    exact absurd rfl hne
  | true =>
    cases i
    case decodePacket bs => exact absurd rfl (hi bs)
    case start =>
      obtain ⟨hq, -⟩ | ⟨-, rfl⟩ := execStart_eq_next h
      · exact .inl ⟨.inl rfl, hq⟩
      · exact absurd rfl hne
    case loadFrame bs =>
      obtain ⟨⟨hq, -⟩, -⟩ | rfl := execLoadFrame_eq_next h
      · exact .inl ⟨.inr ⟨bs, rfl⟩, hq⟩
      · exact absurd rfl hne
    case read r => obtain ⟨o, rfl⟩ := execRead_eq_next h; exact absurd rfl hne
    case stepDispatch => obtain ⟨hp, -⟩ := execStepDispatch_eq_next h; rw [hp]; exact .inr rfl
    case stepEth | stepIp | stepIcmp | stepTcp | stepUdp => exact .inr (movesFrom_of_layerStep rfl h)
    all_goals cases hm

end Sys2Proof.Machine

namespace Sys2Proof.Claims

open Sys2Proof.Machine

/-- Settles O49: everything that an operation does follows the table, and the mover is the one that the table names. -/
theorem phaseMovesFollowTheTable : Obligations.PhaseMovesFollowTheTable := by
  intro i s t hi h hne
  have hmove : phaseMove s.phase t.phase = true := (exec_effect hi h).phaseMove_of_ne hne
  obtain ⟨hhost, hquiet⟩ | hstep := mover_of_phase_ne hi h hne
  · exact ⟨hmove, fun _ => hhost, fun hb => absurd hquiet (by simp [quiescent_eq_false_of_busy hb])⟩
  · exact ⟨hmove, fun hb => absurd (busy_of_movesFrom hstep) (by simp [hb]), fun _ => hstep⟩

/-- Settles O33. -/
theorem stepEthWritesTheEthernetGroup : Obligations.StepEthWritesTheEthernetGroup := by
  intro s hp ha
  have hcur : s.cur = 8 * (s.cur / 8) := by omega
  have hend : 8 * (s.cur / 8 + 14) = s.cur + 112 := by omega
  exact ⟨fun h => layerStep_eq_put hp (decodeEther_whole hcur h) hend _,
    fun h => layerStep_failedState hp (decodeEther_cut hcur h) _⟩

/-- Settles O34: the failures of `DECODE_IPV4` in the order of R171, and a valid header. -/
theorem stepIpWritesTheIpv4Group : Obligations.StepIpWritesTheIpv4Group := by
  intro s hp ha
  have hcur : s.cur = 8 * (s.cur / 8) := by omega
  have hend : 8 * (s.cur / 8 + 4 * words s (s.cur / 8)) = s.cur + 32 * words s (s.cur / 8) := by omega
  exact ⟨fun h => layerStep_failedState hp (decodeIpv4_noByte hcur h) _,
    fun h hv => layerStep_failedState hp (decodeIpv4_otherVersion hcur h hv) _,
    fun h hv hw => layerStep_failedState hp (decodeIpv4_smallLength hcur h hv hw) _,
    fun h hv hw hl => layerStep_failedState hp (decodeIpv4_cut hcur h hv hw hl) _,
    fun hv hw h => layerStep_eq_put hp (decodeIpv4_whole hcur hv hw h) hend _⟩

/-- Settles O35. -/
theorem stepDispatchFollowsTheTag : Obligations.StepDispatchFollowsTheTag := by
  intro s g hp hg
  have h : exec .stepDispatch s = .next (s.putContents g.protoTag) := execStepDispatch_eq hp hg
  refine ⟨fun ht => ?_, fun ht => ?_, fun ht => ?_, fun ht => ?_⟩
  all_goals rw [h, ht]; rfl

end Sys2Proof.Claims
end

section
/-! The host commands (44_dispatch R220 to R223) and what a step runs (30_encoding R105). A command is admitted by PHASE
(`execStart_quiescent`, `execLoadFrame_admitted`) or dropped (O40, O41). `READ` of an admitted register that holds a value hands it over
(`execRead_eq_answer`): O42 and O43 are its admission and the value of each register; O44 says when it is refused. -/

namespace Sys2Proof.Machine

variable {s : State} {r : Reg} {o : Out}

/-! ### START and LOAD_FRAME -/

theorem quiescent_of_cases (h : s.phase = .idle ∨ s.phase = .done ∨ s.phase = .error) : s.phase.quiescent = true := by
  obtain hp | hp | hp := h <;> rw [hp] <;> rfl

/-- An admitted `START` (R220). -/
theorem execStart_quiescent (h : s.phase.quiescent = true) : execStart s = .next s.begin := if_pos h

/-- An admitted `LOAD_FRAME` (R221). -/
theorem execLoadFrame_admitted (h : s.phase.quiescent = true) {bs : List Byte} (hl : bs.length ≤ Config.frameMax) :
    execLoadFrame bs s = .next (s.load bs) := if_pos ⟨h, hl⟩

/-- A frame that is too long is dropped in every phase (R221). -/
theorem execLoadFrame_tooLong {bs : List Byte} (hl : Config.frameMax < bs.length) : execLoadFrame bs s = .next s :=
  if_neg fun h => Nat.not_le_of_lt hl h.2

/-- `LOAD_FRAME` from address 0: byte `i` of the sequence is at address `i`. -/
theorem read_writeAll_below {m : Memory} (hw : m.wf = true) {bs : List Byte} {i : Nat} (h : i < bs.length) :
    (m.writeAll 0 bs).read i = bs[i] := by
  rw [Memory.read_writeAll 0 bs i hw, if_pos (Nat.zero_le i), Nat.sub_zero, List.getD_eq_getElem _ _ h]

theorem read_writeAll_above {m : Memory} (hw : m.wf = true) {bs : List Byte} {a : Nat} (h : bs.length ≤ a) :
    (m.writeAll 0 bs).read a = m.read a := by
  rw [Memory.read_writeAll 0 bs a hw, if_pos (Nat.zero_le a), Nat.sub_zero, List.getD_eq_default _ _ h]

/-! ### READ -/

theorem execRead_notAdmitted (h : s.readAdmitted r = false) : execRead r s = .refused (.readNotAdmitted r) :=
  if_neg (by simp [h])

theorem execRead_noValue (ha : s.readAdmitted r = true) (h : s.peek r = none) : execRead r s = .refused (.holdsNoValue r) := by
  rw [execRead, if_pos ha, h]

theorem execRead_eq_answer (ha : s.readAdmitted r = true) (h : s.peek r = some o)
    (hin : r ≠ .payload ∨ s.payInFrame = true) : execRead r s = .next { s with out := o } := by
  have hdefined : ¬(r = .payload ∧ s.payInFrame = false) := fun ⟨hr, hf⟩ => hin.elim (· hr) (by simp [hf])
  rw [execRead, if_pos ha, h]
  exact if_neg hdefined

theorem isDone_iff : s.isDone = true ↔ s.phase = .done := by
  unfold State.isDone
  cases s.phase <;> decide

/-- A result register other than PAYLOAD is admitted in DONE (R222). -/
theorem readAdmitted_result (hr : Claims.isResult r = true) (hne : r ≠ .payload) : s.readAdmitted r = s.isDone := by
  cases r
  case payload => exact absurd rfl hne
  case phase | frameLen | cur | errKind | errCause => exact absurd hr (by decide)
  all_goals rfl

/-- No result register and no payload is admitted outside DONE (R222). -/
theorem readAdmitted_eq_false_of_not_done (hr : Claims.isResult r = true) (hp : s.phase ≠ .done) : s.readAdmitted r = false := by
  have hd : s.isDone = false := Bool.eq_false_iff.mpr (isDone_iff.not.mpr hp)
  by_cases hpay : r = .payload
  · rw [hpay, State.readAdmitted, hd, Bool.false_and]
  · rw [readAdmitted_result hr hpay, hd]

/-- `READ` of a result register in DONE. -/
theorem execRead_result (hp : s.phase = .done) (hr : Claims.isResult r = true) (hne : r ≠ .payload) (h : s.peek r = some o) :
    exec (.read r) s = .next { s with out := o } :=
  execRead_eq_answer (by rw [readAdmitted_result hr hne, isDone_iff.mpr hp]) h (.inl hne)

end Sys2Proof.Machine

namespace Sys2Proof.Claims

open Sys2Proof.Machine

/-- Settles O40. -/
theorem startBeginsATransaction : Obligations.StartBeginsATransaction :=
  fun _ => ⟨fun h => execStart_quiescent (quiescent_of_cases h), fun hb => execStart_busy hb⟩

/-- Settles O41: the frame buffer after the writes, read address by address. -/
theorem loadFrameLoadsTheFrame : Obligations.LoadFrameLoadsTheFrame := by
  intro s bs hw
  refine ⟨fun hp hl => ⟨s.fb.writeAll 0 bs, execLoadFrame_admitted (quiescent_of_cases hp) hl, fun i h => read_writeAll_below hw h,
    fun a h => read_writeAll_above hw h⟩, ?_⟩
  rintro (hb | hl)
  · exact execLoadFrame_busy hb bs
  · exact execLoadFrame_tooLong hl

/-- Settles O42: in DONE each result register is admitted and reads as its own part of its group. -/
theorem readGivesTheResultRegisters : Obligations.ReadGivesTheResultRegisters := by
  intro s hp
  have read {r : Reg} {o : Out} := execRead_result (s := s) (r := r) (o := o) hp
  refine ⟨fun g hg => ?_, fun g hg => ?_, fun g hg => ?_, fun g hg => ?_, fun g hg => ?_, fun g hg => ?_, fun g hg => ?_⟩
  all_goals
    and_intros
    all_goals exact read (by decide) (by decide) (by rw [State.peek, hg]; rfl)

/-- Settles O43. -/
theorem readGivesTheControlRegisters : Obligations.ReadGivesTheControlRegisters := by
  intro s
  refine ⟨execRead_eq_answer rfl rfl (.inl (by decide)), execRead_eq_answer rfl rfl (.inl (by decide)), fun hq => ?_, fun hp => ?_,
    fun hp => ?_, fun w hp hw hc hin => ?_⟩
  · exact execRead_eq_answer (quiescent_of_cases hq) rfl (.inl (by decide))
  · have hq := quiescent_of_cases (.inr (.inr hp))
    constructor
    · exact execRead_eq_answer hq (by rw [State.peek, if_pos hp]; rfl) (.inl (by decide))
    · exact execRead_eq_answer hq (by rw [State.peek, if_pos hp]; rfl) (.inl (by decide))
  · have hq := quiescent_of_cases (hp.imp_right .inl)
    have hne : s.phase ≠ .error := by obtain hp | hp := hp <;> rw [hp] <;> decide
    constructor
    · exact execRead_eq_answer hq (by rw [State.peek, if_neg hne]) (.inl (by decide))
    · exact execRead_eq_answer hq (by rw [State.peek, if_neg hne]) (.inl (by decide))
  · refine execRead_eq_answer (readAdmitted_payload_of_done hp hc) ?_ (.inr ?_)
    · rw [State.peek, hw, Option.map_some, Frame.bytes_eq_map]
      rfl
    · exact payInFrame_of_window fun w' hw' => Option.some.inj (hw.symm.trans hw') ▸ hin

/-- Settles O44. -/
theorem readOutsideItsAdmissionIsRefused : Obligations.ReadOutsideItsAdmissionIsRefused := by
  intro s
  refine ⟨fun r hr hp => execRead_notAdmitted (readAdmitted_eq_false_of_not_done hr hp), fun hb => ?_, fun hp hc => ?_,
    fun r hr hne hp h => execRead_noValue ?_ h⟩
  · have hq := quiescent_eq_false_of_busy hb
    exact ⟨execRead_notAdmitted hq, execRead_notAdmitted hq, execRead_notAdmitted hq⟩
  · exact execRead_notAdmitted (by simp [State.readAdmitted, hc])
  · rw [readAdmitted_result hr hne, isDone_iff.mpr hp]

/-- Settles O3: the oldest request, if it is a move of a transaction, or the operation on the call bench, in IDLE. -/
theorem stepRunsTheDecodedOperation : Obligations.StepRunsTheDecodedOperation := by
  intro s i rest hr
  have hbench : decode s.call = .ok i rest → s.call ≠ [] := fun hd he => by rw [he] at hd; cases hd
  exact ⟨fun hc hd hm => step_request hr hc hd hm, fun hc hd hm => step_notARequest hr hc hd hm, fun hp hd => step_call hr hp hd,
    fun hp hd => step_callOutsideIdle hr (hbench hd) hp⟩

end Sys2Proof.Claims
end

section
/-! A transaction run by the parser alone (44_dispatch R214 to R217, R225). In a state that meets `State.ParserInv` no decoder refuses the
cursor, so the parser's move answers (`parserStep_answers`), and in a busy phase it goes further along the order of R225
(`parserStep_rank`): O52. From START four moves therefore end in DONE or ERROR (`runParser_begin_ends`), where the outcome can be read
(O55). Two runs on the same valid bytes stay alike in all but the frame buffer (`runParser_alike`): O56. -/

namespace Sys2Proof.Machine

variable {α : Type} {s t : State} {f : Frame} {p : Nat} {m : Memory}

/-! ### At an aligned cursor no decoder is refused -/

/-- An operation that answers or fails, and is not refused. -/
def Res.Answers : Res α → Prop
  | .ok _ _ => True
  | .fail _ _ => True
  | .stop _ => False

section

variable (hp : p % 8 = 0)
include hp

theorem answers_decodeEther : (decodeEther f p).Answers := by
  obtain ⟨a, rfl⟩ := Nat.dvd_of_mod_eq_zero hp
  by_cases h : a + 14 ≤ f.len
  · rw [decodeEther_at h]; trivial
  · rw [decodeEther_short (by omega)]; trivial

theorem answers_decodeIpv4 : (decodeIpv4 f p).Answers := by
  obtain ⟨a, rfl⟩ := Nat.dvd_of_mod_eq_zero hp
  by_cases h1 : a + 1 ≤ f.len
  · by_cases hv : f.hi a = 4
    · by_cases hi : 5 ≤ f.lo a
      · by_cases h : a + 4 * f.lo a ≤ f.len
        · rw [decodeIpv4_at hv hi h]; trivial
        · rw [decodeIpv4_short hv hi h1 (by omega)]; trivial
      · rw [decodeIpv4_small h1 hv (by omega)]; trivial
    · rw [decodeIpv4_badVersion h1 hv]; trivial
  · rw [decodeIpv4_empty (by omega)]; trivial

theorem answers_icmp : (withRest f (decodeIcmp f p)).Answers := by
  obtain ⟨a, rfl⟩ := Nat.dvd_of_mod_eq_zero hp
  by_cases h : a + 4 ≤ f.len
  · rw [withRest_at (decodeIcmp_at h) h]; trivial
  · rw [decodeIcmp_short (by omega), withRest_fail]; trivial

theorem answers_tcp : (withRest f (decodeTcp f p)).Answers := by
  obtain ⟨a, rfl⟩ := Nat.dvd_of_mod_eq_zero hp
  by_cases h13 : a + 13 ≤ f.len
  · by_cases ho : 5 ≤ f.hi (a + 12)
    · by_cases h : a + 4 * f.hi (a + 12) ≤ f.len
      · rw [withRest_at (decodeTcp_at ho h) h]; trivial
      · rw [decodeTcp_short h13 ho (by omega), withRest_fail]; trivial
    · rw [decodeTcp_small h13 (by omega), withRest_fail]; trivial
  · rw [decodeTcp_empty (by omega), withRest_fail]; trivial

theorem answers_decodeUdp : (decodeUdp f p).Answers := by
  obtain ⟨a, rfl⟩ := Nat.dvd_of_mod_eq_zero hp
  by_cases h6 : a + 6 ≤ f.len
  · by_cases hl : 8 ≤ be (f.bytes (a + 4) 2)
    · by_cases h : a + be (f.bytes (a + 4) 2) ≤ f.len
      · rw [decodeUdp_at hl h]; trivial
      · rw [decodeUdp_short h6 hl (by omega)]; trivial
    · rw [decodeUdp_small h6 (by omega)]; trivial
  · rw [decodeUdp_empty (by omega)]; trivial

end

/-! ### The parser's move is enabled -/

/-- The part of the invariant that the parser's run rests on: the cursor, the groups and the payload window. It says nothing of the
memory and of FRAME_MAX, and START gives it in every state. -/
structure State.ParserInv (s : State) : Prop where
  aligned : s.CursorAligned
  groups : s.groupsMatchPhase
  payload : ∀ w, s.pay = some w → w.off + w.len ≤ s.frameLen

theorem State.Inv.parserInv (h : s.Inv) : s.ParserInv := ⟨h.aligned, h.groups, h.payload⟩

theorem begin_parserInv (s : State) : s.begin.ParserInv := ⟨fun _ => rfl, ⟨rfl, rfl, rfl, rfl, rfl, rfl, rfl⟩, nofun⟩

theorem Move.parserInv (hm : Move s t) (h : s.ParserInv) : t.ParserInv :=
  ⟨hm.cursorAligned h.aligned, hm.groupsMatchPhase h.groups, hm.payload_inFrame h.payload⟩

theorem layerStep_answers {ph : Phase} {k : ErrKind} {r : Res α} {put : α → State → State} (hp : s.phase = ph)
    (hr : r.Answers) : ∃ t, layerStep ph k r put s = .next t := by
  cases r with
  | ok v q => exact ⟨_, layerStep_ok hp k v q put⟩
  | fail c q => exact ⟨_, layerStep_fail hp k c q put⟩
  | stop e => exact hr.elim

theorem parserStep_answers (h : s.ParserInv) : ∃ t, parserStep s = .next t := by
  have hcur : s.phase ≠ .error → s.cur % 8 = 0 := h.aligned
  unfold parserStep
  cases hp : s.phase <;> dsimp only
  case eth => exact layerStep_answers hp (answers_decodeEther (hcur (by simp [hp])))
  case ip => exact layerStep_answers hp (answers_decodeIpv4 (hcur (by simp [hp])))
  case icmp => exact layerStep_answers hp (answers_icmp (hcur (by simp [hp])))
  case tcp => exact layerStep_answers hp (answers_tcp (hcur (by simp [hp])))
  case udp => exact layerStep_answers hp (answers_decodeUdp (hcur (by simp [hp])))
  case dispatch =>
    obtain ⟨-, hi⟩ := h.groups.of_dispatch hp
    obtain ⟨g, hg⟩ := Option.isSome_iff_exists.mp hi
    exact ⟨_, execStepDispatch_eq hp hg⟩
  all_goals exact ⟨s, rfl⟩

theorem runParser_answers (h : s.ParserInv) (k : Nat) : ∃ t, runParser k s = .next t ∧ t.ParserInv := by
  induction k generalizing s with
  | zero => exact ⟨s, rfl, h⟩
  | succ k ih =>
    obtain ⟨u, hu⟩ := parserStep_answers h
    obtain ⟨t, ht, hinv⟩ := ih ((parserStep_move hu).parserInv h)
    exact ⟨t, thenDo_eq_next.mpr ⟨u, hu, ht⟩, hinv⟩

/-! ### Each move goes further along the order of R225 -/

/-- A layer step goes further along the order if its successor phase and ERROR lie further along it. -/
theorem layerStep_rank {ph next : Phase} {k : ErrKind} {r : Res α} {put : α → State → State}
    (h : layerStep ph k r put s = .next t) (hput : ∀ v u, (put v u).phase = next)
    (hlt : Claims.phaseRank ph < Claims.phaseRank next ∧ Claims.phaseRank ph < Claims.phaseRank .error) :
    Claims.phaseRank ph < Claims.phaseRank t.phase := by
  obtain ⟨hnext, herror⟩ := hlt
  obtain ⟨-, ⟨v, q, -, rfl⟩ | ⟨c, q, -, rfl⟩⟩ := layerStep_eq_next h
  · rwa [hput]
  · exact herror

theorem parserStep_rank (hb : s.busy = true) (h : parserStep s = .next t) :
    Claims.phaseRank s.phase < Claims.phaseRank t.phase := by
  have hq := quiescent_eq_false_of_busy hb
  unfold parserStep at h
  cases hp : s.phase <;> simp only [hp] at h hq
  case eth | ip | icmp | tcp | udp => exact layerStep_rank h (fun _ _ => rfl) (by decide)
  case dispatch =>
    obtain ⟨-, g, -, rfl⟩ := execStepDispatch_eq_next h
    rw [State.putContents_phase]
    cases g.protoTag <;> decide
  all_goals cases hq

theorem phase_of_rank {ph : Phase} (h : 5 ≤ Claims.phaseRank ph) : ph = .done ∨ ph = .error := by
  revert h
  cases ph <;> decide

theorem rank_of_quiescent {ph : Phase} (h : ph.quiescent = true) (hr : 1 ≤ Claims.phaseRank ph) : Claims.phaseRank ph = 5 := by
  revert h hr
  cases ph <;> decide

/-- Outside IDLE `k` moves go `k` places further, or to the end. -/
theorem runParser_rank {k : Nat} (hr : 1 ≤ Claims.phaseRank s.phase) (h : runParser k s = .next t) :
    min 5 (Claims.phaseRank s.phase + k) ≤ Claims.phaseRank t.phase := by
  induction k generalizing s with
  | zero => cases h; exact Nat.min_le_right _ _
  | succ k ih =>
    cases hb : s.busy with
    | true =>
      obtain ⟨u, hu, h⟩ := thenDo_eq_next.mp h
      have hlt := parserStep_rank hb hu
      have hrest := ih (by omega) h
      omega
    | false =>
      have hq : s.phase.quiescent = true := quiescent_of_not_busy hb
      rw [runParser_quiescent hq] at h
      cases h
      have hend := rank_of_quiescent hq hr
      omega

/-- A transaction ends within four moves (R214). -/
theorem runParser_begin_ends (h : runParser 4 s.begin = .next t) : t.phase = .done ∨ t.phase = .error :=
  phase_of_rank (runParser_rank (s := s.begin) Nat.le.refl h)

/-! ### The outcome of DECODE_PACKET (R216) -/

/-- At the end of a transaction the outcome can be read, and reading it changes the caller's result alone. -/
theorem readOutcome_of_end (h : t.ParserInv) (hend : t.phase = .done ∨ t.phase = .error) :
    ∃ o, readOutcome t = .next { t with out := o } ∧
      (t.phase = .error ∧ o = .error t.errKind t.errCause ∨ t.phase = .done ∧ ∃ p, t.packet = some p ∧ o = .packet p) := by
  obtain hd | he := hend
  · obtain ⟨heth, hip, -⟩ := h.groups.of_done hd
    obtain ⟨e, he⟩ := Option.isSome_iff_exists.mp heth
    obtain ⟨g, hg⟩ := Option.isSome_iff_exists.mp hip
    obtain ⟨c, hc⟩ := contents_isSome_of_done h.groups hd
    have hpkt := packet_eq he hg hc
    refine ⟨_, ?_, .inr ⟨hd, _, hpkt, rfl⟩⟩
    rw [readOutcome, if_neg (by simp [hd]), if_pos hd, hpkt]
    exact if_pos (payInFrame_of_window h.payload)
  · exact ⟨_, if_pos he, .inl ⟨he, rfl⟩⟩

/-- An admitted `DECODE_PACKET` reads the outcome of the transaction on the loaded frame. -/
theorem execDecodePacket_admitted {bs : List Byte} (hq : s.phase.quiescent = true) (hl : bs.length ≤ Config.frameMax)
    (h : runParser 4 (s.load bs).begin = .next t) : execDecodePacket bs s = readOutcome t := by
  have hload : execLoadFrame bs s = .next (s.load bs) := execLoadFrame_admitted hq hl
  have hstart : execStart (s.load bs) = .next (s.load bs).begin := execStart_quiescent rfl
  simp only [execDecodePacket, hload, hstart, h, thenDo]

/-! ### Two runs on the same valid bytes (R217) -/

theorem parserStep_alike (h : ∀ a, a < s.frameLen → m.read a = s.fb.read a) :
    AnswersAlike m (parserStep s) (parserStep { s with fb := m }) := by
  have ha := frame_agrees h
  unfold parserStep
  dsimp only
  split
  · exact .next s
  · exact layerStep_alike ha.decodeEther fun _ _ => rfl
  · exact layerStep_alike ha.decodeIpv4 fun _ _ => rfl
  · exact execStepDispatch_alike
  · exact layerStep_alike ((ha.withRest _).trans (congrArg _ ha.decodeIcmp)) fun _ _ => rfl
  · exact layerStep_alike ((ha.withRest _).trans (congrArg _ ha.decodeTcp)) fun _ _ => rfl
  · exact layerStep_alike ha.decodeUdp fun _ _ => rfl
  · exact .next s
  · exact .next s

theorem runParser_alike {k : Nat} (h : ∀ a, a < s.frameLen → m.read a = s.fb.read a) (hr : runParser k s = .next t) :
    runParser k { s with fb := m } = .next { t with fb := m } := by
  induction k generalizing s with
  | zero => cases hr; rfl
  | succ k ih =>
    obtain ⟨u, hu, hr⟩ := thenDo_eq_next.mp hr
    obtain ⟨hnext, -⟩ := parserStep_alike h
    have hframe := parserStep_frame hu
    have hfb : u.fb = s.fb := congrArg Frame.fb hframe
    have hlen : u.frameLen = s.frameLen := congrArg Frame.len hframe
    exact thenDo_eq_next.mpr ⟨_, hnext u hu, ih (by rwa [hfb, hlen]) hr⟩

end Sys2Proof.Machine

namespace Sys2Proof.Claims

open Sys2Proof.Machine

/-- Settles O56: START clears all that earlier transactions left, so the two runs begin alike, and they stay alike. -/
theorem outcomeDependsOnTheFrameAlone : Obligations.OutcomeDependsOnTheFrameAlone := by
  intro s s' hb hb' hr hr' hc hc' hq hq' hlen hbytes
  have hquiet : s.phase.quiescent = true := quiescent_of_not_busy hb
  have hquiet' : s'.phase.quiescent = true := quiescent_of_not_busy hb'
  have hbegin : s'.begin = { s.begin with fb := s'.fb } := by
    simp [State.begin, State.clearResults, hlen, hr, hr', hc, hc', hq, hq']
  obtain ⟨t, ht, -⟩ := runParser_answers (begin_parserInv s) 4
  have ht' : runParser 4 s'.begin = .next { t with fb := s'.fb } :=
    hbegin ▸ runParser_alike (s := s.begin) (fun a ha => (hbytes a ha).symm) ht
  exact ⟨s.begin, s'.begin, t, { t with fb := s'.fb }, execStart_quiescent hquiet, execStart_quiescent hquiet',
    (core_run_eq_runParser (s := s.begin) 4 hr hc hq).trans ht,
    (core_run_eq_runParser (s := s'.begin) 4 hr' hc' hq').trans ht', rfl⟩

/-- Settles O52: the parser's move is enabled, keeps the invariant and goes further. -/
theorem busyStepsMakeProgress : Obligations.BusyStepsMakeProgress := by
  intro s h hr hq hb
  obtain ⟨t, ht⟩ := parserStep_answers h.parserInv
  have hm := parserStep_move ht
  obtain ⟨hrst, hreq, -⟩ := hm.model_fields
  exact ⟨t, (step_parser hr h.noCall hq).trans ht, hm.inv h, hrst.trans hr, hreq.trans hq, parserStep_rank hb ht⟩

/-- Settles O55: the four moves from the loaded frame end the transaction, and `DECODE_PACKET` reads their outcome. -/
theorem decodePacketIsLoadStartAndSteps : Obligations.DecodePacketIsLoadStartAndSteps := by
  intro s bs hb hr hc hq hl
  have hquiet : s.phase.quiescent = true := quiescent_of_not_busy hb
  obtain ⟨t, ht, hinv⟩ := runParser_answers (begin_parserInv (s.load bs)) 4
  obtain ⟨o, hread, hout⟩ := readOutcome_of_end hinv (runParser_begin_ends ht)
  exact ⟨s.load bs, (s.load bs).begin, t, o, execLoadFrame_admitted hquiet hl, execStart_quiescent rfl,
    (core_run_eq_runParser (s := (s.load bs).begin) 4 hr hc hq).trans ht, (execDecodePacket_admitted hquiet hl ht).trans hread, hout⟩

end Sys2Proof.Claims
end

section
/-! The outcome of a transaction in closed form (60_exceptions R234). The closed form speaks of the byte sequence and the machine of its
frame; `Frame.Holds` ties the two, and gives each number that the closed form reads. `Yields k s v` says that `k` of the parser's moves
from `s` end as the verdict `v` says. One lemma per phase, from the last phase back to the first, shows that a phase yields its part of
the closed form, by the tests of R234; the closed forms of the layer decoders say what each test means for the phase step. With
`readOutcome_of_end` they settle O54. -/

namespace Sys2Proof.Machine

variable {α : Type} {s t u : State} {bs : List Byte} {a i k n T : Nat} {v : Claims.Verdict}

/-! ### The frame that holds a byte sequence -/

/-- The valid bytes of the frame are a byte sequence. -/
structure Frame.Holds (f : Frame) (bs : List Byte) : Prop where
  len : f.len = bs.length
  byte : ∀ i, i < bs.length → f.byte i = bs.getD i 0

/-- `LOAD_FRAME` makes the frame hold its bytes (R221). -/
theorem load_holds (hw : s.fb.wf = true) (bs : List Byte) : (s.load bs).frame.Holds bs where
  len := rfl
  byte _ h := (read_writeAll_below hw h).trans (List.getD_eq_getElem bs 0 h).symm

section

variable (hf : s.frame.Holds bs)
include hf

theorem Frame.Holds.byteNum (h : i < bs.length) : Claims.byteNum s i = Claims.nth bs i :=
  congrArg BitVec.toNat (hf.byte i h)

theorem Frame.Holds.version (h : i < bs.length) : Claims.version s i = Claims.nth bs i / 16 := by
  rw [Claims.version, hf.byteNum h]

theorem Frame.Holds.words (h : i < bs.length) : Claims.words s i = Claims.nth bs i % 16 := by
  rw [Claims.words, hf.byteNum h]

theorem Frame.Holds.offsetWords (h : i + 12 < bs.length) : Claims.offsetWords s i = Claims.nth bs (i + 12) / 16 := by
  rw [Claims.offsetWords, hf.byteNum h]

/-- The big-endian value of two bytes (R62). -/
theorem Frame.Holds.half (h : i + 1 < bs.length) :
    Claims.num s i 2 = Claims.nth bs i * 256 + Claims.nth bs (i + 1) := by
  rw [num_eq_be, Frame.be_two]
  exact congrArg₂ (· * 256 + ·) (hf.byteNum (by omega)) (hf.byteNum h)

/-- The bytes of a window inside the frame. -/
theorem bytesAt_of_holds (h : a + n ≤ bs.length) : Claims.bytesAt s a n = (bs.drop a).take n := by
  refine List.ext_getElem (by simp [Claims.bytesAt]; omega) fun j hj _ => ?_
  have hjn : j < n := by simpa [Claims.bytesAt] using hj
  have hbyte : s.fb.read (a + j) = bs.getD (a + j) 0 := hf.byte (a + j) (by omega)
  simp [Claims.bytesAt, hbyte, List.getElem?_eq_getElem (show a + j < bs.length by omega)]

/-- The bytes from an address to the end of the frame. -/
theorem bytesAt_rest_of_holds (h : a ≤ bs.length) : Claims.bytesAt s a (s.frame.len - a) = bs.drop a := by
  rw [hf.len, bytesAt_of_holds hf (by omega)]
  exact List.take_of_length_le (by simp)

end

/-! ### How the parser's moves end -/

/-- A state at the end of a transaction, as a verdict of R234 describes it. -/
def State.EndsAs (t : State) : Claims.Verdict → Prop
  | .err k c => t.phase = .error ∧ t.errKind = k ∧ t.errCause = c
  | .ok v => t.phase = .done ∧ ∃ c, t.contents = some c ∧ Claims.variantOf c = v

/-- `k` of the parser's moves from `s` end as the verdict says. -/
def Yields (k : Nat) (s : State) (v : Claims.Verdict) : Prop := ∃ t, runParser k s = .next t ∧ t.EndsAs v

theorem State.EndsAs.quiescent (h : t.EndsAs v) : t.phase.quiescent = true := by
  cases v with
  | err => obtain ⟨hp, -⟩ := h; rw [hp]; rfl
  | ok => obtain ⟨hp, -⟩ := h; rw [hp]; rfl

/-- At the end of a transaction the parser waits. -/
theorem State.EndsAs.yields (h : t.EndsAs v) (k : Nat) : Yields k t v := ⟨t, runParser_quiescent h.quiescent k, h⟩

theorem Yields.of_step (hs : parserStep s = .next u) (h : Yields k u v) : Yields (k + 1) s v := by
  obtain ⟨t, hrun, hend⟩ := h
  exact ⟨t, thenDo_eq_next.mpr ⟨u, hs, hrun⟩, hend⟩

section

variable {ph : Phase} {kind : ErrKind} {r : Res α} {put : α → State → State} (hsel : parserStep s = layerStep ph kind r put s)
  (hp : s.phase = ph)
include hsel hp

/-- A phase step whose decoder fails ends the transaction with its layer's kind and the decoder's cause (R236). -/
theorem yields_of_fail {c : ErrCause} {p : Nat} (hr : r = .fail c p) (k : Nat) : Yields (k + 1) s (.err kind c) := by
  subst hr
  have hend : ((s.setCur p).raise kind c).EndsAs (.err kind c) := ⟨rfl, rfl, rfl⟩
  exact .of_step (hsel.trans (layerStep_fail hp kind c p put)) (hend.yields k)

/-- A phase step whose decoder answers leaves the verdict to the next phase. -/
theorem yields_of_ok {x : α} {p : Nat} (hr : r = .ok x p) (h : Yields k (put x (s.setCur p)) v) : Yields (k + 1) s v := by
  subst hr
  exact .of_step (hsel.trans (layerStep_ok hp kind x p put)) h

end

/-! ### The transport phases (R234 lines 6 to 9) -/

section

variable (hf : s.frame.Holds bs) (hc : s.cur = 8 * T)
include hf hc

theorem yields_icmp (hp : s.phase = .icmp) (hct : s.ctTag = some .icmp) (k : Nat) :
    Yields (k + 1) s (Claims.closedTransport bs T 0x01) := by
  have hsel : parserStep s = execStepIcmp s := by simp [parserStep, hp]
  have hlen : s.frameLen = bs.length := hf.len
  rw [Claims.closedTransport, if_pos rfl]
  split_ifs with hcut
  · exact yields_of_fail hsel hp (withRest_eq_fail (decodeIcmp_cut hc (by omega))) k
  · have hend : T + 4 ≤ bs.length := by omega
    have hdec := decodeIcmp_whole hc (hlen ▸ hend)
    refine yields_of_ok hsel hp (withRest_at hdec (by rwa [hf.len])) (State.EndsAs.yields ?_ k)
    exact ⟨rfl, _, contents_icmp hct rfl rfl, congrArg Claims.Variant.icmp (bytesAt_rest_of_holds hf hend)⟩

theorem yields_tcp (hp : s.phase = .tcp) (hct : s.ctTag = some .tcp) (k : Nat) :
    Yields (k + 1) s (Claims.closedTransport bs T 0x06) := by
  have hsel : parserStep s = execStepTcp s := by simp [parserStep, hp]
  have hlen : s.frameLen = bs.length := hf.len
  rw [Claims.closedTransport, if_neg (by decide), if_pos rfl]
  by_cases hshort : bs.length < T + 13
  · rw [if_pos hshort]
    exact yields_of_fail hsel hp (withRest_eq_fail (decodeTcp_cut_beforeOffset hc (by omega))) k
  · rw [if_neg hshort, ← hf.offsetWords (by omega)]
    split_ifs with hsmall hcut
    · exact yields_of_fail hsel hp (withRest_eq_fail (decodeTcp_smallOffset hc (by omega) hsmall)) k
    · exact yields_of_fail hsel hp (withRest_eq_fail (decodeTcp_cut_behindOffset hc (by omega) (by omega) (by omega))) k
    · have hend : T + 4 * Claims.offsetWords s T ≤ bs.length := not_lt.mp hcut
      have hdec := decodeTcp_whole hc (not_lt.mp hsmall) (hlen ▸ hend)
      refine yields_of_ok hsel hp (withRest_at hdec (by rwa [hf.len])) (State.EndsAs.yields ?_ k)
      exact ⟨rfl, _, contents_tcp hct rfl rfl, congrArg Claims.Variant.tcp (bytesAt_rest_of_holds hf hend)⟩

theorem yields_udp (hp : s.phase = .udp) (hct : s.ctTag = some .udp) (k : Nat) :
    Yields (k + 1) s (Claims.closedTransport bs T 0x11) := by
  have hsel : parserStep s = execStepUdp s := by simp [parserStep, hp]
  have hlen : s.frameLen = bs.length := hf.len
  rw [Claims.closedTransport, if_neg (by decide), if_neg (by decide), if_pos rfl]
  by_cases hshort : bs.length < T + 6
  · rw [if_pos hshort]
    exact yields_of_fail hsel hp (decodeUdp_cut_beforeLength hc (by omega)) k
  · rw [if_neg hshort, ← hf.half (by omega)]
    split_ifs with hsmall hcut
    · exact yields_of_fail hsel hp (decodeUdp_smallLength hc (by omega) hsmall) k
    · exact yields_of_fail hsel hp (decodeUdp_cut_behindLength hc (by omega) (by omega) (by omega)) k
    · have hend : T + 8 + (Claims.num s (T + 4) 2 - 8) ≤ bs.length := by omega
      refine yields_of_ok hsel hp (decodeUdp_whole hc (by omega) (by omega)) (State.EndsAs.yields ?_ k)
      exact ⟨rfl, _, contents_udp hct rfl rfl, congrArg Claims.Variant.udp (bytesAt_of_holds hf hend)⟩

/-- The phase that the dispatcher chose on the protocol number, with CT_TAG set to its class. -/
theorem yields_transport (hp : s.phase = phaseOf (Claims.protoClass n))
    (hct : s.ctTag = some (contentsTagOf (Claims.protoClass n))) (k : Nat) :
    Yields (k + 1) s (Claims.closedTransport bs T n) := by
  by_cases h1 : n = 0x01
  · subst h1; exact yields_icmp hf hc hp hct k
  by_cases h6 : n = 0x06
  · subst h6; exact yields_tcp hf hc hp hct k
  by_cases h17 : n = 0x11
  · subst h17; exact yields_udp hf hc hp hct k
  have hother : Claims.protoClass n = .other := by simp [Claims.protoClass, h1, h6, h17]
  rw [hother] at hp hct
  have hend : s.EndsAs (.ok .other) := ⟨hp, _, contents_other hct, rfl⟩
  simpa [Claims.closedTransport, h1, h6, h17] using hend.yields (k + 1)

/-! ### The phases before the transport (R234 lines 1 to 5) -/

theorem yields_dispatch (hp : s.phase = .dispatch) {g : Ipv4Regs} (hg : s.ip = some g)
    (hn : g.protoTag = Claims.protoClass n) (k : Nat) : Yields (k + 2) s (Claims.closedTransport bs T n) := by
  have hsel : parserStep s = execStepDispatch s := by simp [parserStep, hp]
  refine .of_step (hsel.trans (execStepDispatch_eq hp hg)) (yields_transport (s := s.putContents g.protoTag) hf hc ?_ ?_ k)
  · rw [State.putContents_phase, hn]
  · rw [State.putContents_ctTag, hn]

end

/-- R234 lines 2 to 9, with the IPv4 header behind the Ethernet header, at byte 14. -/
theorem yields_ip (hf : s.frame.Holds bs) (hc : s.cur = 8 * 14) (hp : s.phase = .ip) (h14 : ¬bs.length < 14) (k : Nat) :
    Yields (k + 3) s (Claims.closedForm bs) := by
  have hsel : parserStep s = execStepIp s := by simp [parserStep, hp]
  have hlen : s.frameLen = bs.length := hf.len
  rw [Claims.closedForm, if_neg h14]
  by_cases h15 : bs.length < 15
  · rw [if_pos h15]
    exact yields_of_fail hsel hp (decodeIpv4_noByte hc (by omega)) _
  · rw [if_neg h15, ← hf.version (by omega), ← hf.words (by omega)]
    split_ifs with hv hsmall hcut
    · exact yields_of_fail hsel hp (decodeIpv4_otherVersion hc (by omega) hv) _
    · exact yields_of_fail hsel hp (decodeIpv4_smallLength hc (by omega) (not_not.mp hv) hsmall) _
    · exact yields_of_fail hsel hp (decodeIpv4_cut hc (by omega) (not_not.mp hv) (by omega) (by omega)) _
    · have hdec := decodeIpv4_whole hc (not_not.mp hv) (by omega) (by omega)
      have hclass : (Claims.ipv4At s 14).protoTag = Claims.protoClass (Claims.nth bs 23) :=
        congrArg Claims.protoClass (hf.byteNum (by omega))
      refine yields_of_ok hsel hp hdec (yields_dispatch ?_ rfl rfl rfl hclass k)
      exact hf

/-- The whole closed form, from a state that `START` began. -/
theorem yields_closedForm (hf : s.frame.Holds bs) (hc : s.cur = 8 * 0) (hp : s.phase = .eth) :
    Yields 4 s (Claims.closedForm bs) := by
  have hsel : parserStep s = execStepEth s := by simp [parserStep, hp]
  have hlen : s.frameLen = bs.length := hf.len
  by_cases h14 : bs.length < 14
  · rw [Claims.closedForm, if_pos h14]
    exact yields_of_fail hsel hp (decodeEther_cut hc (by omega)) 3
  · have hdec := decodeEther_whole hc (by omega)
    refine yields_of_ok hsel hp hdec (yields_ip ?_ rfl rfl h14 0)
    exact hf

/-! ### What DECODE_PACKET hands over -/

theorem contents_of_packet {p : Packet} (h : s.packet = some p) : s.contents = some p.contents := by
  obtain ⟨e, -, h⟩ := Option.bind_eq_some_iff.mp h
  obtain ⟨g, -, h⟩ := Option.bind_eq_some_iff.mp h
  obtain ⟨c, hc, rfl⟩ := Option.map_eq_some_iff.mp h
  exact hc

end Sys2Proof.Machine

namespace Sys2Proof.Claims

open Sys2Proof.Machine

/-- Settles O54: the four moves on the loaded frame yield the closed form, and `DECODE_PACKET` reads what they end as. -/
theorem outcomeFollowsTheClosedForm : Obligations.OutcomeFollowsTheClosedForm := by
  intro s bs hw hb hl
  have hf : (s.load bs).begin.frame.Holds bs := load_holds hw bs
  obtain ⟨t, hrun, hend⟩ := yields_closedForm hf rfl rfl
  obtain ⟨t', hrun', hinv⟩ := runParser_answers (begin_parserInv (s.load bs)) 4
  cases hrun.symm.trans hrun'
  obtain ⟨o, hread, hout⟩ := readOutcome_of_end hinv (runParser_begin_ends hrun)
  refine ⟨{ t with out := o }, (execDecodePacket_admitted (quiescent_of_not_busy hb) hl hrun).trans hread, ?_⟩
  cases hv : closedForm bs with
  | err k c =>
    rw [hv] at hend
    obtain ⟨hp, rfl, rfl⟩ := hend
    obtain ⟨-, ho⟩ | ⟨hd, -⟩ := hout
    · exact ⟨hp, rfl, rfl, ho⟩
    · exact absurd (hp.symm.trans hd) (by decide)
  | ok v =>
    rw [hv] at hend
    obtain ⟨hp, c, hc, hvar⟩ := hend
    obtain ⟨he, -⟩ | ⟨-, p, hpkt, ho⟩ := hout
    · exact absurd (hp.symm.trans he) (by decide)
    · cases hc.symm.trans (contents_of_packet hpkt)
      exact ⟨hp, p, ho, hvar⟩

end Sys2Proof.Claims
end

section
/-! Errors (60_exceptions R230 to R237). What an operation does is a part's effect, an admitted host command, or the move of the phase it
leaves (`exec_cases`); the error registers, or the entry into ERROR, change only in the last two (`errorChange_cases`). That settles O15,
and the clauses of O50 on single operations; its clauses on the error pair and the result registers hold of every operation, because
every effect keeps them (`Effect.cleanError`). -/

namespace Sys2Proof.Machine

variable {s t : State} {i : Instr}

/-- What each operation but `DECODE_PACKET` does, by who does it: a part of a step, a `READ` or a dropped command; an admitted command;
the step of the phase. -/
theorem exec_cases (hi : ∀ bs, i ≠ .decodePacket bs) (h : exec i s = .next t) :
    (∃ p o, t = (s.setCur p).setOut o) ∨
    (s.phase.quiescent = true ∧ (i = .start ∧ t = s.begin ∨ ∃ bs, i = .loadFrame bs ∧ t = s.load bs)) ∨
    Claims.movesFrom s.phase i = true ∧ Move s t := by
  cases hm : isTransactionMove i with
  | false =>
    obtain ⟨p, o, -, rfl⟩ := exec_part hm h
    exact .inl ⟨p, o, rfl⟩
  | true =>
    have hmove := exec_move hm hi h
    cases i
    case decodePacket bs => exact absurd rfl (hi bs)
    case start =>
      obtain ⟨hq, rfl⟩ | ⟨-, rfl⟩ := execStart_eq_next h
      · exact .inr (.inl ⟨hq, .inl ⟨rfl, rfl⟩⟩)
      · exact .inl ⟨t.cur, t.out, rfl⟩
    case loadFrame bs =>
      obtain ⟨⟨hq, -⟩, rfl⟩ | rfl := execLoadFrame_eq_next h
      · exact .inr (.inl ⟨hq, .inr ⟨bs, rfl, rfl⟩⟩)
      · exact .inl ⟨t.cur, t.out, rfl⟩
    case read r => obtain ⟨o, rfl⟩ := execRead_eq_next h; exact .inl ⟨s.cur, o, rfl⟩
    case stepDispatch => obtain ⟨hp, -⟩ := execStepDispatch_eq_next h; exact .inr (.inr ⟨hp ▸ rfl, hmove⟩)
    case stepEth | stepIp | stepIcmp | stepTcp | stepUdp => exact .inr (.inr ⟨movesFrom_of_layerStep rfl h, hmove⟩)
    all_goals cases hm

/-- The error registers change, or ERROR is entered. -/
def ErrorChange (s t : State) : Prop :=
  t.errKind ≠ s.errKind ∨ t.errCause ≠ s.errCause ∨ (t.phase = .error ∧ s.phase ≠ .error)

/-- An operation that leaves PHASE and the error registers as they are. -/
theorem not_errorChange_of_eq (hp : t.phase = s.phase) (hk : t.errKind = s.errKind) (hc : t.errCause = s.errCause) :
    ¬ErrorChange s t := by
  rintro (h | h | ⟨he, hne⟩)
  · exact h hk
  · exact h hc
  · exact hne (hp.symm.trans he)

/-- A step that succeeds leaves the error registers alone and does not enter ERROR. -/
theorem not_errorChange_of_ne (hp : t.phase ≠ .error) (hk : t.errKind = s.errKind) (hc : t.errCause = s.errCause) :
    ¬ErrorChange s t := by
  rintro (h | h | ⟨he, -⟩)
  · exact h hk
  · exact h hc
  · exact hp he

theorem kindOfPhase_of_raiser : ∀ x ∈ raisers, Claims.kindOfPhase x.1 = some x.2 := by decide

/-- `t` is `s` after its phase's step raised a legal pair of the phase's kind (R231, R233, R236). -/
def Raised (s t : State) : Prop :=
  ∃ k c p, t = (s.setCur p).raise k c ∧ (k, c) ∈ legalPairs ∧ Claims.kindOfPhase s.phase = some k

/-- In a busy phase the error registers change by a raise alone. -/
theorem Move.raised_of_busy (hm : Move s t) (hb : s.busy = true) (h : ErrorChange s t) : Raised s t := by
  have hq : s.phase.quiescent ≠ true := by simp [quiescent_eq_false_of_busy hb]
  cases hm
  case result | dropped => exact absurd h (not_errorChange_of_eq rfl rfl rfl)
  case started hs | loaded hs _ => exact absurd hs hq
  case ether | ipv4 | icmp | tcp | udp => exact absurd h (not_errorChange_of_ne nofun rfl rfl)
  case contents g _ _ => exact absurd h (not_errorChange_of_ne (phaseOf_ne_error _) rfl rfl)
  case raised k c p hk _ hr => exact ⟨k, c, p, rfl, hk, kindOfPhase_of_raiser _ hr⟩

/-- The error registers are cleared by an admitted command and written by the raise of a phase step, and by nothing else (R35, R230). -/
theorem errorChange_cases (hi : ∀ bs, i ≠ .decodePacket bs) (h : exec i s = .next t) (he : ErrorChange s t) :
    (s.phase.quiescent = true ∧ (i = .start ∧ t = s.begin ∨ ∃ bs, i = .loadFrame bs ∧ t = s.load bs)) ∨
    Claims.movesFrom s.phase i = true ∧ Raised s t := by
  obtain ⟨p, o, rfl⟩ | hhost | ⟨hstep, hm⟩ := exec_cases hi h
  · exact absurd he (not_errorChange_of_eq rfl rfl rfl)
  · exact .inl hhost
  · exact .inr ⟨hstep, hm.raised_of_busy (busy_of_movesFrom hstep) he⟩

/-- The phases whose step raises, each with that step (R230). -/
theorem raisingStep_of_movesFrom {ph : Phase} (h : Claims.movesFrom ph i = true) (hk : Claims.kindOfPhase ph ≠ none) :
    ph = .eth ∧ i = .stepEth ∨ ph = .ip ∧ i = .stepIp ∨ ph = .icmp ∧ i = .stepIcmp ∨ ph = .tcp ∧ i = .stepTcp ∨
      ph = .udp ∧ i = .stepUdp := by
  unfold Claims.movesFrom at h
  split at h
  -- The third row is the dispatcher, which raises nothing; the seventh stands for all pairs that are no move.
  case h_3 => exact absurd rfl hk
  case h_7 => cases h
  all_goals simp

/-- A state in ERROR has a legal pair, and no result register holds a value (R233, R236, R237). -/
def State.CleanError (s : State) : Prop :=
  s.phase = .error → (s.errKind, s.errCause) ∈ legalPairs ∧
    (s.eth = none ∧ s.ip = none ∧ s.ctTag = none ∧ s.icmp = none ∧ s.tcp = none ∧ s.udp = none ∧ s.pay = none)

theorem Effect.cleanError (he : Effect s t) (h : s.CleanError) : t.CleanError := by
  cases he with
  | cursor => exact h
  | move hm =>
    cases hm
    case result | dropped => exact h
    case contents g _ _ => exact fun hp => absurd hp (phaseOf_ne_error _)
    case raised hk _ _ => exact fun _ => ⟨hk, rfl, rfl, rfl, rfl, rfl, rfl, rfl⟩
    all_goals exact nofun

end Sys2Proof.Machine

namespace Sys2Proof.Claims

open Sys2Proof.Machine

/-- Settles O15: an admitted command clears the error registers, and the step of a phase with a kind raises. -/
theorem errorsAriseOnlyInThePhaseSteps : Obligations.ErrorsAriseOnlyInThePhaseSteps := by
  intro i s t hi h he
  obtain ⟨hq, hhost⟩ | ⟨hstep, k, c, p, rfl, hlegal, hkind⟩ := errorChange_cases hi h he
  · have hb : s.busy = false := by simpa [hq] using quiescent_eq_not_busy s
    obtain ⟨rfl, rfl⟩ | ⟨bs, rfl, rfl⟩ := hhost
    · exact .inl ⟨.inl rfl, hb, rfl, rfl, nofun⟩
    · exact .inl ⟨.inr ⟨bs, rfl⟩, hb, rfl, rfl, nofun⟩
  · exact .inr ⟨rfl, hlegal, hkind, raisingStep_of_movesFrom hstep (by simp [hkind])⟩

/-- Settles O50: every effect keeps that ERROR is legal and clean, and ERROR is entered by a raise, never by an admitted command. -/
theorem errorsAreLegalAndClearTheResult : Obligations.ErrorsAreLegalAndClearTheResult := by
  intro i s t h ht hs
  have hclean : t.CleanError := exec_keeps (fun _ _ hu he => he.cleanError hu) (fun hp => absurd hp hs) h
  obtain ⟨hlegal, hnone⟩ := hclean ht
  refine ⟨hlegal, hnone, fun hi => ?_⟩
  obtain ⟨-, ⟨-, rfl⟩ | ⟨bs, -, rfl⟩⟩ | ⟨hstep, k, c, p, rfl, -, hkind⟩ := errorChange_cases hi h (.inr (.inr ⟨ht, hs⟩))
  · cases ht
  · cases ht
  · exact ⟨rfl, rfl, hstep, hkind⟩

end Sys2Proof.Claims
end

section
/-! The two ways a transaction ends: by its own steps, at most four from any busy phase (44_dispatch R214, 70_reset R269), which is O53, and
at once by the reset input (R260), which is O5. A busy phase is not IDLE, so it has a place in the order of R225
(`rank_pos_of_busy`), and four of the parser's moves go from there to the end of the order (`runParser_rank`). -/

namespace Sys2Proof.Machine

variable {s t : State}

/-- The busy phases begin at the first place of the order of R225, after IDLE. -/
theorem rank_pos_of_busy (hb : s.busy = true) : 1 ≤ Claims.phaseRank s.phase := by
  have hq := quiescent_eq_false_of_busy hb
  cases hp : s.phase
  case idle => rw [hp] at hq; cases hq
  all_goals decide

/-- From any busy phase, not from the first alone, four moves end the transaction (R214). -/
theorem runParser_busy_ends (hb : s.busy = true) (h : runParser 4 s = .next t) : t.phase = .done ∨ t.phase = .error := by
  have hstart := rank_pos_of_busy hb
  have hrun := runParser_rank hstart h
  exact phase_of_rank (by omega)

end Sys2Proof.Machine

namespace Sys2Proof.Claims

open Sys2Proof.Machine

/-- Settles O53: the invariant keeps every move of the parser enabled, and four moves reach the end of the phase order. -/
theorem transactionsEndWithinFourSteps : Obligations.TransactionsEndWithinFourSteps := by
  intro s h hr hq hb
  obtain ⟨t, ht, -⟩ := runParser_answers h.parserInv 4
  have hrun : Host.Core.run Sys2Proof.core 4 s = .next t := (core_run_eq_runParser 4 hr h.noCall hq).trans ht
  exact ⟨4, t, by decide, by decide, hrun, runParser_busy_ends hb ht⟩

/-- Settles O5: the reset input comes before the phase, the call bench and the requests (log entry 5). -/
theorem resetEndsATransactionAtOnce : Obligations.ResetEndsATransactionAtOnce := fun _ hr => step_reset hr

end Sys2Proof.Claims
end
